-- ==== Sys2Proof/Word.lean ====
section
/-! DEFINITION. Word types of HUFFCORE (spec 00_scope.md R7, R8). -/

namespace Sys2Proof

/-- A register or command word: 32 bits, bit 0 the least significant (R7). -/
abbrev Word := BitVec 32

/-- A byte of a stream or of an output queue. -/
abbrev Byte := BitVec 8

/-- A bit string, leftmost bit first in stream order (R8). -/
abbrev BitString := List Bool

end Sys2Proof
end

