-- ==== Sys2Proof/Syntax.lean ====
section
/-! DEFINITION. The commands of HUFFCORE (spec/opcode_table.json, 30_encoding.md R84), the names of its
registers (10_state.md R42), and the assembler's lines (30_encoding.md R89, R90). -/

namespace Sys2Proof

/-- The two command ports: ENC_CMD at offset 0x00 and DEC_CMD at offset 0x40 (R80). -/
inductive Port where
  | enc
  | dec
  deriving DecidableEq, Repr

/-- A command. Operands have exactly the width of their field (R81), so every term is encodable. -/
inductive Instr where
  /-- ENC.NOP (R86). -/
  | encNop
  /-- ENC.START, `s` = FLG[0]: SIZE_ONLY (41_encoder.md R124). -/
  | encStart (s : Bool)
  /-- ENC.BYTE, imm8 (R125). -/
  | encByte (b : Byte)
  /-- ENC.FINISH (R126). -/
  | encFinish
  /-- ENC.TBLRD, imm9 (R128). -/
  | encTblrd (id : BitVec 9)
  /-- DEC.NOP (R86). -/
  | decNop
  /-- DEC.START: L = FLG[0] = 0 (42_decoder.md R156). -/
  | decStart
  /-- DEC.START.MAX: L = FLG[0] = 1, imm24 (R156). -/
  | decStartMax (maxlen : BitVec 24)
  /-- DEC.BYTE, imm8 (R157). -/
  | decByte (b : Byte)
  /-- DEC.FINISH (R158). -/
  | decFinish
  deriving DecidableEq, Repr

/-- The port a command belongs to (R84). -/
def Instr.port : Instr → Port
  | .encNop => .enc
  | .encStart _ => .enc
  | .encByte _ => .enc
  | .encFinish => .enc
  | .encTblrd _ => .enc
  | .decNop => .dec
  | .decStart => .dec
  | .decStartMax _ => .dec
  | .decByte _ => .dec
  | .decFinish => .dec

/-- The registers of the register map (10_state.md R42). -/
inductive Reg where
  | encCmd
  | encStatus
  | encAcc
  | encInCount
  | encTotalBits
  | encSize
  | encTblCode
  | encTblLen
  | encOut
  | encOutqLevel
  | decCmd
  | decStatus
  | decPend
  | decInCount
  | decOutCount
  | decMaxlen
  | decErrByte
  | decErrBit
  | decOut
  | decOutqLevel
  | coreParams
  | coreId
  deriving DecidableEq, Repr

/-- An assembler line (R89, R90). Immediates are the numbers they denote, before any range check; a quoted
character is its ASCII code, a string the list of its bytes. -/
inductive AsmLine where
  | encNop
  | encStart
  | encStartSize
  | encByte (b : Nat)
  | encFinish
  | encTblrd (id : Nat)
  | decNop
  | decStart
  | decStartMax (n : Nat)
  | decByte (b : Nat)
  | decFinish
  /-- `rd <REG>`: a host register read. -/
  | rd (r : Reg)
  /-- `pop enc` / `pop dec`: a read of ENC_OUT / DEC_OUT. -/
  | pop (p : Port)
  /-- `enc.str "s"`. -/
  | encStr (s : List Nat)
  /-- `enc.hex h1 h2 ...`. -/
  | encHex (hs : List Nat)
  /-- `enc.encode "s"`. -/
  | encEncode (s : List Nat)
  /-- `enc.sizeof "s"`. -/
  | encSizeof (s : List Nat)
  /-- `dec.hex h1 h2 ...`. -/
  | decHex (hs : List Nat)
  /-- `dec.decode h1 h2 ...`. -/
  | decDecode (hs : List Nat)
  /-- `dec.decode.max n, h1 h2 ...`. -/
  | decDecodeMax (n : Nat) (hs : List Nat)
  deriving DecidableEq, Repr

/-- What one assembler line makes the host do: write a command word to a port, or read a register. -/
inductive HostAction where
  | command (p : Port) (w : Word)
  | readReg (r : Reg)
  deriving DecidableEq, Repr

end Sys2Proof
end

