-- ==== Sys2Proof/Config.lean ====
section
/-! DEFINITION. What is fixed for one HUFFCORE: the constants and parameters of spec 00_scope.md R6 and the
type of its Symbol Table. The spec has no register field whose read value is "any value"
(93_implementation_defined.md), so there is no opaque free value here. -/

namespace Sys2Proof.Machine

/-- `NSYM` of R6: entries of the Symbol Table. -/
abbrev nsym : Nat := 257

/-- `EOS` of R6: the id of the end-of-string symbol. -/
abbrev eos : Nat := 256

/-- `LEN_MIN` of R6. -/
abbrev lenMin : Nat := 5

/-- `LEN_MAX` of R6. -/
abbrev lenMax : Nat := 30

/-- The largest value of a 32-bit counter (`CNT_W` of R6; 60_exceptions.md R196). -/
abbrev maxCount : Nat := 2 ^ 32 - 1

/-- `ENC_EMIT_MAX` of R6: most bytes one ENC.BYTE emits. -/
abbrev encEmitMax : Nat := 4

/-- `DEC_EMIT_MAX` of R6: most bytes one DEC.BYTE emits. -/
abbrev decEmitMax : Nat := 2

/-- One entry of the Symbol Table: a 30-bit code field, right-justified, and a 5-bit length
(20_memory.md R61, 40_symbol_table.md R107). -/
structure SymbolEntry where
  code : BitVec 30
  len : BitVec 5
  deriving DecidableEq, Repr

/-- The Symbol Table, entry `i` at index `i` (40_symbol_table.md R100). -/
abbrev Table := List SymbolEntry

/-- The parameters of R6 that a model takes as arguments. No step changes them. -/
structure Params where
  /-- `TABLE`: the Symbol Table ROM. -/
  table : Table
  /-- `OUTQ_DEPTH`: entries in each output byte queue, 4..255. -/
  outqDepth : Nat
  /-- `MAX_PAD_BITS`: longest trailing EOS prefix accepted as padding, 7..29. -/
  maxPadBits : Nat
  /-- `HUFF_BASE`: base address of the register space (20_memory.md R62). -/
  huffBase : Nat
  deriving DecidableEq, Repr

end Sys2Proof.Machine
end

