-- ==== Sys2Proof/Machine/Bits.lean ====
section
/-! DEFINITION. The bit-string primitives of spec 00_scope.md R8. `++`, `take`, `drop` and `isPrefix`
are `List` append, `List.take`, `List.drop` and `List.isPrefixOf`. -/

namespace Sys2Proof.Machine

/-- `bits_N(v)` of R8: the `n` low bits of `v`, most significant first. -/
def bitsOf : Nat → Nat → BitString
  | 0, _ => []
  | n + 1, v => v.testBit n :: bitsOf n v

/-- `val(s)` of R8: the number whose MSB-first binary digits are `s`. -/
def valOf : BitString → Nat
  | [] => 0
  | b :: s => b.toNat * 2 ^ s.length + valOf s

/-- `ones(n)` of R8. -/
def ones (n : Nat) : BitString := List.replicate n true

/-- A byte as a bit string: its bit 7 comes first (R8, 20_memory.md R63). -/
def byteBits (b : Byte) : BitString := bitsOf 8 b.toNat

/-- The byte whose bits are the (at most 8) bits of `s`. -/
def byteOf (s : BitString) : Byte := BitVec.ofNat 8 (valOf s)

/-- Takes `n` bytes off the front of `s` (the emit loop of 41_encoder.md R125): the bytes in stream
order, and what is left of `s`. -/
def packBytes : Nat → BitString → List Byte × BitString
  | 0, s => ([], s)
  | n + 1, s => (byteOf (s.take 8) :: (packBytes n (s.drop 8)).1, (packBytes n (s.drop 8)).2)

/-- A byte sequence as one bit string, in stream order (20_memory.md R63, R64). -/
def streamBits (bs : List Byte) : BitString := bs.flatMap byteBits

end Sys2Proof.Machine
end

