-- ==== Sys2Proof/Machine/Table.lean ====
section
/-! DEFINITION. The Symbol Table: codewords, `TableRead`, HUFFCORE's table, and the well-formedness checks of
a table and of the parameters (spec 40_symbol_table.md, 00_scope.md R6). -/

namespace Sys2Proof.Machine

/-- `cw(i) = bits_{len_i}(code_i)` (00_scope.md R10, 40_symbol_table.md R107). -/
def SymbolEntry.codeword (e : SymbolEntry) : BitString := bitsOf e.len.toNat e.code.toNat

/-- `TableRead(id)` (R102): entry `id` for `0 ≤ id ≤ 256`, and nothing for any other id. -/
def tableRead (T : Table) (id : Nat) : Option SymbolEntry :=
  if id ≤ eos then T[id]? else none

/-- `cw(id)` of a table, empty where the table has no such entry. -/
def codewordOf (T : Table) (id : Nat) : BitString :=
  match tableRead T id with
  | some e => e.codeword
  | none => []

/-! ### Well-formedness of a table (R101) -/

/-- R101 check 1: exactly 257 entries. -/
def tableCountOk (T : Table) : Bool := T.length == nsym

/-- R101 check 2: every length is in 5..30. -/
def tableLengthsOk (T : Table) : Bool :=
  T.all fun e => decide (lenMin ≤ e.len.toNat) && decide (e.len.toNat ≤ lenMax)

/-- R101 check 3: every code fits its length. -/
def tableCodesFit (T : Table) : Bool := T.all fun e => decide (e.code.toNat < 2 ^ e.len.toNat)

/-- The strings of `L` that begin with `b`, without that first bit. -/
def tailsAfter (b : Bool) : List BitString → List BitString
  | [] => []
  | [] :: L => tailsAfter b L
  | (c :: t) :: L => if c = b then t :: tailsAfter b L else tailsAfter b L

/-- No string of `L` is a prefix of another one: split by the first bit, at most `fuel` times.
`Laws/Table.lean` proves that it says what R101 check 4 says, pair by pair. -/
def prefixFree : Nat → List BitString → Bool
  | _, [] => true
  | _, [_] => true
  | 0, _ :: _ :: _ => false
  | n + 1, L =>
    !L.any List.isEmpty && (prefixFree n (tailsAfter false L) && prefixFree n (tailsAfter true L))

/-- R101 check 4: prefix-free, which also excludes two equal codewords. -/
def tablePrefixFree (T : Table) : Bool := prefixFree 32 (T.map SymbolEntry.codeword)

/-- R101 check 5: `len_256 ≥ 7`. -/
def tableEosLongEnough (T : Table) : Bool :=
  match T[eos]? with
  | some e => decide (7 ≤ e.len.toNat)
  | none => false

/-- R101: all five checks. -/
def tableWf (T : Table) : Bool :=
  tableCountOk T && tableLengthsOk T && tableCodesFit T && tableEosLongEnough T && tablePrefixFree T

/-- The ranges of R6 and 20_memory.md R62: OUTQ_DEPTH in 4..255, MAX_PAD_BITS in 7..29, HUFF_BASE
4-byte aligned. -/
def rangesOk (P : Params) : Bool :=
  decide (4 ≤ P.outqDepth) && decide (P.outqDepth ≤ 255) &&
    decide (7 ≤ P.maxPadBits) && decide (P.maxPadBits ≤ 29) && decide (P.huffBase % 4 = 0)

/-- The configuration is one that HUFFCORE can have (R101 and R6). -/
def paramsWf (P : Params) : Bool := rangesOk P && tableWf P.table

/-! ### HUFFCORE's table (R103)

PRESUMED in the spec itself ("from general knowledge, not in source"); the spec's text gives the values.
A row is written `entry code len`. -/

/-- One row of R103. -/
def entry (code len : Nat) : SymbolEntry := ⟨BitVec.ofNat 30 code, BitVec.ofNat 5 len⟩

/-- Rule R103, ids 0 to 15. -/
def tableRows0 : Table :=
  [entry 0x1ff8 13, entry 0x7fffd8 23, entry 0xfffffe2 28, entry 0xfffffe3 28,
   entry 0xfffffe4 28, entry 0xfffffe5 28, entry 0xfffffe6 28, entry 0xfffffe7 28,
   entry 0xfffffe8 28, entry 0xffffea 24, entry 0x3ffffffc 30, entry 0xfffffe9 28,
   entry 0xfffffea 28, entry 0x3ffffffd 30, entry 0xfffffeb 28, entry 0xfffffec 28]

/-- Rule R103, ids 16 to 31. -/
def tableRows16 : Table :=
  [entry 0xfffffed 28, entry 0xfffffee 28, entry 0xfffffef 28, entry 0xffffff0 28,
   entry 0xffffff1 28, entry 0xffffff2 28, entry 0x3ffffffe 30, entry 0xffffff3 28,
   entry 0xffffff4 28, entry 0xffffff5 28, entry 0xffffff6 28, entry 0xffffff7 28,
   entry 0xffffff8 28, entry 0xffffff9 28, entry 0xffffffa 28, entry 0xffffffb 28]

/-- Rule R103, ids 32 to 47. -/
def tableRows32 : Table :=
  [entry 0x14 6, entry 0x3f8 10, entry 0x3f9 10, entry 0xffa 12,
   entry 0x1ff9 13, entry 0x15 6, entry 0xf8 8, entry 0x7fa 11,
   entry 0x3fa 10, entry 0x3fb 10, entry 0xf9 8, entry 0x7fb 11,
   entry 0xfa 8, entry 0x16 6, entry 0x17 6, entry 0x18 6]

/-- Rule R103, ids 48 to 63. -/
def tableRows48 : Table :=
  [entry 0x0 5, entry 0x1 5, entry 0x2 5, entry 0x19 6,
   entry 0x1a 6, entry 0x1b 6, entry 0x1c 6, entry 0x1d 6,
   entry 0x1e 6, entry 0x1f 6, entry 0x5c 7, entry 0xfb 8,
   entry 0x7ffc 15, entry 0x20 6, entry 0xffb 12, entry 0x3fc 10]

/-- Rule R103, ids 64 to 79. -/
def tableRows64 : Table :=
  [entry 0x1ffa 13, entry 0x21 6, entry 0x5d 7, entry 0x5e 7,
   entry 0x5f 7, entry 0x60 7, entry 0x61 7, entry 0x62 7,
   entry 0x63 7, entry 0x64 7, entry 0x65 7, entry 0x66 7,
   entry 0x67 7, entry 0x68 7, entry 0x69 7, entry 0x6a 7]

/-- Rule R103, ids 80 to 95. -/
def tableRows80 : Table :=
  [entry 0x6b 7, entry 0x6c 7, entry 0x6d 7, entry 0x6e 7,
   entry 0x6f 7, entry 0x70 7, entry 0x71 7, entry 0x72 7,
   entry 0xfc 8, entry 0x73 7, entry 0xfd 8, entry 0x1ffb 13,
   entry 0x7fff0 19, entry 0x1ffc 13, entry 0x3ffc 14, entry 0x22 6]

/-- Rule R103, ids 96 to 111. -/
def tableRows96 : Table :=
  [entry 0x7ffd 15, entry 0x3 5, entry 0x23 6, entry 0x4 5,
   entry 0x24 6, entry 0x5 5, entry 0x25 6, entry 0x26 6,
   entry 0x27 6, entry 0x6 5, entry 0x74 7, entry 0x75 7,
   entry 0x28 6, entry 0x29 6, entry 0x2a 6, entry 0x7 5]

/-- Rule R103, ids 112 to 127. -/
def tableRows112 : Table :=
  [entry 0x2b 6, entry 0x76 7, entry 0x2c 6, entry 0x8 5,
   entry 0x9 5, entry 0x2d 6, entry 0x77 7, entry 0x78 7,
   entry 0x79 7, entry 0x7a 7, entry 0x7b 7, entry 0x7ffe 15,
   entry 0x7fc 11, entry 0x3ffd 14, entry 0x1ffd 13, entry 0xffffffc 28]

/-- Rule R103, ids 128 to 143. -/
def tableRows128 : Table :=
  [entry 0xfffe6 20, entry 0x3fffd2 22, entry 0xfffe7 20, entry 0xfffe8 20,
   entry 0x3fffd3 22, entry 0x3fffd4 22, entry 0x3fffd5 22, entry 0x7fffd9 23,
   entry 0x3fffd6 22, entry 0x7fffda 23, entry 0x7fffdb 23, entry 0x7fffdc 23,
   entry 0x7fffdd 23, entry 0x7fffde 23, entry 0xffffeb 24, entry 0x7fffdf 23]

/-- Rule R103, ids 144 to 159. -/
def tableRows144 : Table :=
  [entry 0xffffec 24, entry 0xffffed 24, entry 0x3fffd7 22, entry 0x7fffe0 23,
   entry 0xffffee 24, entry 0x7fffe1 23, entry 0x7fffe2 23, entry 0x7fffe3 23,
   entry 0x7fffe4 23, entry 0x1fffdc 21, entry 0x3fffd8 22, entry 0x7fffe5 23,
   entry 0x3fffd9 22, entry 0x7fffe6 23, entry 0x7fffe7 23, entry 0xffffef 24]

/-- Rule R103, ids 160 to 175. -/
def tableRows160 : Table :=
  [entry 0x3fffda 22, entry 0x1fffdd 21, entry 0xfffe9 20, entry 0x3fffdb 22,
   entry 0x3fffdc 22, entry 0x7fffe8 23, entry 0x7fffe9 23, entry 0x1fffde 21,
   entry 0x7fffea 23, entry 0x3fffdd 22, entry 0x3fffde 22, entry 0xfffff0 24,
   entry 0x1fffdf 21, entry 0x3fffdf 22, entry 0x7fffeb 23, entry 0x7fffec 23]

/-- Rule R103, ids 176 to 191. -/
def tableRows176 : Table :=
  [entry 0x1fffe0 21, entry 0x1fffe1 21, entry 0x3fffe0 22, entry 0x1fffe2 21,
   entry 0x7fffed 23, entry 0x3fffe1 22, entry 0x7fffee 23, entry 0x7fffef 23,
   entry 0xfffea 20, entry 0x3fffe2 22, entry 0x3fffe3 22, entry 0x3fffe4 22,
   entry 0x7ffff0 23, entry 0x3fffe5 22, entry 0x3fffe6 22, entry 0x7ffff1 23]

/-- Rule R103, ids 192 to 207. -/
def tableRows192 : Table :=
  [entry 0x3ffffe0 26, entry 0x3ffffe1 26, entry 0xfffeb 20, entry 0x7fff1 19,
   entry 0x3fffe7 22, entry 0x7ffff2 23, entry 0x3fffe8 22, entry 0x1ffffec 25,
   entry 0x3ffffe2 26, entry 0x3ffffe3 26, entry 0x3ffffe4 26, entry 0x7ffffde 27,
   entry 0x7ffffdf 27, entry 0x3ffffe5 26, entry 0xfffff1 24, entry 0x1ffffed 25]

/-- Rule R103, ids 208 to 223. -/
def tableRows208 : Table :=
  [entry 0x7fff2 19, entry 0x1fffe3 21, entry 0x3ffffe6 26, entry 0x7ffffe0 27,
   entry 0x7ffffe1 27, entry 0x3ffffe7 26, entry 0x7ffffe2 27, entry 0xfffff2 24,
   entry 0x1fffe4 21, entry 0x1fffe5 21, entry 0x3ffffe8 26, entry 0x3ffffe9 26,
   entry 0xffffffd 28, entry 0x7ffffe3 27, entry 0x7ffffe4 27, entry 0x7ffffe5 27]

/-- Rule R103, ids 224 to 239. -/
def tableRows224 : Table :=
  [entry 0xfffec 20, entry 0xfffff3 24, entry 0xfffed 20, entry 0x1fffe6 21,
   entry 0x3fffe9 22, entry 0x1fffe7 21, entry 0x1fffe8 21, entry 0x7ffff3 23,
   entry 0x3fffea 22, entry 0x3fffeb 22, entry 0x1ffffee 25, entry 0x1ffffef 25,
   entry 0xfffff4 24, entry 0xfffff5 24, entry 0x3ffffea 26, entry 0x7ffff4 23]

/-- Rule R103, ids 240 to 255. -/
def tableRows240 : Table :=
  [entry 0x3ffffeb 26, entry 0x7ffffe6 27, entry 0x3ffffec 26, entry 0x3ffffed 26,
   entry 0x7ffffe7 27, entry 0x7ffffe8 27, entry 0x7ffffe9 27, entry 0x7ffffea 27,
   entry 0x7ffffeb 27, entry 0xffffffe 28, entry 0x7ffffec 27, entry 0x7ffffed 27,
   entry 0x7ffffee 27, entry 0x7ffffef 27, entry 0x7fffff0 27, entry 0x3ffffee 26]

/-- Rule R103, ids 256 to 256. -/
def tableRows256 : Table :=
  [entry 0x3fffffff 30]

/-- The symbol table of HUFFCORE (rule R103), entry `i` at index `i`. -/
def huffcoreTable : Table :=
  tableRows0 ++ tableRows16 ++ tableRows32 ++ tableRows48 ++ tableRows64 ++
  tableRows80 ++ tableRows96 ++ tableRows112 ++ tableRows128 ++ tableRows144 ++
  tableRows160 ++ tableRows176 ++ tableRows192 ++ tableRows208 ++ tableRows224 ++
  tableRows240 ++ tableRows256

/-- The parameter values of HUFFCORE (R6). HUFF_BASE is not fixed by the spec: DESIGN CHOICE 0, log
entry 1. -/
def huffcoreParams : Params :=
  { table := huffcoreTable, outqDepth := 8, maxPadBits := 29, huffBase := 0 }

end Sys2Proof.Machine
end

