-- ==== Sys2Proof/WellFormed.lean ====
section
/-! DEFINITION. The checks made before anything runs: the assembler's range checks (30_encoding.md R89) and
the configuration check (40_symbol_table.md R101, 00_scope.md R6; the single checks are in
Machine/Table.lean). A command of `Instr` has operands of exactly its field's width, so it needs none. -/

namespace Sys2Proof

/-- "An assembler refuses an immediate that does not fit its field (`b > 255`, `id > 511`,
`n > 0xFFFFFF`). It does not refuse `id` in 257..511" (R89). Every element of a string or a hex list is an
imm8 (R90). -/
def AsmLine.wf : AsmLine → Bool
  | .encNop => true
  | .encStart => true
  | .encStartSize => true
  | .encByte b => decide (b ≤ 255)
  | .encFinish => true
  | .encTblrd id => decide (id ≤ 511)
  | .decNop => true
  | .decStart => true
  | .decStartMax n => decide (n ≤ 0xFFFFFF)
  | .decByte b => decide (b ≤ 255)
  | .decFinish => true
  | .rd _ => true
  | .pop _ => true
  | .encStr s => s.all fun b => decide (b ≤ 255)
  | .encHex hs => hs.all fun b => decide (b ≤ 255)
  | .encEncode s => s.all fun b => decide (b ≤ 255)
  | .encSizeof s => s.all fun b => decide (b ≤ 255)
  | .decHex hs => hs.all fun b => decide (b ≤ 255)
  | .decDecode hs => hs.all fun b => decide (b ≤ 255)
  | .decDecodeMax n hs => decide (n ≤ 0xFFFFFF) && hs.all fun b => decide (b ≤ 255)

/-- The configuration check: a model refuses a configuration that fails it (60_exceptions.md R198). -/
abbrev configurationOk (P : Machine.Params) : Bool := Machine.paramsWf P

end Sys2Proof
end

