-- ==== Sys2Proof/Decode.lean ====
section
/-! DEFINITION. Decoding command words (30_encoding.md R84, R85, R87), encoding commands (R81, R84), and the
assembler (R89, R90). -/

namespace Sys2Proof

/-! ### The decoder: masks and matches of R84 -/

/-- A row of the opcode map R84: `w` is this row's command when `w AND mask = pattern`. -/
structure OpRow where
  port : Port
  mask : Word
  pattern : Word
  build : Word → Instr

/-- The opcode map (R84); the operand fields are those of R81 and R82. -/
def opRows : List OpRow :=
  [ ⟨.enc, 0xFFFFFFFF#32, 0x00000000#32, fun _ => .encNop⟩,
    ⟨.enc, 0xFEFFFFFF#32, 0x10000000#32, fun w => .encStart (w.getLsbD 24)⟩,
    ⟨.enc, 0xFFFFFF00#32, 0x20000000#32, fun w => .encByte (w.extractLsb' 0 8)⟩,
    ⟨.enc, 0xFFFFFFFF#32, 0x30000000#32, fun _ => .encFinish⟩,
    ⟨.enc, 0xFFFFFE00#32, 0x40000000#32, fun w => .encTblrd (w.extractLsb' 0 9)⟩,
    ⟨.dec, 0xFFFFFFFF#32, 0x00000000#32, fun _ => .decNop⟩,
    ⟨.dec, 0xFFFFFFFF#32, 0x80000000#32, fun _ => .decStart⟩,
    ⟨.dec, 0xFF000000#32, 0x81000000#32, fun w => .decStartMax (w.extractLsb' 0 24)⟩,
    ⟨.dec, 0xFFFFFF00#32, 0x90000000#32, fun w => .decByte (w.extractLsb' 0 8)⟩,
    ⟨.dec, 0xFFFFFFFF#32, 0xA0000000#32, fun _ => .decFinish⟩ ]

/-- The row accepts the word on the port. -/
def OpRow.accepts (r : OpRow) (p : Port) (w : Word) : Bool :=
  decide (r.port = p) && decide (w &&& r.mask = r.pattern)

/-- Why a word is illegal on its port: the cases R87 and R83 list. All of them raise ILLEGAL_COMMAND. -/
inductive Illegal where
  /-- The opcode is in neither port's set. -/
  | unassignedOpcode
  /-- The opcode is in the other port's set only (R83). -/
  | otherPortsOpcode
  /-- The opcode is this port's and a must-be-zero bit is set. -/
  | mustBeZero
  deriving DecidableEq, Repr

/-- What a word is on a port. -/
inductive Decoded where
  | instr (i : Instr)
  | illegal (why : Illegal)
  deriving DecidableEq, Repr

/-- The opcodes of each port (R84). -/
def portOpcodes : Port → List (BitVec 4)
  | .enc => [0x0, 0x1, 0x2, 0x3, 0x4]
  | .dec => [0x0, 0x8, 0x9, 0xA]

/-- The other port. -/
def Port.other : Port → Port
  | .enc => .dec
  | .dec => .enc

/-- The kind of illegality of a word that matches no row (R83, R87). -/
def illegalKind (p : Port) (w : Word) : Illegal :=
  if w.extractLsb' 28 4 ∈ portOpcodes p then .mustBeZero
  else if w.extractLsb' 28 4 ∈ portOpcodes p.other then .otherPortsOpcode
  else .unassignedOpcode

/-- `decode(port, w)` of R85: total on every word of either port. -/
def decode (p : Port) (w : Word) : Decoded :=
  match opRows.find? fun r => r.accepts p w with
  | some r => .instr (r.build w)
  | none => .illegal (illegalKind p w)

/-- The port a bare table word is read on: the ENC port where it is legal there, else the DEC port. The two
rows ENC.NOP and DEC.NOP have one word, 0, which is read as ENC.NOP (log entry 8). -/
def wordPort (w : Word) : Port :=
  match decode .enc w with
  | .instr _ => .enc
  | .illegal _ => .dec

/-- The command the decoder reads from a word of the opcode table, bit 0 its least significant bit. Every
command is one 32-bit word (R80), so `nbits` adds nothing. -/
def decodeTableWord (_nbits w : Nat) : Option Instr :=
  if w < 2 ^ 32 then
    match decode (wordPort (BitVec.ofNat 32 w)) (BitVec.ofNat 32 w) with
    | .instr i => some i
    | .illegal _ => none
  else none

/-! ### The encoder: the fields of R81 with the OP, FLG and ARG columns of R84 -/

/-- OP in [31:28], FLG in [27:24], ARG in [23:0] (R81). -/
def commandWord (op flg : BitVec 4) (arg : BitVec 24) : Word := op ++ flg ++ arg

/-- The word of a command, written to the port `i.port` (R81, R84). -/
def encode : Instr → Word
  | .encNop => commandWord 0x0 0 0
  | .encStart s => commandWord 0x1 (if s then 1 else 0) 0
  | .encByte b => commandWord 0x2 0 (b.setWidth 24)
  | .encFinish => commandWord 0x3 0 0
  | .encTblrd id => commandWord 0x4 0 (id.setWidth 24)
  | .decNop => commandWord 0x0 0 0
  | .decStart => commandWord 0x8 0 0
  | .decStartMax n => commandWord 0x8 1 n
  | .decByte b => commandWord 0x9 0 (b.setWidth 24)
  | .decFinish => commandWord 0xA 0 0

/-! ### The assembler (R89, R90) -/

/-- The host action that writes a command to its port. -/
def commandAction (i : Instr) : HostAction := .command i.port (encode i)

/-- `enc.byte b` for each byte, in order, with no terminator (R90). -/
def encBytesActions (bs : List Nat) : List HostAction :=
  bs.map fun b => commandAction (.encByte (BitVec.ofNat 8 b))

/-- `dec.byte h` for each byte, in order (R90). -/
def decBytesActions (bs : List Nat) : List HostAction :=
  bs.map fun b => commandAction (.decByte (BitVec.ofNat 8 b))

/-- What a line makes the host do, its immediates fitting their fields (R89, R90). -/
def expandLine : AsmLine → List HostAction
  | .encNop => [commandAction .encNop]
  | .encStart => [commandAction (.encStart false)]
  | .encStartSize => [commandAction (.encStart true)]
  | .encByte b => encBytesActions [b]
  | .encFinish => [commandAction .encFinish]
  | .encTblrd id => [commandAction (.encTblrd (BitVec.ofNat 9 id))]
  | .decNop => [commandAction .decNop]
  | .decStart => [commandAction .decStart]
  | .decStartMax n => [commandAction (.decStartMax (BitVec.ofNat 24 n))]
  | .decByte b => decBytesActions [b]
  | .decFinish => [commandAction .decFinish]
  | .rd r => [.readReg r]
  | .pop .enc => [.readReg .encOut]
  | .pop .dec => [.readReg .decOut]
  | .encStr s => encBytesActions s
  | .encHex hs => encBytesActions hs
  | .encEncode s =>
    commandAction (.encStart false) :: (encBytesActions s ++ [commandAction .encFinish])
  | .encSizeof s =>
    commandAction (.encStart true) :: (encBytesActions s ++ [commandAction .encFinish])
  | .decHex hs => decBytesActions hs
  | .decDecode hs => commandAction .decStart :: (decBytesActions hs ++ [commandAction .decFinish])
  | .decDecodeMax n hs =>
    commandAction (.decStartMax (BitVec.ofNat 24 n)) ::
      (decBytesActions hs ++ [commandAction .decFinish])

/-- The assembler: it refuses a line with an immediate that does not fit its field (R89). -/
def assemble (l : AsmLine) : Option (List HostAction) :=
  if l.wf then some (expandLine l) else none

end Sys2Proof
end

