-- ==== Sys2Proof/Machine/State.lean ====
section
/-! DEFINITION. The state of HUFFCORE as plain data (10_state.md), the reasons a step can stop, and reset. -/

namespace Sys2Proof.Machine

/-- ENC.STATE (10_state.md R25). -/
inductive EncMode where
  | idle
  | active
  | done
  | fault
  deriving DecidableEq, Repr

/-- DEC.STATE (R32). -/
inductive DecMode where
  | idle
  | scanning
  | done
  | failed
  deriving DecidableEq, Repr

/-- The error codes (60_exceptions.md R191); "No other value is ever written". -/
inductive ErrorCode where
  | none
  | invalidCode
  | invalidPadding
  | outputTooLarge
  | illegalCommand
  | badSequence
  | badSymbolId
  | countOverflow
  deriving DecidableEq, Repr

/-- The encoder registers and its output queue (10_state.md R25–R31, R40). ENC.NBITS is `pend.length` (R27). -/
structure Encoder where
  /-- ENC.STATE -/
  state : EncMode
  /-- ENC.SIZE_ONLY -/
  sizeOnly : Bool
  /-- ENC.PEND, oldest bit first -/
  pend : BitString
  /-- ENC.IN_COUNT -/
  inCount : BitVec 32
  /-- ENC.TOTAL_BITS -/
  totalBits : BitVec 32
  /-- ENC.ERR -/
  err : ErrorCode
  /-- ENC.TBL_CODE; bits 31:30 are always 0 -/
  tblCode : BitVec 32
  /-- ENC.TBL_LEN -/
  tblLen : BitVec 5
  /-- ENC.OUTQ, head first -/
  outq : List Byte
  deriving DecidableEq, Repr

/-- The decoder registers and its output queue (R32–R38, R40). DEC.PLEN is `pend.length` (R34). -/
structure Decoder where
  /-- DEC.STATE -/
  state : DecMode
  /-- DEC.LIMIT_EN -/
  limitEn : Bool
  /-- DEC.MAXLEN -/
  maxlen : BitVec 24
  /-- DEC.PEND, oldest bit first -/
  pend : BitString
  /-- DEC.IN_COUNT -/
  inCount : BitVec 32
  /-- DEC.OUT_COUNT -/
  outCount : BitVec 32
  /-- DEC.ERR -/
  err : ErrorCode
  /-- DEC.ERR_BYTE -/
  errByte : BitVec 32
  /-- DEC.ERR_BIT -/
  errBit : BitVec 3
  /-- DEC.OUTQ, head first -/
  outq : List Byte
  deriving DecidableEq, Repr

/-- A write to a command port that has arrived and not completed (20_memory.md R72), and the host thread it
blocks. -/
structure PortWrite where
  thread : Nat
  word : Word
  deriving DecidableEq, Repr

/-- A register access at a platform address, `width` in bits. The value of a write matters only where the
write is 32 bits wide (20_memory.md R67). -/
inductive Access where
  | write (addr width : Nat) (value : Word)
  | read (addr width : Nat)
  deriving DecidableEq, Repr

/-- What the host does next (70_reset_and_hazards.md R239): an access of one of its threads, or reset. The
spec does not say what reset does to a command write blocked at its port: `dropWrites` is that choice, as
data (log entry 5). -/
inductive Arrival where
  | access (thread : Nat) (a : Access)
  | reset (dropWrites : Bool)
  deriving DecidableEq, Repr

/-- The three agents (00_scope.md R14). -/
inductive Agent where
  | host
  | enc
  | dec
  deriving DecidableEq, Repr

/-- What a completed access gives the host thread that made it. -/
inductive Reply where
  | readData (thread : Nat) (data : Word)
  | writeDone (thread : Nat)
  deriving DecidableEq, Repr

/-- Why the machine stops with no further step. -/
inductive Fault where
  /-- Raised by `step`: a command is held by a full output queue and no agent can ever move again
  (70_reset_and_hazards.md R231: "stuck forever"; 93_implementation_defined.md item 11). Safe: the model
  gives no result where the hardware gives none. -/
  | outputQueueDeadlock
  deriving DecidableEq, Repr

/-- Why the model gives no step. -/
inductive Refusal where
  /-- Raised only by an arm of `exec` for a command without a meaning. Safe. -/
  | notModelled (mnemonic : String)
  /-- Raised by `step`, and by a meaning that reads a table entry that is not there: the table fails
  40_symbol_table.md R101, so "the block does not exist as a model" (60_exceptions.md R198). Safe. -/
  | malformedTable
  /-- Raised by `step`: a parameter is outside its range of 00_scope.md R6. Safe. -/
  | parameterOutOfRange
  /-- Raised by `step`: the host accesses an address that is not in the register space; "What the host does
  outside these rows is unsaid" (70_reset_and_hazards.md R239). Safe. -/
  | outsideRegisterSpace
  deriving DecidableEq, Repr

/-- The machine. -/
structure State where
  /-- The ROM and the parameters; constant. -/
  cfg : Params
  /-- The encoder engine. -/
  enc : Encoder
  /-- The decoder engine. -/
  dec : Decoder
  /-- Writes to ENC_CMD that have arrived and not completed, oldest first. -/
  encPort : List PortWrite
  /-- Writes to DEC_CMD that have arrived and not completed, oldest first. -/
  decPort : List PortWrite
  /-- What the host will still do, in the order its accesses arrive (the model's field, log entry 2). -/
  arrivals : List Arrival
  /-- Who moves next; when empty, the prompt order (the model's field, log entry 3). -/
  turns : List Agent
  /-- The last completed access (the model's field, log entry 4). -/
  lastReply : Option Reply
  deriving DecidableEq, Repr

/-- The encoder after reset (10_state.md R50). -/
def Encoder.reset : Encoder :=
  { state := .idle, sizeOnly := false, pend := [], inCount := 0, totalBits := 0, err := .none,
    tblCode := 0, tblLen := 0, outq := [] }

/-- The decoder after reset (R50). -/
def Decoder.reset : Decoder :=
  { state := .idle, limitEn := false, maxlen := 0, pend := [], inCount := 0, outCount := 0,
    err := .none, errByte := 0, errBit := 0, outq := [] }

/-- HUFFCORE right after reset (R49, R50, 70_reset_and_hazards.md R220, R221). The host-side fields are
empty (log entries 2, 3, 4). -/
def State.reset : State :=
  { cfg := huffcoreParams, enc := Encoder.reset, dec := Decoder.reset, encPort := [], decPort := [],
    arrivals := [], turns := [], lastReply := none }

end Sys2Proof.Machine
end

