-- ==== Sys2Proof/Machine/Ops.lean ====
section
/-! DEFINITION. The shared operations over the engines: entering the error state (60_exceptions.md R192, R193),
the output queues (10_state.md R40), the output-queue hold (70_reset_and_hazards.md R230), and reset (R220).
There is no return from the error state but START and reset (R202). -/

namespace Sys2Proof.Machine

/-- ENC.NBITS: the number of pending bits (10_state.md R27). -/
def Encoder.nbits (e : Encoder) : Nat := e.pend.length

/-- ENC_SIZE: `(ENC.TOTAL_BITS + 7) div 8`, computed without wrapping (10_state.md R29). -/
def Encoder.size (e : Encoder) : Nat := (e.totalBits.toNat + 7) / 8

/-- DEC.PLEN: the number of pending bits (10_state.md R34). -/
def Decoder.plen (d : Decoder) : Nat := d.pend.length

/-- The bit offset in the session's input of the first pending bit: `8 * DEC.IN_COUNT - DEC.PLEN` in 35-bit
arithmetic (42_decoder.md R157, R158). -/
def Decoder.position (d : Decoder) : BitVec 35 :=
  8#35 * d.inCount.setWidth 35 - BitVec.ofNat 35 d.plen

/-! ### Taking an error (R192, R193, R201) -/

/-- `raise EncFault(code)` (R192): the first error is kept. -/
def State.raiseEnc (s : State) (code : ErrorCode) : State :=
  if s.enc.state = .fault then s
  else { s with enc := { s.enc with state := .fault, err := code } }

/-- `raise DecFault(code, pos)` (R193): the first error is kept; a position, where one is given, is recorded
as byte and bit. -/
def State.raiseDec (s : State) (code : ErrorCode) (pos : Option (BitVec 35)) : State :=
  if s.dec.state = .failed then s
  else
    match pos with
    | some p =>
      { s with dec := { s.dec with
          state := .failed, err := code, errByte := p.extractLsb' 3 32, errBit := p.extractLsb' 0 3 } }
    | none => { s with dec := { s.dec with state := .failed, err := code } }

/-- The error a port's engine raises for an illegal word (30_encoding.md R85, 60_exceptions.md R194). -/
def State.raiseIllegal (s : State) : Port → State
  | .enc => s.raiseEnc .illegalCommand
  | .dec => s.raiseDec .illegalCommand none

/-! ### Output queues (10_state.md R40) -/

/-- The output queue of a port's engine, head first. -/
def State.outq (s : State) : Port → List Byte
  | .enc => s.enc.outq
  | .dec => s.dec.outq

/-- Replaces the output queue of a port's engine. -/
def State.setOutq (s : State) (p : Port) (q : List Byte) : State :=
  match p with
  | .enc => { s with enc := { s.enc with outq := q } }
  | .dec => { s with dec := { s.dec with outq := q } }

/-- `emit` of each byte in order: they are appended at the tail. -/
def State.emit (s : State) (p : Port) (bs : List Byte) : State := s.setOutq p (s.outq p ++ bs)

/-- `free(Q) = OUTQ_DEPTH - level(Q)`. -/
def State.free (s : State) (p : Port) : Nat := s.cfg.outqDepth - (s.outq p).length

/-- Removes the head of the queue, if there is one (10_state.md R46). -/
def State.popOutq (s : State) (p : Port) : State := s.setOutq p (s.outq p).tail

/-! ### The hold (R230) -/

/-- What a command amounts to once its checks are made: the bytes it appends to its engine's queue and the
state it commits before they are appended; or no meaning at all under a malformed table. -/
inductive Effect where
  | commit (appends : List Byte) (result : State)
  | refuse (r : Refusal)
  deriving DecidableEq, Repr

/-- The command is held: its queue has less free space than the bytes it would append. -/
def Effect.held (e : Effect) (p : Port) (s : State) : Bool :=
  match e with
  | .commit bs _ => decide (s.free p < bs.length)
  | .refuse _ => false

/-- Carries out an effect in one step (10_state.md R21). "While held ... nothing of the command has
happened": the state is answered unchanged, and the write stays blocked at its port (Machine/Ports.lean). -/
def settle (p : Port) (e : Effect) (s : State) : Host.Outcome State Fault Refusal :=
  match e with
  | .refuse r => .refused r
  | .commit bs t => if s.free p < bs.length then .next s else .next (t.emit p bs)

/-! ### Reset (70_reset_and_hazards.md R220) -/

/-- Reset: every piece of mutable state to its value of 10_state.md R50; the table and the parameters stay
(R49). `dropWrites` says what becomes of command writes blocked at the ports (log entry 5). -/
def State.hardReset (s : State) (dropWrites : Bool) : State :=
  { s with
    enc := Encoder.reset
    dec := Decoder.reset
    encPort := if dropWrites then [] else s.encPort
    decPort := if dropWrites then [] else s.decPort }

end Sys2Proof.Machine
end

