-- ==== Sys2Proof/Machine/Operands.lean ====
section
/-! DEFINITION. Operand values (30_encoding.md R82): "every operand is the unsigned value of its field,
zero-extended to the width of the register it goes to". -/

namespace Sys2Proof.Machine

/-- imm8 as the symbol id it names, 0..255. -/
def imm8Id (b : Byte) : Nat := b.toNat

/-- imm9 as a symbol id, 0..511. -/
def imm9Id (id : BitVec 9) : Nat := id.toNat

/-- imm8 as the eight stream bits of a compressed byte. -/
def imm8Bits (b : Byte) : BitString := byteBits b

/-- imm24 as the value of DEC.MAXLEN. -/
def imm24Limit (n : BitVec 24) : BitVec 24 := n

end Sys2Proof.Machine
end

