-- ==== Sys2Proof/Machine/Flags.lean ====
section
/-! DEFINITION. HUFFCORE has no condition codes (10_state.md R24): its status indicators are the state fields,
the error fields and the VALID bit of the pop registers. Their bits, and the status words that hold them. -/

namespace Sys2Proof.Machine

/-- The 2-bit encoding of ENC.STATE (R25). -/
def EncMode.bits : EncMode → BitVec 2
  | .idle => 0
  | .active => 1
  | .done => 2
  | .fault => 3

/-- The 2-bit encoding of DEC.STATE (R32). -/
def DecMode.bits : DecMode → BitVec 2
  | .idle => 0
  | .scanning => 1
  | .done => 2
  | .failed => 3

/-- The 8-bit error codes (60_exceptions.md R191). -/
def ErrorCode.byte : ErrorCode → BitVec 8
  | .none => 0x00
  | .invalidCode => 0x01
  | .invalidPadding => 0x02
  | .outputTooLarge => 0x03
  | .illegalCommand => 0x10
  | .badSequence => 0x11
  | .badSymbolId => 0x12
  | .countOverflow => 0x13

/-- ENC_STATUS (10_state.md R43): [1:0] STATE, [2] SIZE_ONLY, [3] 0, [6:4] NBITS, [7] 0, [15:8] ERR,
[31:16] 0. -/
def Encoder.statusWord (e : Encoder) : Word :=
  0#16 ++ e.err.byte ++ 0#1 ++ BitVec.ofNat 3 e.nbits ++ 0#1 ++ BitVec.ofBool e.sizeOnly ++ e.state.bits

/-- DEC_STATUS (R47): [1:0] STATE, [2] LIMIT_EN, [7:3] 0, [12:8] PLEN, [15:13] 0, [23:16] ERR, [31:24] 0. -/
def Decoder.statusWord (d : Decoder) : Word :=
  0#8 ++ d.err.byte ++ 0#3 ++ BitVec.ofNat 5 d.plen ++ 0#5 ++ BitVec.ofBool d.limitEn ++ d.state.bits

/-- ENC_OUT / DEC_OUT (R46): VALID in bit 8 and the head byte, or 0 where the queue is empty. -/
def popWord : List Byte → Word
  | [] => 0
  | b :: _ => 0#23 ++ 1#1 ++ b

end Sys2Proof.Machine
end

