-- ==== Sys2Proof/Machine/Match.lean ====
section
/-! DEFINITION. Codeword matching (42_decoder.md R155) and the scan of one compressed byte (R157). -/

namespace Sys2Proof.Machine

/-- The answer of `Match(s)` (R155). `sym` carries the entry, for its length. -/
inductive MatchResult where
  | sym (i : Nat) (e : SymbolEntry)
  | need
  | noMatch
  deriving DecidableEq, Repr

/-- The first entry, counted from `i`, whose codeword is a prefix of `s`. -/
def findCodeword (i : Nat) : Table → BitString → Option (Nat × SymbolEntry)
  | [], _ => none
  | e :: T, s => if e.codeword.isPrefixOf s then some (i, e) else findCodeword (i + 1) T s

/-- Some codeword has `s` as a strict prefix. -/
def extendsToCodeword (T : Table) (s : BitString) : Bool :=
  T.any fun e => s.isPrefixOf e.codeword && decide (s.length < e.len.toNat)

/-- `Match(s)` (R155): the bit-serial reference, which any acceleration must equal (R160). -/
def matchBits (T : Table) (s : BitString) : MatchResult :=
  match findCodeword 0 T s with
  | some (i, e) => .sym i e
  | none => if extendsToCodeword T s then .need else .noMatch

/-- What one DEC.BYTE finds: the bytes it emits, the error if any (with its position where one is recorded),
and the bits left over. -/
structure ScanResult where
  emitted : List Byte
  error : Option (ErrorCode × Option (BitVec 35))
  rest : BitString
  deriving DecidableEq, Repr

/-- The output limit of the session is reached (R157): `LIMIT_EN = 1` and `n ≥ MAXLEN`. -/
def limitReached (d : Decoder) (n : Nat) : Bool := d.limitEn && decide (d.maxlen.toNat ≤ n)

/-- The loop of R157: `pos` is the stream offset of the first bit of `s`, `E` what has been emitted so far.
The checks for one codeword are made in R157's order: EOS, the limit, the counter. Each turn of the loop drops
a whole codeword of at least 5 bits, so `fuel` greater than the length of `s` is never used up. -/
def scanLoop (T : Table) (d : Decoder) : Nat → BitString → BitVec 35 → List Byte → ScanResult
  | 0, s, _, E => ⟨E, none, s⟩
  | fuel + 1, s, pos, E =>
    match matchBits T s with
    | .sym i e =>
      if i = eos then ⟨E, some (.invalidCode, some pos), s⟩
      else if limitReached d (d.outCount.toNat + E.length) then ⟨E, some (.outputTooLarge, some pos), s⟩
      else if d.outCount.toNat + E.length = maxCount then ⟨E, some (.countOverflow, none), s⟩
      else
        scanLoop T d fuel (s.drop e.len.toNat) (pos + e.len.setWidth 35) (E ++ [BitVec.ofNat 8 i])
    | .need => ⟨E, none, s⟩
    | .noMatch => ⟨E, some (.invalidCode, some pos), s⟩

/-- The scan of one DEC.BYTE: the pending bits followed by the byte's bits. -/
def scanByte (T : Table) (d : Decoder) (b : Byte) : ScanResult :=
  scanLoop T d (d.pend.length + 9) (d.pend ++ imm8Bits b) d.position []

end Sys2Proof.Machine
end

