-- ==== Sys2Proof/Machine/DecoderOps.lean ====
section
/-! DEFINITION. The decoder commands (42_decoder.md R156–R158, 30_encoding.md R86). -/

namespace Sys2Proof.Machine

/-- DEC.NOP (R86): no operation, in every state. -/
def execDecNop (s : State) : Host.Outcome State Fault Refusal := .next s

/-- A decoding session begins (R156), with the given LIMIT_EN and MAXLEN. It keeps OUTQ. -/
def State.decBegin (s : State) (limitEn : Bool) (maxlen : BitVec 24) : State :=
  { s with dec := { s.dec with
      state := .scanning, limitEn := limitEn, maxlen := maxlen, pend := [], inCount := 0, outCount := 0,
      err := .none, errByte := 0, errBit := 0 } }

/-- DEC.START (R156 with L = 0): no limit, MAXLEN 0. -/
def execDecStart (s : State) : Host.Outcome State Fault Refusal := .next (s.decBegin false 0)

/-- DEC.START.MAX (R156 with L = 1). -/
def execDecStartMax (maxlen : BitVec 24) (s : State) : Host.Outcome State Fault Refusal :=
  .next (s.decBegin true (imm24Limit maxlen))

/-- The counters after a DEC.BYTE that emits `n` bytes (R157): also the byte of an error is counted. -/
def State.decCount (s : State) (n : Nat) : State :=
  { s with dec := { s.dec with
      outCount := BitVec.ofNat 32 (s.dec.outCount.toNat + n)
      inCount := BitVec.ofNat 32 (s.dec.inCount.toNat + 1) } }

/-- What a scan commits besides its bytes (R157): the counters, then the error with PEND kept, or the new
pending bits. -/
def scanCommit (r : ScanResult) (s : State) : State :=
  match r.error with
  | some (code, pos) => (s.decCount r.emitted.length).raiseDec code pos
  | none =>
    { s.decCount r.emitted.length with
      dec := { (s.decCount r.emitted.length).dec with pend := r.rest } }

/-- DEC.BYTE (R157) up to the hold; checks in the order of 60_exceptions.md R199. -/
def decByteEffect (b : Byte) (s : State) : Effect :=
  match s.dec.state with
  | .failed => .commit [] s
  | .idle => .commit [] (s.raiseDec .badSequence none)
  | .done => .commit [] (s.raiseDec .badSequence none)
  | .scanning =>
    if s.dec.inCount.toNat = maxCount then .commit [] (s.raiseDec .countOverflow none)
    else
      .commit (scanByte s.cfg.table s.dec b).emitted (scanCommit (scanByte s.cfg.table s.dec b) s)

/-- DEC.BYTE (R157). -/
def execDecByte (b : Byte) (s : State) : Host.Outcome State Fault Refusal :=
  settle .dec (decByteEffect b s) s

/-- The PaddingCheck (R158) of nonempty pending bits against the EOS entry `e`. -/
def paddingOk (maxPad : Nat) (pend : BitString) (e : SymbolEntry) : Bool :=
  decide (pend.length ≤ maxPad) && decide (pend.length ≤ e.len.toNat) &&
    decide (pend = e.codeword.take pend.length)

/-- The session is over: no pending bits, STATE = DONE (R158). -/
def State.decDone (s : State) : State := { s with dec := { s.dec with pend := [], state := .done } }

/-- DEC.FINISH (R158): it emits nothing and is never held. -/
def execDecFinish (s : State) : Host.Outcome State Fault Refusal :=
  match s.dec.state with
  | .failed => .next s
  | .idle => .next (s.raiseDec .badSequence none)
  | .done => .next (s.raiseDec .badSequence none)
  | .scanning =>
    if s.dec.plen = 0 then .next s.decDone
    else
      match tableRead s.cfg.table eos with
      | none => .refused .malformedTable
      | some e =>
        if paddingOk s.cfg.maxPadBits s.dec.pend e then .next s.decDone
        else .next (s.raiseDec .invalidPadding (some s.dec.position))

end Sys2Proof.Machine
end

