-- ==== Sys2Proof/Machine/EncoderOps.lean ====
section
/-! DEFINITION. The encoder commands (41_encoder.md R124–R128, 30_encoding.md R86). -/

namespace Sys2Proof.Machine

/-- ENC.NOP (R86): no operation, in every state. -/
def execEncNop (s : State) : Host.Outcome State Fault Refusal := .next s

/-- ENC.START (R124). It keeps TBL_CODE, TBL_LEN and OUTQ. -/
def execEncStart (sizeOnly : Bool) (s : State) : Host.Outcome State Fault Refusal :=
  .next { s with enc := { s.enc with
    state := .active, sizeOnly := sizeOnly, pend := [], inCount := 0, totalBits := 0, err := .none } }

/-- The bytes an append of `e` completes and the bits it leaves pending (R125). -/
def packEntry (enc : Encoder) (e : SymbolEntry) : List Byte × BitString :=
  packBytes ((enc.pend ++ e.codeword).length / 8) (enc.pend ++ e.codeword)

/-- ENC.BYTE (R125) up to the hold; checks in the order of 60_exceptions.md R199. -/
def encByteEffect (b : Byte) (s : State) : Effect :=
  match s.enc.state with
  | .fault => .commit [] s
  | .idle => .commit [] (s.raiseEnc .badSequence)
  | .done => .commit [] (s.raiseEnc .badSequence)
  | .active =>
    match tableRead s.cfg.table (imm8Id b) with
    | none => .refuse .malformedTable
    | some e =>
      if maxCount < s.enc.totalBits.toNat + e.len.toNat then .commit [] (s.raiseEnc .countOverflow)
      else
        .commit (if s.enc.sizeOnly then [] else (packEntry s.enc e).1)
          { s with enc := { s.enc with
              pend := (packEntry s.enc e).2
              totalBits := BitVec.ofNat 32 (s.enc.totalBits.toNat + e.len.toNat)
              inCount := BitVec.ofNat 32 (s.enc.inCount.toNat + 1) } }

/-- ENC.BYTE (R125). -/
def execEncByte (b : Byte) (s : State) : Host.Outcome State Fault Refusal :=
  settle .enc (encByteEffect b s) s

/-- The session is over: no pending bits, STATE = DONE (R126). -/
def State.encDone (s : State) : State := { s with enc := { s.enc with pend := [], state := .done } }

/-- The last byte: the pending bits followed by the high-order bits of the EOS code `e` (R126). -/
def paddedByte (pend : BitString) (e : SymbolEntry) : Byte :=
  byteOf (pend ++ e.codeword.take (8 - pend.length))

/-- ENC.FINISH (R126) up to the hold. -/
def encFinishEffect (s : State) : Effect :=
  match s.enc.state with
  | .fault => .commit [] s
  | .idle => .commit [] (s.raiseEnc .badSequence)
  | .done => .commit [] (s.raiseEnc .badSequence)
  | .active =>
    if s.enc.nbits = 0 then .commit [] s.encDone
    else
      match tableRead s.cfg.table eos with
      | none => .refuse .malformedTable
      | some e => .commit (if s.enc.sizeOnly then [] else [paddedByte s.enc.pend e]) s.encDone

/-- ENC.FINISH (R126). -/
def execEncFinish (s : State) : Host.Outcome State Fault Refusal := settle .enc (encFinishEffect s) s

/-- ENC.TBLRD (R128): in every state; an id above 256 raises BAD_SYMBOL_ID (60_exceptions.md R197). -/
def execEncTblrd (id : BitVec 9) (s : State) : Host.Outcome State Fault Refusal :=
  if eos < imm9Id id then .next (s.raiseEnc .badSymbolId)
  else
    match tableRead s.cfg.table (imm9Id id) with
    | none => .refused .malformedTable
    | some e => .next { s with enc := { s.enc with tblCode := e.code.setWidth 32, tblLen := e.len } }

end Sys2Proof.Machine
end

