-- ==== Sys2Proof/Machine/Dispatch.lean ====
section
/-! DEFINITION. One arm per command: which meaning it has. -/

namespace Sys2Proof.Machine

def exec (i : Instr) (s : State) : Host.Outcome State Fault Refusal :=
  match i with
  | .encNop => Sys2Proof.Machine.execEncNop s
  | .encStart f => Sys2Proof.Machine.execEncStart f s
  | .encByte b => Sys2Proof.Machine.execEncByte b s
  | .encFinish => Sys2Proof.Machine.execEncFinish s
  | .encTblrd id => Sys2Proof.Machine.execEncTblrd id s
  | .decNop => Sys2Proof.Machine.execDecNop s
  | .decStart => Sys2Proof.Machine.execDecStart s
  | .decStartMax n => Sys2Proof.Machine.execDecStartMax n s
  | .decByte b => Sys2Proof.Machine.execDecByte b s
  | .decFinish => Sys2Proof.Machine.execDecFinish s

end Sys2Proof.Machine
end

