-- ==== Sys2Proof/Machine/Registers.lean ====
section
/-! DEFINITION. The register map (10_state.md R42–R48), what a read gives and does (R46, 20_memory.md R65, R67,
R69), and the byte lanes of a register (R66). -/

namespace Sys2Proof.Machine

/-- CORE_ID: "HUF1" (10_state.md R48). -/
def coreId : Word := 0x48554631

/-- CORE_PARAMS (R48): [7:0] OUTQ_DEPTH, [12:8] MAX_PAD_BITS, [15:13] 0, [23:16] LEN_MIN, [31:24] LEN_MAX. -/
def Params.coreParams (P : Params) : Word :=
  BitVec.ofNat 8 lenMax ++ BitVec.ofNat 8 lenMin ++ 0#3 ++ BitVec.ofNat 5 P.maxPadBits ++
    BitVec.ofNat 8 P.outqDepth

/-- The offset of a register (R42). -/
def regOffset : Reg → Nat
  | .encCmd => 0x00
  | .encStatus => 0x04
  | .encAcc => 0x08
  | .encInCount => 0x0C
  | .encTotalBits => 0x10
  | .encSize => 0x14
  | .encTblCode => 0x18
  | .encTblLen => 0x1C
  | .encOut => 0x20
  | .encOutqLevel => 0x24
  | .decCmd => 0x40
  | .decStatus => 0x44
  | .decPend => 0x48
  | .decInCount => 0x4C
  | .decOutCount => 0x50
  | .decMaxlen => 0x54
  | .decErrByte => 0x58
  | .decErrBit => 0x5C
  | .decOut => 0x60
  | .decOutqLevel => 0x64
  | .coreParams => 0x78
  | .coreId => 0x7C

/-- Every register, in the order of R42. -/
def allRegs : List Reg :=
  [.encCmd, .encStatus, .encAcc, .encInCount, .encTotalBits, .encSize, .encTblCode, .encTblLen, .encOut,
    .encOutqLevel, .decCmd, .decStatus, .decPend, .decInCount, .decOutCount, .decMaxlen, .decErrByte,
    .decErrBit, .decOut, .decOutqLevel, .coreParams, .coreId]

/-- The register at an offset; none at an unmapped one (R42, 20_memory.md R65). -/
def regAt (off : Nat) : Option Reg := allRegs.find? fun r => regOffset r == off

/-- The value of a register, with no side effect (R42–R48). A write-only register reads 0. -/
def State.regValue (s : State) : Reg → Word
  | .encCmd => 0
  | .encStatus => s.enc.statusWord
  | .encAcc => 0#25 ++ BitVec.ofNat 7 (valOf s.enc.pend)
  | .encInCount => s.enc.inCount
  | .encTotalBits => s.enc.totalBits
  | .encSize => BitVec.ofNat 32 s.enc.size
  | .encTblCode => s.enc.tblCode
  | .encTblLen => 0#27 ++ s.enc.tblLen
  | .encOut => popWord s.enc.outq
  | .encOutqLevel => 0#24 ++ BitVec.ofNat 8 s.enc.outq.length
  | .decCmd => 0
  | .decStatus => s.dec.statusWord
  | .decPend => 0#3 ++ BitVec.ofNat 29 (valOf s.dec.pend)
  | .decInCount => s.dec.inCount
  | .decOutCount => s.dec.outCount
  | .decMaxlen => 0#8 ++ s.dec.maxlen
  | .decErrByte => s.dec.errByte
  | .decErrBit => 0#29 ++ s.dec.errBit
  | .decOut => popWord s.dec.outq
  | .decOutqLevel => 0#24 ++ BitVec.ofNat 8 s.dec.outq.length
  | .coreParams => s.cfg.coreParams
  | .coreId => coreId

/-- What reading a register does (R46, R69): ENC_OUT and DEC_OUT pop, every other read does nothing. -/
def State.afterRead (s : State) : Reg → State
  | .encCmd => s
  | .encStatus => s
  | .encAcc => s
  | .encInCount => s
  | .encTotalBits => s
  | .encSize => s
  | .encTblCode => s
  | .encTblLen => s
  | .encOut => s.popOutq .enc
  | .encOutqLevel => s
  | .decCmd => s
  | .decStatus => s
  | .decPend => s
  | .decInCount => s
  | .decOutCount => s
  | .decMaxlen => s
  | .decErrByte => s
  | .decErrBit => s
  | .decOut => s.popOutq .dec
  | .decOutqLevel => s
  | .coreParams => s
  | .coreId => s

/-- The access is a whole word: 32 bits wide at an offset that is a multiple of 4 (20_memory.md R67). -/
def wholeWord (off width : Nat) : Bool := width == 32 && off % 4 == 0

/-- The register a read reaches: none for a sub-word, misaligned or unmapped one (R65, R67). -/
def readTarget (off width : Nat) : Option Reg := if wholeWord off width then regAt off else none

/-- The word a read at an offset returns (R65, R67). -/
def State.readWord (s : State) (off width : Nat) : Word :=
  match readTarget off width with
  | some r => s.regValue r
  | none => 0

/-- The state after a read at an offset (R65, R67, R69). -/
def State.readEffect (s : State) (off width : Nat) : State :=
  match readTarget off width with
  | some r => s.afterRead r
  | none => s

/-- The command port a write reaches: none for any other register, an unmapped offset, or a sub-word or
misaligned write, all of which are ignored (R42, R65, R67, R69). -/
def writeTarget (off width : Nat) : Option Port :=
  match readTarget off width with
  | some .encCmd => some .enc
  | some .decCmd => some .dec
  | _ => none

/-- The offset of a platform address in the register space (R62): 128 bytes at HUFF_BASE. -/
def Params.spaceOffset (P : Params) (addr : Nat) : Option Nat :=
  if P.huffBase ≤ addr ∧ addr < P.huffBase + 128 then some (addr - P.huffBase) else none

/-- Byte `k` of a word: bits `[8k+7 : 8k]` (R66). -/
def laneByte (w : Word) (k : Nat) : Byte := w.extractLsb' (8 * k) 8

/-- The byte at a platform address, as a byte-addressed platform lays a register's value out (R66). It is a
view of the value only: HUFFCORE itself serves whole words. -/
def State.laneAt (s : State) (addr : Nat) : Option Byte :=
  (s.cfg.spaceOffset addr).map fun off =>
    match regAt (off / 4 * 4) with
    | some r => laneByte (s.regValue r) (off % 4)
    | none => 0

end Sys2Proof.Machine
end

