-- ==== Sys2Proof/Machine/Ports.lean ====
section
/-! DEFINITION. The command ports, the register interface and the order in which the agents move
(20_memory.md R72, R73; 70_reset_and_hazards.md R222, R230, R231, R237, R239). -/

namespace Sys2Proof.Machine

/-! ### Command ports -/

/-- The writes waiting at a port, oldest first. -/
def State.waiting (s : State) : Port → List PortWrite
  | .enc => s.encPort
  | .dec => s.decPort

/-- Replaces the writes waiting at a port. -/
def State.setWaiting (s : State) (p : Port) (ws : List PortWrite) : State :=
  match p with
  | .enc => { s with encPort := ws }
  | .dec => { s with decPort := ws }

/-- The command is held in `s` (R230): only the commands that can append to a queue ever are. -/
def isHeld (i : Instr) (s : State) : Bool :=
  match i with
  | .encNop => false
  | .encStart _ => false
  | .encByte b => (encByteEffect b s).held .enc s
  | .encFinish => (encFinishEffect s).held .enc s
  | .encTblrd _ => false
  | .decNop => false
  | .decStart => false
  | .decStartMax _ => false
  | .decByte b => (decByteEffect b s).held .dec s
  | .decFinish => false

/-- The word at the port is one the engine can execute now: it is illegal, or its command is not held. -/
def wordReady (p : Port) (w : Word) (s : State) : Bool :=
  match decode p w with
  | .instr i => !isHeld i s
  | .illegal _ => true

/-- The port's engine has a command it can execute now. -/
def portReady (p : Port) (s : State) : Bool :=
  match s.waiting p with
  | [] => false
  | pw :: _ => wordReady p pw.word s

/-- What a word does when the engine executes it (30_encoding.md R85): its command, or ILLEGAL_COMMAND. -/
def runWord (p : Port) (w : Word) (s : State) : Host.Outcome State Fault Refusal :=
  match decode p w with
  | .instr i => exec i s
  | .illegal _ => .next (s.raiseIllegal p)

/-- The oldest write at the port completes (R72): it leaves the port, and its thread may go on. -/
def State.completeWrite (s : State) (p : Port) (pw : PortWrite) (rest : List PortWrite) : State :=
  { s.setWaiting p rest with lastReply := some (.writeDone pw.thread) }

/-- The outcome of a command whose write completes with it. -/
def completing (p : Port) (pw : PortWrite) (rest : List PortWrite) :
    Host.Outcome State Fault Refusal → Host.Outcome State Fault Refusal
  | .next t => .next (t.completeWrite p pw rest)
  | .fault f => .fault f
  | .refused r => .refused r

/-- An engine's turn: its oldest waiting word executes and its write completes, in one step (10_state.md
R21); while held, nothing happens (R230). -/
def engineTurn (p : Port) (s : State) : Host.Outcome State Fault Refusal :=
  match s.waiting p with
  | [] => .next s
  | pw :: rest =>
    if wordReady p pw.word s then completing p pw rest (runWord p pw.word s) else .next s

/-! ### The register interface -/

/-- The thread has a command write that has not completed, so it makes no further access (R72). -/
def State.threadBlocked (s : State) (t : Nat) : Bool :=
  s.encPort.any (fun pw => pw.thread == t) || s.decPort.any (fun pw => pw.thread == t)

/-- The arrival can happen now. -/
def State.canArrive (s : State) : Arrival → Bool
  | .access t _ => !s.threadBlocked t
  | .reset _ => true

/-- The first arrival of a list that can happen now, and the list without it: so each thread's accesses
arrive in its program order (R73.2). -/
def firstArrival (ok : Arrival → Bool) : List Arrival → Option (Arrival × List Arrival)
  | [] => none
  | a :: rest =>
    if ok a then some (a, rest)
    else
      match firstArrival ok rest with
      | some (x, others) => some (x, a :: others)
      | none => none

/-- The next thing the host does, and what it does afterwards. -/
def State.nextArrival (s : State) : Option (Arrival × List Arrival) :=
  firstArrival s.canArrive s.arrivals

/-- A read at an offset completes at once: it returns its value and has its side effect (R65, R67, R69). -/
def State.serveRead (s : State) (t off width : Nat) : State :=
  { s.readEffect off width with lastReply := some (.readData t (s.readWord off width)) }

/-- A write at an offset: a command word joins its port's waiting writes, any other write is ignored and
completes at once (R65, R67, R69, R72). -/
def State.serveWrite (s : State) (t off width : Nat) (value : Word) : State :=
  match writeTarget off width with
  | some p => s.setWaiting p (s.waiting p ++ [⟨t, value⟩])
  | none => { s with lastReply := some (.writeDone t) }

/-- Serves one arrival (R73, R239). An address outside the register space is not HUFFCORE's: refused. -/
def serve (a : Arrival) (s : State) : Host.Outcome State Fault Refusal :=
  match a with
  | .reset dropWrites => .next (s.hardReset dropWrites)
  | .access t (.read addr width) =>
    match s.cfg.spaceOffset addr with
    | some off => .next (s.serveRead t off width)
    | none => .refused .outsideRegisterSpace
  | .access t (.write addr width value) =>
    match s.cfg.spaceOffset addr with
    | some off => .next (s.serveWrite t off width value)
    | none => .refused .outsideRegisterSpace

/-- The host's turn: its next arrival is served. -/
def hostTurn (s : State) : Host.Outcome State Fault Refusal :=
  match s.nextArrival with
  | none => .next s
  | some (a, rest) => serve a { s with arrivals := rest }

/-- The host action as an arrival of a thread (70_reset_and_hazards.md R239, 30_encoding.md R89). -/
def actionArrival (P : Params) (t : Nat) : HostAction → Arrival
  | .command .enc w => .access t (.write (P.huffBase + regOffset .encCmd) 32 w)
  | .command .dec w => .access t (.write (P.huffBase + regOffset .decCmd) 32 w)
  | .readReg r => .access t (.read (P.huffBase + regOffset r) 32)

/-! ### Whose turn it is -/

/-- An agent's turn. -/
def takeTurn (a : Agent) (s : State) : Host.Outcome State Fault Refusal :=
  match a with
  | .enc => engineTurn .enc s
  | .dec => engineTurn .dec s
  | .host => hostTurn s

/-- The agent that moves when no turn is laid down: an engine with a command it can execute, else the host if
it has an arrival that can happen; none if no agent can move. -/
def promptAgent (s : State) : Option Agent :=
  if portReady .enc s then some .enc
  else if portReady .dec s then some .dec
  else if s.nextArrival.isSome then some .host
  else none

/-- A command write waits at a port. -/
def State.someWaiting (s : State) : Bool := !s.encPort.isEmpty || !s.decPort.isEmpty

/-- One step under a legal configuration. Where no agent can move: with a write still blocked the machine is
stuck forever (R231); with none it is idle and "holds its state indefinitely" (60_exceptions.md R210). -/
def runAgents (s : State) : Host.Outcome State Fault Refusal :=
  match promptAgent s with
  | none => if s.someWaiting then .fault .outputQueueDeadlock else .next s
  | some a =>
    match s.turns with
    | [] => takeTurn a s
    | b :: rest => takeTurn b { s with turns := rest }

/-- Why a configuration is refused, if it is (60_exceptions.md R198, 00_scope.md R6). -/
def configurationRefusal (P : Params) : Option Refusal :=
  if !rangesOk P then some .parameterOutOfRange
  else if !tableWf P.table then some .malformedTable
  else none

/-- The engine behind a port. -/
def portAgent : Port → Agent
  | .enc => .enc
  | .dec => .dec

/-- The word waits at the front of its port and its engine has the next turn. -/
def State.presentWord (s : State) (p : Port) (w : Word) : State :=
  { s.setWaiting p (⟨0, w⟩ :: s.waiting p) with turns := portAgent p :: s.turns }

end Sys2Proof.Machine
end

