-- ==== Sys2Proof/Machine/Step.lean ====
section
/-! DEFINITION. One step of HUFFCORE, and placing a command where the next step executes it. -/

namespace Sys2Proof.Machine

/-- One step: a malformed configuration is refused before anything runs (60_exceptions.md R198); else one
agent moves. -/
def step (s : State) : Host.Outcome State Fault Refusal :=
  match configurationRefusal s.cfg with
  | some r => .refused r
  | none => runAgents s

/-- `s` with a command word waiting at its port and the engine's turn next, so that the very next step
executes exactly it (HUFFCORE fetches nothing, 10_state.md R23; log entries 2 and 8). Every command is one
32-bit word (30_encoding.md R80). -/
def State.withFetchWord (s : State) (_nbits w : Nat) : State :=
  s.presentWord (wordPort (BitVec.ofNat 32 w)) (BitVec.ofNat 32 w)

end Sys2Proof.Machine
end

