-- ==== Sys2Proof/Machine/Reference.lean ====
section
/-! DEFINITION. The reference functions of the spec, which no step calls: `Encode` and `EncodedSize`
(41_encoder.md R121, R122), `Decode` (42_decoder.md R153), sessions (70_reset_and_hazards.md R238), and a
session's commands run by a host that pops every byte after each command (95_test_vectors.md section 3), and the table
of 40_symbol_table.md R104. -/

namespace Sys2Proof.Machine

/-- `len_id`, 0 where the table has no such entry. -/
def lengthOf (T : Table) (id : Nat) : Nat :=
  match tableRead T id with
  | some e => e.len.toNat
  | none => 0

/-- `cw(b_0) ++ ... ++ cw(b_{n-1})` (R121). -/
def codeBits (T : Table) (S : List Byte) : BitString := S.flatMap fun b => codewordOf T b.toNat

/-- The number of padding bits of `n` code bits: `(8 - (n mod 8)) mod 8` (R121). -/
def padCount (n : Nat) : Nat := (8 - n % 8) % 8

/-- The bits of `Encode(S)`: the code bits and the high-order bits of EOS (R121). -/
def paddedBits (T : Table) (S : List Byte) : BitString :=
  codeBits T S ++ (codewordOf T eos).take (padCount (codeBits T S).length)

/-- `Encode(S)` (R121). -/
def encodeRef (T : Table) (S : List Byte) : List Byte :=
  (packBytes ((paddedBits T S).length / 8) (paddedBits T S)).1

/-- `Σ len_b` over a byte sequence (R122). -/
def totalLength (T : Table) (S : List Byte) : Nat := (S.map fun b => lengthOf T b.toNat).sum

/-- `EncodedSize(S)` (R122). -/
def encodedSize (T : Table) (S : List Byte) : Nat := (totalLength T S + 7) / 8

/-- The result of `Decode` (R153): the output, or an error kind and its stream bit offset. -/
inductive DecodeResult where
  | ok (out : List Byte)
  | error (code : ErrorCode) (pos : Nat)
  deriving DecidableEq, Repr

/-- The trailing bits are acceptable padding (R153, case NEED): none, or a prefix of the EOS codeword of at
most `maxPad` bits. -/
def trailingOk (T : Table) (maxPad : Nat) (R : BitString) : Bool :=
  decide (R.length ≤ maxPad) && R.isPrefixOf (codewordOf T eos)

/-- The loop of R153, on the remaining bits `R` at stream offset `pos`, with `out` decoded so far. -/
def decodeLoop (T : Table) (maxPad : Nat) (M : Option Nat) :
    Nat → BitString → Nat → List Byte → DecodeResult
  | 0, _, pos, _ => .error .none pos
  | fuel + 1, R, pos, out =>
    match matchBits T R with
    | .sym i e =>
      if i = eos then .error .invalidCode pos
      else if M = some out.length then .error .outputTooLarge pos
      else decodeLoop T maxPad M fuel (R.drop e.len.toNat) (pos + e.len.toNat) (out ++ [BitVec.ofNat 8 i])
    | .noMatch => .error .invalidCode pos
    | .need => if R = [] ∨ trailingOk T maxPad R = true then .ok out else .error .invalidPadding pos

/-- `Decode(C, M)` (R153). Each turn of the loop drops at least 5 bits, so the fuel is never used up. -/
def decodeRef (T : Table) (maxPad : Nat) (C : List Byte) (M : Option Nat) : DecodeResult :=
  decodeLoop T maxPad M (8 * C.length + 1) (streamBits C) 0 []

/-! ### The canonical structure of R103's table (40_symbol_table.md R104) -/

/-- A row of R104: the symbols of one code length, in code order, with the first and the last code. -/
structure LengthRow where
  len : Nat
  count : Nat
  first : Nat
  last : Nat
  ids : List Nat
  deriving DecidableEq, Repr

/-- R104, lengths 5 to 15. -/
def shortRows : List LengthRow :=
  [⟨5, 10, 0x0, 0x9,
     [48, 49, 50, 97, 99, 101, 105, 111, 115, 116]⟩,
   ⟨6, 26, 0x14, 0x2d,
     [32, 37, 45, 46, 47, 51, 52, 53, 54, 55, 56, 57, 61, 65, 95, 98, 100, 102, 103, 104, 108, 109, 110,
      112, 114, 117]⟩,
   ⟨7, 32, 0x5c, 0x7b,
     [58, 66, 67, 68, 69, 70, 71, 72, 73, 74, 75, 76, 77, 78, 79, 80, 81, 82, 83, 84, 85, 86, 87, 89, 106,
      107, 113, 118, 119, 120, 121, 122]⟩,
   ⟨8, 6, 0xf8, 0xfd,
     [38, 42, 44, 59, 88, 90]⟩,
   ⟨10, 5, 0x3f8, 0x3fc,
     [33, 34, 40, 41, 63]⟩,
   ⟨11, 3, 0x7fa, 0x7fc,
     [39, 43, 124]⟩,
   ⟨12, 2, 0xffa, 0xffb,
     [35, 62]⟩,
   ⟨13, 6, 0x1ff8, 0x1ffd,
     [0, 36, 64, 91, 93, 126]⟩,
   ⟨14, 2, 0x3ffc, 0x3ffd,
     [94, 125]⟩,
   ⟨15, 3, 0x7ffc, 0x7ffe,
     [60, 96, 123]⟩]

/-- R104, lengths 19 to 30. -/
def longRows : List LengthRow :=
  [⟨19, 3, 0x7fff0, 0x7fff2,
     [92, 195, 208]⟩,
   ⟨20, 8, 0xfffe6, 0xfffed,
     [128, 130, 131, 162, 184, 194, 224, 226]⟩,
   ⟨21, 13, 0x1fffdc, 0x1fffe8,
     [153, 161, 167, 172, 176, 177, 179, 209, 216, 217, 227, 229, 230]⟩,
   ⟨22, 26, 0x3fffd2, 0x3fffeb,
     [129, 132, 133, 134, 136, 146, 154, 156, 160, 163, 164, 169, 170, 173, 178, 181, 185, 186, 187, 189,
      190, 196, 198, 228, 232, 233]⟩,
   ⟨23, 29, 0x7fffd8, 0x7ffff4,
     [1, 135, 137, 138, 139, 140, 141, 143, 147, 149, 150, 151, 152, 155, 157, 158, 165, 166, 168, 174, 175,
      180, 182, 183, 188, 191, 197, 231, 239]⟩,
   ⟨24, 12, 0xffffea, 0xfffff5,
     [9, 142, 144, 145, 148, 159, 171, 206, 215, 225, 236, 237]⟩,
   ⟨25, 4, 0x1ffffec, 0x1ffffef,
     [199, 207, 234, 235]⟩,
   ⟨26, 15, 0x3ffffe0, 0x3ffffee,
     [192, 193, 200, 201, 202, 205, 210, 213, 218, 219, 238, 240, 242, 243, 255]⟩,
   ⟨27, 19, 0x7ffffde, 0x7fffff0,
     [203, 204, 211, 212, 214, 221, 222, 223, 241, 244, 245, 246, 247, 248, 250, 251, 252, 253, 254]⟩,
   ⟨28, 29, 0xfffffe2, 0xffffffe,
     [2, 3, 4, 5, 6, 7, 8, 11, 12, 14, 15, 16, 17, 18, 19, 20, 21, 23, 24, 25, 26, 27, 28, 29, 30, 31, 127,
      220, 249]⟩,
   ⟨30, 4, 0x3ffffffc, 0x3fffffff,
     [10, 13, 22, 256]⟩]

/-- The table of R104. -/
def lengthRows : List LengthRow := shortRows ++ longRows

/-- An encoder session has ended (R238). -/
def Encoder.ended (e : Encoder) : Bool := e.state == .done || e.state == .fault

/-- A decoder session has ended (R238). -/
def Decoder.ended (d : Decoder) : Bool := d.state == .done || d.state == .failed

/-- The commands of an encoding session (30_encoding.md, R127). -/
def encSession (sizeOnly : Bool) (S : List Byte) : List Instr :=
  .encStart sizeOnly :: (S.map Instr.encByte ++ [.encFinish])

/-- The START of a decoding session with an optional limit (R156, R159). -/
def decStartOf : Option (BitVec 24) → Instr
  | none => .decStart
  | some M => .decStartMax M

/-- The commands of a decoding session (R159). -/
def decSession (M : Option (BitVec 24)) (C : List Byte) : List Instr :=
  decStartOf M :: (C.map Instr.decByte ++ [.decFinish])

/-- Runs commands one after the other, the host popping every byte of the port's queue after each one: the
bytes popped, in order, and the last state. None where a command is held or stops. -/
def runDraining (p : Port) : List Instr → State → Option (List Byte × State)
  | [], s => some ([], s)
  | i :: is, s =>
    if isHeld i s then none
    else
      match exec i s with
      | .next t =>
        match runDraining p is (t.setOutq p []) with
        | some (bs, u) => some (t.outq p ++ bs, u)
        | none => none
      | .fault _ => none
      | .refused _ => none

end Sys2Proof.Machine
end

