-- ==== Sys2Proof/Safety.lean ====
section
/-! DEFINITION. What counts as a safe machine, in the terms the claims use: the invariant every step keeps, the
stuck states, and the well-formed memory. -/

namespace Sys2Proof.Machine

/-- The state an outcome answers, if it answers one. -/
def nextOf : Host.Outcome State Fault Refusal → Option State
  | .next t => some t
  | .fault _ => none
  | .refused _ => none

/-- HUFFCORE's only memory is the Symbol Table ROM (20_memory.md R60): it is well formed when it passes the
five checks of 40_symbol_table.md R101. -/
abbrev Memory.wf (T : Table) : Bool := tableWf T

/-- The decoder's data errors: those that record a position (10_state.md R38). -/
def ErrorCode.isData : ErrorCode → Bool
  | .none => false
  | .invalidCode => true
  | .invalidPadding => true
  | .outputTooLarge => true
  | .illegalCommand => false
  | .badSequence => false
  | .badSymbolId => false
  | .countOverflow => false

/-- What always holds of the encoder's registers. -/
structure EncInv (P : Params) (e : Encoder) : Prop where
  /-- "Between commands, `ENC.NBITS ≤ 7` always holds" (10_state.md R27). -/
  nbits_le : e.nbits ≤ 7
  /-- Whole bytes have left, so the pending bits are the total modulo 8 (41_encoder.md R125, R131). -/
  nbits_mod : e.state = .active → e.nbits = e.totalBits.toNat % 8
  /-- Only a session has pending bits (R50, R126). -/
  pend_idle : e.state = .idle ∨ e.state = .done → e.pend = []
  /-- "so a queue never overflows" (R40). -/
  outq_le : e.outq.length ≤ P.outqDepth
  /-- The error field is set exactly in FAULT (R30, 60_exceptions.md R192). -/
  fault_iff : e.state = .fault ↔ e.err ≠ .none
  /-- The encoder's four error kinds (41_encoder.md R129). -/
  err_kind : e.err ∈ [ErrorCode.none, .illegalCommand, .badSequence, .badSymbolId, .countOverflow]
  /-- Every codeword has 5 to 30 bits (R29, R125). -/
  bits_ge : 5 * e.inCount.toNat ≤ e.totalBits.toNat
  bits_le : e.totalBits.toNat ≤ 30 * e.inCount.toNat
  /-- ENC.TBL_* are 0 or an entry of the table (10_state.md R31, R50). -/
  tbl_entry : (e.tblCode = 0 ∧ e.tblLen = 0) ∨
    ∃ id x, tableRead P.table id = some x ∧ e.tblCode = x.code.setWidth 32 ∧ e.tblLen = x.len

/-- What always holds of the decoder's registers. -/
structure DecInv (P : Params) (d : Decoder) : Prop where
  /-- The pending bits are a strict prefix of a codeword and contain no codeword (10_state.md R34). -/
  pend_need : matchBits P.table d.pend = .need
  /-- Only a session has pending bits (R50, 42_decoder.md R158). -/
  pend_idle : d.state = .idle ∨ d.state = .done → d.pend = []
  /-- "so a queue never overflows" (R40). -/
  outq_le : d.outq.length ≤ P.outqDepth
  /-- The error field is set exactly in FAILED (R37, 60_exceptions.md R193). -/
  failed_iff : d.state = .failed ↔ d.err ≠ .none
  /-- BAD_SYMBOL_ID is the encoder's (R191). -/
  err_kind : d.err ≠ .badSymbolId
  /-- "With `DEC.LIMIT_EN = 0`, there is no limit and `DEC.MAXLEN` is 0" (R33). -/
  maxlen_zero : d.limitEn = false → d.maxlen = 0
  /-- "the session may produce at most `DEC.MAXLEN` output bytes" (R33). -/
  limit_le : d.limitEn = true → d.outCount.toNat ≤ d.maxlen.toNat
  /-- Every decoded byte took at least 5 delivered bits, and the pending bits were delivered too
  (42_decoder.md R162, 20_memory.md R78). -/
  rate : 5 * d.outCount.toNat ≤ 8 * d.inCount.toNat
  rate_pend : d.state = .scanning → 5 * d.outCount.toNat + d.plen ≤ 8 * d.inCount.toNat
  /-- "Other errors do not write these registers" (R38), and START clears them. -/
  pos_zero : d.err.isData = false → d.errByte = 0 ∧ d.errBit = 0
  /-- A recorded position lies in the delivered input (R38, R78). -/
  pos_lt : d.err.isData = true → 8 * d.errByte.toNat + d.errBit.toNat < 8 * d.inCount.toNat

/-- The invariant of HUFFCORE: a legal configuration and both engines' invariants. -/
structure Invariant (s : State) : Prop where
  cfg_wf : paramsWf s.cfg = true
  enc : EncInv s.cfg s.enc
  dec : DecInv s.cfg s.dec

/-- The command is one that can raise the error: the "Raised by" column of 60_exceptions.md R191. An illegal word
is no command, so none raises ILLEGAL_COMMAND. -/
def CanRaise (i : Instr) : ErrorCode → Prop
  | .none => False
  | .invalidCode => ∃ b, i = .decByte b
  | .invalidPadding => i = .decFinish
  | .outputTooLarge => ∃ b, i = .decByte b
  | .illegalCommand => False
  | .badSequence => (∃ b, i = .encByte b) ∨ i = .encFinish ∨ (∃ b, i = .decByte b) ∨ i = .decFinish
  | .badSymbolId => ∃ id, i = .encTblrd id
  | .countOverflow => (∃ b, i = .encByte b) ∨ ∃ b, i = .decByte b

/-- The command takes the encoder into FAULT from another state, with an error that is its own to raise (R191,
R192). -/
def EncFaults (i : Instr) (s t : State) : Prop :=
  i.port = .enc ∧ s.enc.state ≠ .fault ∧ t.enc.state = .fault ∧ CanRaise i t.enc.err

/-- The command takes the decoder into FAILED from another state, with an error that is its own to raise (R191,
R193). -/
def DecFaults (i : Instr) (s t : State) : Prop :=
  i.port = .dec ∧ s.dec.state ≠ .failed ∧ t.dec.state = .failed ∧ CanRaise i t.dec.err

/-- DEC.START, without or with a limit (42_decoder.md R156). -/
def IsDecStart (i : Instr) : Prop := i = .decStart ∨ ∃ n, i = .decStartMax n

/-- Nothing outside the two engines differs: the ROM and the parameters, the ports, the host's arrivals, the
turns, the last reply. -/
def SameOutside (s t : State) : Prop :=
  t.cfg = s.cfg ∧ t.encPort = s.encPort ∧ t.decPort = s.decPort ∧ t.arrivals = s.arrivals ∧
    t.turns = s.turns ∧ t.lastReply = s.lastReply

/-- In a SCANNING session the byte `b` completes the codewords of the bytes `S`, all within the limit and the
output counter, and leaves the bits `r` (42_decoder.md R157): the pending bits and the byte's bits are those
codewords and `r`. There is room for `S` in the queue (70_reset_and_hazards.md R230). -/
structure ReadsBytes (s : State) (b : Byte) (S : List Byte) (r : BitString) : Prop where
  scanning : s.dec.state = .scanning
  inRoom : s.dec.inCount.toNat < maxCount
  bits : s.dec.pend ++ byteBits b = codeBits s.cfg.table S ++ r
  limit : s.dec.limitEn = true → S ≠ [] → s.dec.outCount.toNat + S.length ≤ s.dec.maxlen.toNat
  outRoom : s.dec.outCount.toNat + S.length ≤ maxCount
  free : S.length ≤ s.free .dec

/-- The decoder after a DEC.BYTE that emits `S`: the counters and the queue (R157). -/
def Decoder.after (d : Decoder) (S : List Byte) : Decoder :=
  { d with
    outCount := d.outCount + BitVec.ofNat 32 S.length
    inCount := d.inCount + 1
    outq := d.outq ++ S }

/-- The stuck states of 70_reset_and_hazards.md R231: a command write is blocked, no engine can execute its
waiting word, and the host has nothing it can do. -/
def Stuck (s : State) : Prop := s.someWaiting = true ∧ promptAgent s = none

end Sys2Proof.Machine
end

