-- ==== Sys2Proof/Certificates/Slice0/Obligations.lean ====
section
/-! DEFINITION. The statements about HUFFCORE, for the provers. -/

open Sys2Proof Sys2Proof.Machine

/-! ### Encoding -/

/-- Words written out from the spec's own list (30_encoding.md R89, 95_test_vectors.md) decode to the commands
they stand for, on the port they are written to. -/
def Obligations.WordsDecodeAsTheSpecWritesThem : Prop :=
  decode .enc 0x00000000#32 = .instr .encNop ∧
  decode .enc 0x10000000#32 = .instr (.encStart false) ∧
  decode .enc 0x11000000#32 = .instr (.encStart true) ∧
  decode .enc 0x20000077#32 = .instr (.encByte 0x77) ∧
  decode .enc 0x30000000#32 = .instr .encFinish ∧
  decode .enc 0x40000101#32 = .instr (.encTblrd 0x101) ∧
  decode .dec 0x00000000#32 = .instr .decNop ∧
  decode .dec 0x80000000#32 = .instr .decStart ∧
  decode .dec 0x8100000F#32 = .instr (.decStartMax 15) ∧
  decode .dec 0x900000F1#32 = .instr (.decByte 0xF1) ∧
  decode .dec 0xA0000000#32 = .instr .decFinish

/-- Decoding the encoding of a command, on its port, gives the command, every operand at every value. -/
def Obligations.DecodeOfEncodeIsTheCommand : Prop :=
  ∀ i : Instr, decode i.port (encode i) = .instr i

/-- A legal word is the encoding of what it decodes to: no bit of a legal word is ignored. -/
def Obligations.LegalWordIsTheEncoding : Prop :=
  ∀ (p : Port) (w : Word) (i : Instr), decode p w = .instr i → i.port = p ∧ encode i = w

/-- "No word matches two rows of one port" (R85). -/
def Obligations.NoWordMatchesTwoRows : Prop :=
  ∀ (p : Port) (w : Word), (opRows.filter fun r => r.accepts p w).length ≤ 1

/-- The opcodes outside a port's set are illegal on it, whatever the other bits (R83, R87), and so are the two
must-be-zero examples of R87. -/
def Obligations.ForeignOpcodesAreIllegal : Prop :=
  (∀ w : Word, 5 ≤ (w.extractLsb' 28 4).toNat → ∃ why, decode .enc w = .illegal why) ∧
  (∀ w : Word, (w.extractLsb' 28 4).toNat ∈ [1, 2, 3, 4, 5, 6, 7, 11, 12, 13, 14, 15] →
    ∃ why, decode .dec w = .illegal why) ∧
  decode .enc 0x20000100#32 = .illegal .mustBeZero ∧
  decode .dec 0x80000005#32 = .illegal .mustBeZero

/-- The assembler (R89, R90), from a line's mnemonic and operands, a string being the list of its bytes: the word of
each line whose immediate fits its field, the register a host action reads, the expansion of each
pseudo-instruction, and refusal of every line with an immediate that does not fit. -/
def Obligations.AssemblerWordsAndRefusals : Prop :=
  assemble .encNop = some [.command .enc 0x00000000#32] ∧
  assemble .encStart = some [.command .enc 0x10000000#32] ∧
  assemble .encStartSize = some [.command .enc 0x11000000#32] ∧
  (∀ b, assemble (.encByte b) =
    if b ≤ 255 then some [.command .enc (0x20000000#32 ||| BitVec.ofNat 32 b)] else none) ∧
  assemble .encFinish = some [.command .enc 0x30000000#32] ∧
  (∀ id, assemble (.encTblrd id) =
    if id ≤ 511 then some [.command .enc (0x40000000#32 ||| BitVec.ofNat 32 id)] else none) ∧
  assemble .decNop = some [.command .dec 0x00000000#32] ∧
  assemble .decStart = some [.command .dec 0x80000000#32] ∧
  (∀ n, assemble (.decStartMax n) =
    if n ≤ 0xFFFFFF then some [.command .dec (0x81000000#32 ||| BitVec.ofNat 32 n)] else none) ∧
  (∀ b, assemble (.decByte b) =
    if b ≤ 255 then some [.command .dec (0x90000000#32 ||| BitVec.ofNat 32 b)] else none) ∧
  assemble .decFinish = some [.command .dec 0xA0000000#32] ∧
  (∀ r, assemble (.rd r) = some [.readReg r]) ∧
  assemble (.pop .enc) = some [.readReg .encOut] ∧ assemble (.pop .dec) = some [.readReg .decOut] ∧
  (∀ cs : List Nat, (∀ c ∈ cs, c ≤ 255) →
    assemble (.encStr cs) = some (cs.map fun c => .command .enc (0x20000000#32 ||| BitVec.ofNat 32 c)) ∧
    assemble (.encHex cs) = some (cs.map fun c => .command .enc (0x20000000#32 ||| BitVec.ofNat 32 c)) ∧
    assemble (.encEncode cs) = some (.command .enc 0x10000000#32 ::
      (cs.map (fun c => .command .enc (0x20000000#32 ||| BitVec.ofNat 32 c)) ++
        [.command .enc 0x30000000#32])) ∧
    assemble (.encSizeof cs) = some (.command .enc 0x11000000#32 ::
      (cs.map (fun c => .command .enc (0x20000000#32 ||| BitVec.ofNat 32 c)) ++
        [.command .enc 0x30000000#32])) ∧
    assemble (.decHex cs) = some (cs.map fun c => .command .dec (0x90000000#32 ||| BitVec.ofNat 32 c)) ∧
    assemble (.decDecode cs) = some (.command .dec 0x80000000#32 ::
      (cs.map (fun c => .command .dec (0x90000000#32 ||| BitVec.ofNat 32 c)) ++
        [.command .dec 0xA0000000#32])) ∧
    ∀ n, n ≤ 0xFFFFFF → assemble (.decDecodeMax n cs) =
      some (.command .dec (0x81000000#32 ||| BitVec.ofNat 32 n) ::
        (cs.map (fun c => .command .dec (0x90000000#32 ||| BitVec.ofNat 32 c)) ++
          [.command .dec 0xA0000000#32]))) ∧
  (∀ cs : List Nat, (∃ c ∈ cs, 255 < c) →
    assemble (.encStr cs) = none ∧ assemble (.encHex cs) = none ∧ assemble (.encEncode cs) = none ∧
    assemble (.encSizeof cs) = none ∧ assemble (.decHex cs) = none ∧ assemble (.decDecode cs) = none ∧
    ∀ n, assemble (.decDecodeMax n cs) = none) ∧
  (∀ (n : Nat) (cs : List Nat), 0xFFFFFF < n → assemble (.decDecodeMax n cs) = none)

/-! ### A step runs the decoded command -/

/-- What a step does, by whose turn it is. An engine's turn, where its oldest waiting word decodes to a command that
is not held: the step is that command's meaning, and its write completes with it, leaving the port, its thread given
its reply. Where that word is illegal: the step raises ILLEGAL_COMMAND and the write completes the same way. Where
nothing waits or the command is held: the turn passes and nothing happens. The host's turn: the step serves the
host's next arrival, or the turn passes where it has none. The turn is laid down in `turns`, or, when none is, it is
the prompt order's, and a turn is used only while some agent can move: these are the model's choice (log entry 3). -/
def Obligations.StepRunsTheWaitingCommand : Prop :=
  (∀ (s : State) (p : Port) (pw : PortWrite) (rest : List PortWrite) (i : Instr),
    paramsWf s.cfg = true → s.waiting p = pw :: rest → decode p pw.word = .instr i → isHeld i s = false →
    (∀ ts, s.turns = portAgent p :: ts →
      step s = completing p pw rest (exec i { s with turns := ts })) ∧
    (s.turns = [] → promptAgent s = some (portAgent p) → step s = completing p pw rest (exec i s))) ∧
  (∀ (s : State) (p : Port) (pw : PortWrite) (rest : List PortWrite) (why : Illegal),
    paramsWf s.cfg = true → s.waiting p = pw :: rest → decode p pw.word = .illegal why →
    (∀ ts, s.turns = portAgent p :: ts →
      step s = .next ((({ s with turns := ts } : State).raiseIllegal p).completeWrite p pw rest)) ∧
    (s.turns = [] → promptAgent s = some (portAgent p) →
      step s = .next ((s.raiseIllegal p).completeWrite p pw rest))) ∧
  (∀ (s : State) (p : Port) (ts : List Agent), paramsWf s.cfg = true → s.turns = portAgent p :: ts →
    (s.waiting p = [] ∨ ∃ pw rest i, s.waiting p = pw :: rest ∧ decode p pw.word = .instr i ∧
      isHeld i s = true) →
    promptAgent s ≠ none → step s = .next { s with turns := ts }) ∧
  (∀ (s : State) (a : Arrival) (rest : List Arrival), paramsWf s.cfg = true →
    s.nextArrival = some (a, rest) →
    (∀ ts, s.turns = .host :: ts → step s = serve a { s with turns := ts, arrivals := rest }) ∧
    (s.turns = [] → promptAgent s = some .host → step s = serve a { s with arrivals := rest })) ∧
  (∀ (s : State) (ts : List Agent), paramsWf s.cfg = true → s.turns = .host :: ts → s.nextArrival = none →
    promptAgent s ≠ none → step s = .next { s with turns := ts })

/-- A command word placed by `withFetchWord` is executed by the very next step (the model's interface, log entries
2 and 8). -/
def Obligations.FetchedWordRunsNext : Prop :=
  ∀ (s : State) (nbits w : Nat) (i : Instr),
    paramsWf s.cfg = true → decodeTableWord nbits w = some i → isHeld i s = false →
    step (s.withFetchWord nbits w) =
      completing i.port ⟨0, BitVec.ofNat 32 w⟩ (s.waiting i.port)
        (exec i (s.setWaiting i.port (⟨0, BitVec.ofNat 32 w⟩ :: s.waiting i.port)))

/-! ### Commands: what each one does, and that it completes -/

/-- ENC.NOP and DEC.NOP (R86): exactly the word 0 on either port; nothing changes, in every state; never held. -/
def Obligations.NopChangesNothing : Prop :=
  (∀ w : Word, decode .enc w = .instr .encNop ↔ w = 0) ∧
  (∀ w : Word, decode .dec w = .instr .decNop ↔ w = 0) ∧
  ∀ s : State, exec .encNop s = .next s ∧ exec .decNop s = .next s ∧
    isHeld .encNop s = false ∧ isHeld .decNop s = false

/-- ENC.START (R124): its words, the registers it writes, those it keeps, from every state; never held. -/
def Obligations.EncStartBeginsASession : Prop :=
  (∀ (w : Word) (f : Bool), decode .enc w = .instr (.encStart f) ↔
    w &&& 0xFEFFFFFF#32 = 0x10000000#32 ∧ f = w.getLsbD 24) ∧
  decode .enc 0x10000000 = .instr (.encStart false) ∧ decode .enc 0x11000000 = .instr (.encStart true) ∧
  ∀ (f : Bool) (s : State), isHeld (.encStart f) s = false ∧
    exec (.encStart f) s = .next { s with enc :=
      { state := .active, sizeOnly := f, pend := [], inCount := 0, totalBits := 0, err := .none,
        tblCode := s.enc.tblCode, tblLen := s.enc.tblLen, outq := s.enc.outq } }

/-- ENC.BYTE (R125): its words; discarded in FAULT; BAD_SEQUENCE in IDLE and DONE; COUNT_OVERFLOW, consuming
nothing, where the code would take TOTAL_BITS past 2^32 − 1; held while its bytes have no room; and otherwise the
bits of the bytes it emits followed by the new pending bits are the old pending bits followed by the byte's
codeword, fewer than 8 of them stay pending, both counters advance, in SIZE_ONLY mode nothing is emitted, and
nothing else changes. -/
def Obligations.EncByteAppendsItsCodeword : Prop :=
  (∀ (w : Word) (b : Byte), decode .enc w = .instr (.encByte b) ↔
    w &&& 0xFFFFFF00#32 = 0x20000000#32 ∧ b = w.extractLsb' 0 8) ∧
  (∀ (s : State) (b : Byte), s.enc.state = .fault → exec (.encByte b) s = .next s) ∧
  (∀ (s : State) (b : Byte), s.enc.state = .idle ∨ s.enc.state = .done →
    exec (.encByte b) s = .next { s with enc := { s.enc with state := .fault, err := .badSequence } }) ∧
  (∀ (s : State) (b : Byte) (e : SymbolEntry),
    s.enc.state = .active → tableRead s.cfg.table b.toNat = some e →
    2 ^ 32 - 1 < s.enc.totalBits.toNat + e.len.toNat →
    exec (.encByte b) s =
      .next { s with enc := { s.enc with state := .fault, err := .countOverflow } }) ∧
  (∀ (s : State) (b : Byte) (e : SymbolEntry),
    s.enc.state = .active → tableRead s.cfg.table b.toNat = some e →
    s.enc.totalBits.toNat + e.len.toNat ≤ 2 ^ 32 - 1 → s.enc.sizeOnly = false →
    s.free .enc < (s.enc.pend.length + e.len.toNat) / 8 →
    isHeld (.encByte b) s = true ∧ exec (.encByte b) s = .next s) ∧
  (∀ (s : State) (b : Byte) (e : SymbolEntry),
    s.enc.state = .active → tableRead s.cfg.table b.toNat = some e →
    s.enc.totalBits.toNat + e.len.toNat ≤ 2 ^ 32 - 1 →
    (s.enc.sizeOnly = true ∨ (s.enc.pend.length + e.len.toNat) / 8 ≤ s.free .enc) →
    ∃ out r, streamBits out ++ r = s.enc.pend ++ e.codeword ∧ r.length < 8 ∧
      isHeld (.encByte b) s = false ∧
      exec (.encByte b) s = .next { s with enc := { s.enc with
        pend := r
        totalBits := s.enc.totalBits + e.len.setWidth 32
        inCount := s.enc.inCount + 1
        outq := s.enc.outq ++ (if s.enc.sizeOnly then [] else out) } })

/-- ENC.FINISH (R126): its word; discarded in FAULT; BAD_SEQUENCE in IDLE and DONE; in a session with nothing
pending it emits nothing, whatever room there is; with 1 to 7 bits pending it is held while the queue is full (not
in SIZE_ONLY mode), and then emits one byte, those bits followed by the high-order bits of the EOS code; in
SIZE_ONLY mode nothing; the session is DONE and nothing else changes. -/
def Obligations.EncFinishPadsTheLastByte : Prop :=
  (∀ w : Word, decode .enc w = .instr .encFinish ↔ w = 0x30000000#32) ∧
  (∀ s : State, s.enc.state = .fault → exec .encFinish s = .next s) ∧
  (∀ s : State, s.enc.state = .idle ∨ s.enc.state = .done →
    exec .encFinish s = .next { s with enc := { s.enc with state := .fault, err := .badSequence } }) ∧
  (∀ s : State, s.enc.state = .active → s.enc.pend = [] →
    isHeld .encFinish s = false ∧
    exec .encFinish s = .next { s with enc := { s.enc with state := .done } }) ∧
  (∀ (s : State) (e : SymbolEntry),
    s.enc.state = .active → s.enc.pend ≠ [] → tableRead s.cfg.table 256 = some e →
    s.enc.sizeOnly = false → s.free .enc < 1 →
    isHeld .encFinish s = true ∧ exec .encFinish s = .next s) ∧
  (∀ (s : State) (e : SymbolEntry),
    s.enc.state = .active → s.enc.pend ≠ [] → s.enc.pend.length ≤ 7 →
    tableRead s.cfg.table 256 = some e → 7 ≤ e.len.toNat →
    (s.enc.sizeOnly = true ∨ 1 ≤ s.free .enc) →
    ∃ last : Byte, byteBits last = s.enc.pend ++ e.codeword.take (8 - s.enc.pend.length) ∧
      isHeld .encFinish s = false ∧
      exec .encFinish s = .next { s with enc := { s.enc with
        state := .done
        pend := []
        outq := s.enc.outq ++ (if s.enc.sizeOnly then [] else [last]) } })

/-- ENC.TBLRD (R128): its words; an id up to 256 reads its entry, in every state; a larger one raises
BAD_SYMBOL_ID, the first error kept and the TBL registers too; never held. -/
def Obligations.EncTblrdReadsOrFaults : Prop :=
  (∀ (w : Word) (id : BitVec 9), decode .enc w = .instr (.encTblrd id) ↔
    w &&& 0xFFFFFE00#32 = 0x40000000#32 ∧ id = w.extractLsb' 0 9) ∧
  (∀ (s : State) (id : BitVec 9) (e : SymbolEntry),
    id.toNat ≤ 256 → tableRead s.cfg.table id.toNat = some e →
    exec (.encTblrd id) s =
      .next { s with enc := { s.enc with tblCode := e.code.setWidth 32, tblLen := e.len } }) ∧
  (∀ (s : State) (id : BitVec 9), 256 < id.toNat →
    exec (.encTblrd id) s =
      .next (if s.enc.state = .fault then s
        else { s with enc := { s.enc with state := .fault, err := .badSymbolId } })) ∧
  (∀ (s : State) (id : BitVec 9), isHeld (.encTblrd id) s = false)

/-- DEC.START and DEC.START.MAX (R156): their words, the registers they write, the queue kept, from every state;
never held; the word with L = 0 and ARG ≠ 0 is illegal. -/
def Obligations.DecStartBeginsASession : Prop :=
  (∀ w : Word, decode .dec w = .instr .decStart ↔ w = 0x80000000#32) ∧
  (∀ (w : Word) (n : BitVec 24), decode .dec w = .instr (.decStartMax n) ↔
    w &&& 0xFF000000#32 = 0x81000000#32 ∧ n = w.extractLsb' 0 24) ∧
  (∀ n : BitVec 24, n ≠ 0 → decode .dec (0x80000000#32 ||| n.setWidth 32) = .illegal .mustBeZero) ∧
  (∀ s : State, isHeld .decStart s = false ∧
    exec .decStart s = .next { s with dec :=
      { state := .scanning, limitEn := false, maxlen := 0, pend := [], inCount := 0, outCount := 0,
        err := .none, errByte := 0, errBit := 0, outq := s.dec.outq } }) ∧
  (∀ (n : BitVec 24) (s : State), isHeld (.decStartMax n) s = false ∧
    exec (.decStartMax n) s = .next { s with dec :=
      { state := .scanning, limitEn := true, maxlen := n, pend := [], inCount := 0, outCount := 0,
        err := .none, errByte := 0, errBit := 0, outq := s.dec.outq } })

/-- DEC.BYTE whose bits, after the codewords of the bytes `S`, are a strict prefix of a codeword (R157): it emits
`S` and keeps the rest pending; nothing but the counters and the queue changes besides. -/
def Obligations.DecByteEmitsItsSymbols : Prop :=
  ∀ (s : State) (b : Byte) (S : List Byte) (r : BitString),
    paramsWf s.cfg = true → ReadsBytes s b S r → matchBits s.cfg.table r = .need →
    exec (.decByte b) s = .next { s with dec := { s.dec.after S with pend := r } }

/-- DEC.BYTE that meets the EOS codeword, or bits that begin no codeword, after the bytes `S` (R157): it emits
`S`, counts the byte, keeps the pending bits, and fails with INVALID_CODE at the first bit of the offending code.
-/
def Obligations.DecByteInvalidCode : Prop :=
  ∀ (s : State) (b : Byte) (S : List Byte) (r : BitString),
    paramsWf s.cfg = true → ReadsBytes s b S r → s.dec.pend.length ≤ 8 * s.dec.inCount.toNat →
    (codewordOf s.cfg.table 256 <+: r ∨ matchBits s.cfg.table r = .noMatch) →
    ∃ t, exec (.decByte b) s = .next t ∧ SameOutside s t ∧ t.enc = s.enc ∧
      t.dec = { s.dec.after S with
        state := .failed, err := .invalidCode, errByte := t.dec.errByte, errBit := t.dec.errBit } ∧
      8 * t.dec.errByte.toNat + t.dec.errBit.toNat + s.dec.pend.length =
        8 * s.dec.inCount.toNat + totalLength s.cfg.table S

/-- DEC.BYTE that completes the codeword of one byte more than the limit allows (R157): it emits the bytes before
it, counts the compressed byte, keeps the pending bits, and fails with OUTPUT_TOO_LARGE at that codeword's first
bit. -/
def Obligations.DecByteOutputTooLarge : Prop :=
  ∀ (s : State) (b x : Byte) (S : List Byte) (r : BitString),
    paramsWf s.cfg = true → ReadsBytes s b S r → s.dec.pend.length ≤ 8 * s.dec.inCount.toNat →
    codewordOf s.cfg.table x.toNat <+: r → s.dec.limitEn = true →
    s.dec.maxlen.toNat ≤ s.dec.outCount.toNat + S.length →
    ∃ t, exec (.decByte b) s = .next t ∧ SameOutside s t ∧ t.enc = s.enc ∧
      t.dec = { s.dec.after S with
        state := .failed, err := .outputTooLarge, errByte := t.dec.errByte, errBit := t.dec.errBit } ∧
      8 * t.dec.errByte.toNat + t.dec.errBit.toNat + s.dec.pend.length =
        8 * s.dec.inCount.toNat + totalLength s.cfg.table S

/-- The two counter overflows of DEC.BYTE (R157, R196): with IN_COUNT at 2^32 − 1 nothing is consumed; a symbol
that would take OUT_COUNT past 2^32 − 1 is not emitted, the byte is counted; no position is recorded. -/
def Obligations.DecByteCountOverflow : Prop :=
  (∀ (s : State) (b : Byte), s.dec.state = .scanning → s.dec.inCount.toNat = 2 ^ 32 - 1 →
    exec (.decByte b) s =
      .next { s with dec := { s.dec with state := .failed, err := .countOverflow } }) ∧
  (∀ (s : State) (b x : Byte) (S : List Byte) (r : BitString),
    paramsWf s.cfg = true → ReadsBytes s b S r →
    codewordOf s.cfg.table x.toNat <+: r →
    (s.dec.limitEn = true → s.dec.outCount.toNat + S.length < s.dec.maxlen.toNat) →
    s.dec.outCount.toNat + S.length = 2 ^ 32 - 1 →
    exec (.decByte b) s =
      .next { s with dec := { s.dec.after S with state := .failed, err := .countOverflow } })

/-- DEC.FINISH (R158): its word; in every state: discarded in FAILED, BAD_SEQUENCE in IDLE and DONE; in SCANNING it
ends DONE when nothing is pending or the pending bits are high-order EOS bits, at most MAX_PAD_BITS of them, and
otherwise fails with INVALID_PADDING at the first pending bit; it emits nothing and is never held. -/
def Obligations.DecFinishChecksThePadding : Prop :=
  (∀ w : Word, decode .dec w = .instr .decFinish ↔ w = 0xA0000000#32) ∧
  (∀ s : State, s.dec.state = .failed → exec .decFinish s = .next s) ∧
  (∀ s : State, s.dec.state = .idle ∨ s.dec.state = .done →
    exec .decFinish s = .next { s with dec := { s.dec with state := .failed, err := .badSequence } }) ∧
  (∀ s : State, s.dec.state = .scanning → s.dec.pend = [] →
    exec .decFinish s = .next { s with dec := { s.dec with state := .done } }) ∧
  (∀ (s : State) (e : SymbolEntry), s.dec.state = .scanning → tableRead s.cfg.table 256 = some e →
    s.dec.pend.length ≤ s.cfg.maxPadBits → s.dec.pend.length ≤ e.len.toNat →
    s.dec.pend = e.codeword.take s.dec.pend.length →
    exec .decFinish s = .next { s with dec := { s.dec with state := .done, pend := [] } }) ∧
  (∀ (s : State) (e : SymbolEntry), s.dec.state = .scanning → tableRead s.cfg.table 256 = some e →
    s.dec.pend ≠ [] → s.dec.pend.length ≤ 8 * s.dec.inCount.toNat →
    ¬ (s.dec.pend.length ≤ s.cfg.maxPadBits ∧ s.dec.pend.length ≤ e.len.toNat ∧
      s.dec.pend = e.codeword.take s.dec.pend.length) →
    ∃ t, exec .decFinish s = .next t ∧ SameOutside s t ∧ t.enc = s.enc ∧
      t.dec = { s.dec with
        state := .failed, err := .invalidPadding, errByte := t.dec.errByte, errBit := t.dec.errBit } ∧
      8 * t.dec.errByte.toNat + t.dec.errBit.toNat + s.dec.pend.length = 8 * s.dec.inCount.toNat) ∧
  (∀ s : State, isHeld .decFinish s = false)

/-! ### Errors -/

/-- BAD_SEQUENCE (R195): BYTE and FINISH raise it in IDLE and DONE, are discarded in FAULT and FAILED, and START,
NOP and ENC.TBLRD never raise it. -/
def Obligations.SequenceErrorsAndDiscards : Prop :=
  (∀ (s : State) (b : Byte), s.enc.state = .idle ∨ s.enc.state = .done →
    exec (.encByte b) s = .next { s with enc := { s.enc with state := .fault, err := .badSequence } } ∧
    exec .encFinish s = .next { s with enc := { s.enc with state := .fault, err := .badSequence } }) ∧
  (∀ (s : State) (b : Byte), s.dec.state = .idle ∨ s.dec.state = .done →
    exec (.decByte b) s = .next { s with dec := { s.dec with state := .failed, err := .badSequence } } ∧
    exec .decFinish s = .next { s with dec := { s.dec with state := .failed, err := .badSequence } }) ∧
  (∀ (s : State) (b : Byte), s.enc.state = .fault →
    exec (.encByte b) s = .next s ∧ exec .encFinish s = .next s) ∧
  (∀ (s : State) (b : Byte), s.dec.state = .failed →
    exec (.decByte b) s = .next s ∧ exec .decFinish s = .next s) ∧
  (∀ (s t : State) (f : Bool) (n : BitVec 24) (id : BitVec 9) (i : Instr),
    i ∈ [Instr.encNop, .encStart f, .encTblrd id, .decNop, .decStart, .decStartMax n] →
    exec i s = .next t →
    (t.enc.err = .badSequence → s.enc.err = .badSequence) ∧
    (t.dec.err = .badSequence → s.dec.err = .badSequence))

/-- ILLEGAL_COMMAND (R194): an illegal word, in every engine state, is executed at once, raises the error where
none is recorded, and changes nothing else; in FAULT and FAILED it changes nothing. -/
def Obligations.IllegalWordRaisesIllegalCommand : Prop :=
  ∀ (s : State) (w : Word) (why : Illegal),
    (decode .enc w = .illegal why → wordReady .enc w s = true ∧
      runWord .enc w s = .next (if s.enc.state = .fault then s
        else { s with enc := { s.enc with state := .fault, err := .illegalCommand } })) ∧
    (decode .dec w = .illegal why → wordReady .dec w s = true ∧
      runWord .dec w s = .next (if s.dec.state = .failed then s
        else { s with dec := { s.dec with state := .failed, err := .illegalCommand } }))

/-- Entering the error state (R192, R193): the first error is kept; a recorded position is the byte and the bit
of the offset; nothing else changes. -/
def Obligations.RaisingKeepsTheFirstError : Prop :=
  (∀ (s : State) (c : ErrorCode),
    s.raiseEnc c = if s.enc.state = .fault then s
      else { s with enc := { s.enc with state := .fault, err := c } }) ∧
  (∀ (s : State) (c : ErrorCode),
    s.raiseDec c none = if s.dec.state = .failed then s
      else { s with dec := { s.dec with state := .failed, err := c } }) ∧
  (∀ (s : State) (c : ErrorCode) (q : BitVec 35),
    s.raiseDec c (some q) = if s.dec.state = .failed then s
      else { s with dec := { s.dec with
        state := .failed, err := c, errByte := BitVec.ofNat 32 (q.toNat / 8),
        errBit := BitVec.ofNat 3 (q.toNat % 8) } })

/-- Return from an error (R202): a step that leaves FAULT or FAILED is a START at the front of that engine's port
or a reset; a step that stays in it keeps the recorded error; START clears ERR and the position. -/
def Obligations.OnlyStartOrResetLeavesTheErrorState : Prop :=
  (∀ s t : State, step s = .next t → s.enc.state = .fault →
    (t.enc.state = .fault → t.enc.err = s.enc.err) ∧
    (t.enc.state ≠ .fault →
      (∃ pw rest f, s.encPort = pw :: rest ∧ decode .enc pw.word = .instr (.encStart f)) ∨
      ∃ d rest, s.nextArrival = some (.reset d, rest))) ∧
  (∀ s t : State, step s = .next t → s.dec.state = .failed →
    (t.dec.state = .failed →
      t.dec.err = s.dec.err ∧ t.dec.errByte = s.dec.errByte ∧ t.dec.errBit = s.dec.errBit) ∧
    (t.dec.state ≠ .failed →
      (∃ pw rest i, s.decPort = pw :: rest ∧ decode .dec pw.word = .instr i ∧
        (i = .decStart ∨ ∃ n, i = .decStartMax n)) ∨
      ∃ d rest, s.nextArrival = some (.reset d, rest))) ∧
  (∀ (s t : State) (f : Bool), exec (.encStart f) s = .next t → t.enc.err = .none) ∧
  (∀ (s t : State) (i : Instr), (i = .decStart ∨ ∃ n, i = .decStartMax n) → exec i s = .next t →
    t.dec.err = .none ∧ t.dec.errByte = 0 ∧ t.dec.errBit = 0)

/-! ### Frames and independence -/

/-- A command changes only its own engine: the other engine, the ROM and parameters (all of memory), and the host
side stay as they are. -/
def Obligations.CommandTouchesOnlyItsEngine : Prop :=
  ∀ (i : Instr) (s t : State), exec i s = .next t →
    SameOutside s t ∧ (i.port = .enc → t.dec = s.dec) ∧ (i.port = .dec → t.enc = s.enc)

/-- Each register changes only by the commands that 10_state.md R50 lists for it, and a queue only grows at its tail.
A fault of R50 is the entry into FAULT or FAILED from another state, by a command that 60_exceptions.md R191 names
for the error then recorded; a data fault is one whose error is INVALID_CODE, INVALID_PADDING or OUTPUT_TOO_LARGE
(10_state.md R38). FINISH changes STATE only where it ends a session, to DONE. (An illegal word, which is no command,
is the subject of IllegalWordRaisesIllegalCommand.) -/
def Obligations.RegistersChangeOnlyAsListed : Prop :=
  ∀ (i : Instr) (s t : State), exec i s = .next t →
    (t.enc.sizeOnly ≠ s.enc.sizeOnly → ∃ f, i = .encStart f) ∧
    (t.enc.pend ≠ s.enc.pend → (∃ f, i = .encStart f) ∨ (∃ b, i = .encByte b) ∨ i = .encFinish) ∧
    (t.enc.inCount ≠ s.enc.inCount ∨ t.enc.totalBits ≠ s.enc.totalBits →
      (∃ f, i = .encStart f) ∨ ∃ b, i = .encByte b) ∧
    (t.enc.tblCode ≠ s.enc.tblCode ∨ t.enc.tblLen ≠ s.enc.tblLen → ∃ id, i = .encTblrd id) ∧
    (t.enc.err ≠ s.enc.err → (∃ f, i = .encStart f) ∨ EncFaults i s t) ∧
    (t.enc.state ≠ s.enc.state → (∃ f, i = .encStart f) ∨
      (i = .encFinish ∧ s.enc.state = .active ∧ t.enc.state = .done) ∨ EncFaults i s t) ∧
    (∃ bs, t.enc.outq = s.enc.outq ++ bs ∧ (bs ≠ [] → (∃ b, i = .encByte b) ∨ i = .encFinish)) ∧
    (t.dec.limitEn ≠ s.dec.limitEn ∨ t.dec.maxlen ≠ s.dec.maxlen → IsDecStart i) ∧
    (t.dec.pend ≠ s.dec.pend → IsDecStart i ∨ (∃ b, i = .decByte b) ∨ i = .decFinish) ∧
    (t.dec.inCount ≠ s.dec.inCount ∨ t.dec.outCount ≠ s.dec.outCount → IsDecStart i ∨ ∃ b, i = .decByte b) ∧
    (t.dec.err ≠ s.dec.err → IsDecStart i ∨ DecFaults i s t) ∧
    (t.dec.errByte ≠ s.dec.errByte ∨ t.dec.errBit ≠ s.dec.errBit →
      IsDecStart i ∨ (DecFaults i s t ∧ t.dec.err.isData = true)) ∧
    (t.dec.state ≠ s.dec.state → IsDecStart i ∨
      (i = .decFinish ∧ s.dec.state = .scanning ∧ t.dec.state = .done) ∨ DecFaults i s t) ∧
    (∃ bs, t.dec.outq = s.dec.outq ++ bs ∧ (bs ≠ [] → ∃ b, i = .decByte b))

/-- Commands of the two engines commute: no order between them is observable in the engines (R200). -/
def Obligations.CommandsOfTheTwoEnginesCommute : Prop :=
  ∀ (i j : Instr) (s t u : State), i.port = .enc → j.port = .dec →
    exec i s = .next t → exec j t = .next u → ∃ v, exec j s = .next v ∧ exec i v = .next u

/-- The queue's content decides only when a command executes, never what it writes (41_encoder.md R130 for the
encoder, and for the decoder what 42_decoder.md R157 and 70_reset_and_hazards.md R230 say of DEC.BYTE): with another
queue in which it is not held either, it appends the same bytes and leaves every other register the same. -/
def Obligations.QueueDecidesOnlyWhen : Prop :=
  ∀ (i : Instr) (s t : State) (q : List Byte),
    isHeld i s = false → isHeld i (s.setOutq i.port q) = false → exec i s = .next t →
    ∃ bs, t.outq i.port = s.outq i.port ++ bs ∧
      exec i (s.setOutq i.port q) = .next (t.setOutq i.port (q ++ bs))

/-- No counter wraps (R196): a command that does not begin a session leaves every counter as it is or larger. -/
def Obligations.CountersNeverWrap : Prop :=
  ∀ (i : Instr) (s t : State), Invariant s → exec i s = .next t →
    ((∀ f, i ≠ .encStart f) →
      s.enc.inCount.toNat ≤ t.enc.inCount.toNat ∧ s.enc.totalBits.toNat ≤ t.enc.totalBits.toNat) ∧
    (i ≠ .decStart → (∀ n, i ≠ .decStartMax n) →
      s.dec.inCount.toNat ≤ t.dec.inCount.toNat ∧ s.dec.outCount.toNat ≤ t.dec.outCount.toNat)

/-! ### The output-queue hold -/

/-- The hold (R230): exactly when a command is held, that it then does nothing, and that its write then stays at
its port. -/
def Obligations.HeldCommandDoesNothing : Prop :=
  (∀ (b : Byte) (s : State), isHeld (.encByte b) s = true ↔
    s.enc.state = .active ∧ s.enc.sizeOnly = false ∧
      ∃ e, tableRead s.cfg.table b.toNat = some e ∧ s.enc.totalBits.toNat + e.len.toNat ≤ 2 ^ 32 - 1 ∧
        s.free .enc < (s.enc.pend.length + e.len.toNat) / 8) ∧
  (∀ s : State, isHeld .encFinish s = true ↔
    s.enc.state = .active ∧ s.enc.sizeOnly = false ∧ s.enc.pend ≠ [] ∧
      (∃ e, tableRead s.cfg.table 256 = some e) ∧ s.free .enc < 1) ∧
  (∀ (b : Byte) (s : State), isHeld (.decByte b) s = true ↔
    s.dec.state = .scanning ∧ s.dec.inCount.toNat < 2 ^ 32 - 1 ∧
      s.free .dec < (scanByte s.cfg.table s.dec b).emitted.length) ∧
  (∀ (i : Instr) (s : State), isHeld i s = true →
    (i = .encFinish ∨ (∃ b, i = .encByte b) ∨ ∃ b, i = .decByte b) ∧ exec i s = .next s) ∧
  (∀ (p : Port) (s : State) (pw : PortWrite) (rest : List PortWrite) (i : Instr),
    s.waiting p = pw :: rest → decode p pw.word = .instr i → isHeld i s = true →
    engineTurn p s = .next s)

/-- With 4, 1 and 2 free bytes, ENC.BYTE, ENC.FINISH and DEC.BYTE are not held (R231), and they never append more
than that (00_scope.md R6). -/
def Obligations.EnoughFreeSpaceNeverHolds : Prop :=
  ∀ (s : State) (b : Byte), Invariant s →
    (4 ≤ s.free .enc → isHeld (.encByte b) s = false) ∧
    (1 ≤ s.free .enc → isHeld .encFinish s = false) ∧
    (2 ≤ s.free .dec → isHeld (.decByte b) s = false) ∧
    (∀ t, exec (.encByte b) s = .next t → t.enc.outq.length ≤ s.enc.outq.length + 4) ∧
    (∀ t, exec .encFinish s = .next t → t.enc.outq.length ≤ s.enc.outq.length + 1) ∧
    (∀ t, exec (.decByte b) s = .next t → t.dec.outq.length ≤ s.dec.outq.length + 2)

/-- The deadlock (R231): a machine whose only waiting write is held, while everything the host will still do is an
access of the very thread that write blocks, has no further step. And the machine has no other fault than a stuck
state. (What the host will still do is the model's field `arrivals`, log entry 2.) -/
def Obligations.BlockedSingleThreadIsStuck : Prop :=
  (∀ (s : State) (p : Port) (pw : PortWrite) (i : Instr),
    paramsWf s.cfg = true → s.waiting p = [pw] → s.waiting p.other = [] →
    decode p pw.word = .instr i → isHeld i s = true →
    (∀ a ∈ s.arrivals, ∃ x, a = .access pw.thread x) →
    step s = .fault .outputQueueDeadlock) ∧
  (∀ (s : State) (f : Fault), step s = .fault f ↔ paramsWf s.cfg = true ∧ Stuck s)

/-- With nothing waiting and nothing more from the host, the machine holds its state (R210). -/
def Obligations.IdleMachineHoldsItsState : Prop :=
  ∀ s : State, paramsWf s.cfg = true → s.encPort = [] → s.decPort = [] → s.arrivals = [] → step s = .next s

/-! ### The host interface -/

/-- The register map (10_state.md R42): each offset's register; a write reaches an engine only at 0x00 and 0x40;
a write-only register reads 0. -/
def Obligations.RegisterMapIsAsListed : Prop :=
  (allRegs.map fun r => (regOffset r, r)) =
    [(0x00, .encCmd), (0x04, .encStatus), (0x08, .encAcc), (0x0C, .encInCount), (0x10, .encTotalBits),
     (0x14, .encSize), (0x18, .encTblCode), (0x1C, .encTblLen), (0x20, .encOut), (0x24, .encOutqLevel),
     (0x40, .decCmd), (0x44, .decStatus), (0x48, .decPend), (0x4C, .decInCount), (0x50, .decOutCount),
     (0x54, .decMaxlen), (0x58, .decErrByte), (0x5C, .decErrBit), (0x60, .decOut), (0x64, .decOutqLevel),
     (0x78, .coreParams), (0x7C, .coreId)] ∧
  (∀ r, regAt (regOffset r) = some r) ∧
  (∀ off, writeTarget off 32 = if off = 0x00 then some .enc else if off = 0x40 then some .dec else none) ∧
  (∀ s : State, s.readWord 0x00 32 = 0 ∧ s.readWord 0x40 32 = 0)

/-- Accesses of a mapped register, 32 bits wide at its offset: a read returns the register's value and has its effect
(10_state.md R42); only a read of ENC_OUT or DEC_OUT has an effect (20_memory.md R69, 70_reset_and_hazards.md R239);
a write to any register but ENC_CMD and DEC_CMD is ignored (R42, R69). What the access returns to the host shows in
the model's own field `lastReply` (log entry 4). -/
def Obligations.RegisterAccessesAreServed : Prop :=
  (∀ (s : State) (t : Nat) (r : Reg),
    serve (.access t (.read (s.cfg.huffBase + regOffset r) 32)) s =
      .next { s.readEffect (regOffset r) 32 with lastReply := some (.readData t (s.readWord (regOffset r) 32)) }) ∧
  (∀ (s : State) (t : Nat) (r : Reg), r ≠ .encOut → r ≠ .decOut →
    serve (.access t (.read (s.cfg.huffBase + regOffset r) 32)) s =
      .next { s with lastReply := some (.readData t (s.readWord (regOffset r) 32)) }) ∧
  (∀ (s : State) (t : Nat) (r : Reg) (v : Word), r ≠ .encCmd → r ≠ .decCmd →
    serve (.access t (.write (s.cfg.huffBase + regOffset r) 32 v)) s =
      .next { s with lastReply := some (.writeDone t) })

/-- Unmapped offsets (20_memory.md R65): a read returns 0, a write is ignored, and neither has another effect
(the model's field `lastReply` carries what the access returns, log entry 4). -/
def Obligations.UnmappedOffsetsAreInert : Prop :=
  ∀ (s : State) (t off width : Nat) (v : Word),
    off ∉ [0x00, 0x04, 0x08, 0x0C, 0x10, 0x14, 0x18, 0x1C, 0x20, 0x24, 0x40, 0x44, 0x48, 0x4C, 0x50, 0x54,
      0x58, 0x5C, 0x60, 0x64, 0x78, 0x7C] → off < 128 →
    serve (.access t (.read (s.cfg.huffBase + off) width)) s =
      .next { s with lastReply := some (.readData t 0) } ∧
    serve (.access t (.write (s.cfg.huffBase + off) width v)) s =
      .next { s with lastReply := some (.writeDone t) }

/-- Accesses that are not 32 bits wide at a multiple of 4 (R67): a write is ignored, a read returns 0 with no side
effect (the model's field `lastReply` carries what the access returns, log entry 4). -/
def Obligations.SubwordAndMisalignedAccessesAreInert : Prop :=
  ∀ (s : State) (t off width : Nat) (v : Word), off < 128 → width ≠ 32 ∨ off % 4 ≠ 0 →
    serve (.access t (.read (s.cfg.huffBase + off) width)) s =
      .next { s with lastReply := some (.readData t 0) } ∧
    serve (.access t (.write (s.cfg.huffBase + off) width v)) s =
      .next { s with lastReply := some (.writeDone t) }

/-- The pop registers (R46): a read of ENC_OUT or DEC_OUT with a byte queued returns it with VALID set and removes
it, an empty queue reads 0 and nothing changes; the level registers read the level and change nothing. -/
def Obligations.PopRegistersPopOneByte : Prop :=
  (∀ (s : State) (b : Byte) (q : List Byte), s.enc.outq = b :: q →
    (s.readWord 0x20 32).toNat = 256 + b.toNat ∧
    s.readEffect 0x20 32 = { s with enc := { s.enc with outq := q } }) ∧
  (∀ s : State, s.enc.outq = [] → s.readWord 0x20 32 = 0 ∧ s.readEffect 0x20 32 = s) ∧
  (∀ (s : State) (b : Byte) (q : List Byte), s.dec.outq = b :: q →
    (s.readWord 0x60 32).toNat = 256 + b.toNat ∧
    s.readEffect 0x60 32 = { s with dec := { s.dec with outq := q } }) ∧
  (∀ s : State, s.dec.outq = [] → s.readWord 0x60 32 = 0 ∧ s.readEffect 0x60 32 = s) ∧
  (∀ s : State, s.enc.outq.length ≤ 255 →
    (s.readWord 0x24 32).toNat = s.enc.outq.length ∧ s.readEffect 0x24 32 = s) ∧
  (∀ s : State, s.dec.outq.length ≤ 255 →
    (s.readWord 0x64 32).toNat = s.dec.outq.length ∧ s.readEffect 0x64 32 = s)

/-- ENC_STATUS (R43): each field at its place. -/
def Obligations.EncStatusLayout : Prop :=
  ∀ s : State, s.enc.pend.length ≤ 7 →
    (s.readWord 0x04 32).toNat =
      (match s.enc.state with | .idle => 0 | .active => 1 | .done => 2 | .fault => 3) +
      4 * s.enc.sizeOnly.toNat + 16 * s.enc.pend.length +
      256 * (match s.enc.err with
        | .none => 0x00 | .invalidCode => 0x01 | .invalidPadding => 0x02 | .outputTooLarge => 0x03
        | .illegalCommand => 0x10 | .badSequence => 0x11 | .badSymbolId => 0x12 | .countOverflow => 0x13)

/-- The other encoder registers (R44, R45): ENC_ACC is the value of the pending bits, oldest bit at NBITS − 1;
the counters and ENC_TBL_CODE read whole; ENC_SIZE is computed; ENC_TBL_LEN is in the low bits. -/
def Obligations.EncRegisterReads : Prop :=
  ∀ s : State, s.enc.pend.length ≤ 7 →
    (s.readWord 0x08 32).toNat = valOf s.enc.pend ∧ (s.enc.pend = [] → s.readWord 0x08 32 = 0) ∧
    s.readWord 0x0C 32 = s.enc.inCount ∧ s.readWord 0x10 32 = s.enc.totalBits ∧
    (s.readWord 0x14 32).toNat = (s.enc.totalBits.toNat + 7) / 8 ∧
    s.readWord 0x18 32 = s.enc.tblCode ∧ (s.readWord 0x1C 32).toNat = s.enc.tblLen.toNat

/-- The decoder registers (R47), DEC_OUT and DEC_OUTQ_LEVEL among them. -/
def Obligations.DecRegisterReads : Prop :=
  (∀ s : State, s.dec.pend.length ≤ 29 →
    (s.readWord 0x44 32).toNat =
      (match s.dec.state with | .idle => 0 | .scanning => 1 | .done => 2 | .failed => 3) +
      4 * s.dec.limitEn.toNat + 256 * s.dec.pend.length +
      65536 * (match s.dec.err with
        | .none => 0x00 | .invalidCode => 0x01 | .invalidPadding => 0x02 | .outputTooLarge => 0x03
        | .illegalCommand => 0x10 | .badSequence => 0x11 | .badSymbolId => 0x12 | .countOverflow => 0x13) ∧
    (s.readWord 0x48 32).toNat = valOf s.dec.pend) ∧
  (∀ s : State, s.readWord 0x4C 32 = s.dec.inCount ∧ s.readWord 0x50 32 = s.dec.outCount ∧
    (s.readWord 0x54 32).toNat = s.dec.maxlen.toNat ∧ s.readWord 0x58 32 = s.dec.errByte ∧
    (s.readWord 0x5C 32).toNat = s.dec.errBit.toNat) ∧
  (∀ s : State, s.dec.outq = [] → s.readWord 0x60 32 = 0) ∧
  (∀ (s : State) (b : Byte) (q : List Byte), s.dec.outq = b :: q →
    (s.readWord 0x60 32).toNat = 256 + b.toNat) ∧
  (∀ s : State, s.dec.outq.length ≤ 255 → (s.readWord 0x64 32).toNat = s.dec.outq.length)

/-- The constant registers (R48): their values, and that no step, reset included, changes them. -/
def Obligations.ConstantRegistersNeverChange : Prop :=
  (∀ s : State, s.readWord 0x7C 32 = 0x48554631) ∧
  (∀ s : State, rangesOk s.cfg = true → (s.readWord 0x78 32).toNat =
    s.cfg.outqDepth + 256 * s.cfg.maxPadBits + 65536 * 5 + 16777216 * 30) ∧
  State.reset.readWord 0x78 32 = 0x1E051D08 ∧
  (∀ s t : State, step s = .next t →
    t.readWord 0x7C 32 = s.readWord 0x7C 32 ∧ t.readWord 0x78 32 = s.readWord 0x78 32)

/-- Byte lanes (R66): the byte at HUFF_BASE + off + k holds bits [8k+7 : 8k] of the register at `off`. -/
def Obligations.RegisterBytesAreLittleEndian : Prop :=
  ∀ (s : State) (r : Reg) (k : Nat), k < 4 →
    s.laneAt (s.cfg.huffBase + regOffset r + k) = some ((s.regValue r).extractLsb' (8 * k) 8)

/-- A command word written to ENC_CMD or DEC_CMD joins the writes waiting at that port, whole, and nothing else
changes: the word is delivered at once (20_memory.md R68), and its write has not completed (R72). That it joins at
the tail also where other threads' writes wait or are held there is log entry 7 (DEDUCED); that the thread has no
reply yet shows in the model's own field `lastReply`, which keeps its value (log entry 4). -/
def Obligations.CommandWriteWaitsAtItsPort : Prop :=
  ∀ (s : State) (t : Nat) (w : Word),
    serve (.access t (.write s.cfg.huffBase 32 w)) s =
      .next { s with encPort := s.encPort ++ [⟨t, w⟩] } ∧
    serve (.access t (.write (s.cfg.huffBase + 0x40) 32 w)) s =
      .next { s with decPort := s.decPort ++ [⟨t, w⟩] }

/-- Blocking writes and program order (R72, R73): what is served next is no access of a thread with a write that
has not completed, and everything of the host's that comes before it stays in order, and is such an access. -/
def Obligations.BlockedThreadsMakeNoAccess : Prop :=
  ∀ (s : State) (a : Arrival) (rest : List Arrival), s.nextArrival = some (a, rest) →
    (∀ t x, a = .access t x → ∀ pw, pw ∈ s.encPort ∨ pw ∈ s.decPort → pw.thread ≠ t) ∧
    ∃ before after, s.arrivals = before ++ a :: after ∧ rest = before ++ after ∧
      ∀ y ∈ before, ∃ t x pw, y = .access t x ∧ (pw ∈ s.encPort ∨ pw ∈ s.decPort) ∧ pw.thread = t

/-- Commands on a port execute in arrival order (20_memory.md R73): a step leaves a port's waiting writes as they
are; or takes the one at their head, whose thread then has its reply; or adds at their tail the command word that the
host's next arrival writes to that port; or, where the next arrival is a reset that says so, drops them all. In the
second and the third case the other port's writes stay. That writes of other threads join while one waits is log
entry 7 (DEDUCED); what reset does to waiting writes is log entry 5; the reply is the model's field `lastReply`, log
entry 4. -/
def Obligations.PortsServeInArrivalOrder : Prop :=
  ∀ (s t : State) (p : Port), step s = .next t →
    t.waiting p = s.waiting p ∨
    (∃ pw, s.waiting p = pw :: t.waiting p ∧ t.waiting p.other = s.waiting p.other ∧
      t.lastReply = some (.writeDone pw.thread)) ∨
    (∃ th w rest, s.nextArrival =
        some (.access th (.write (s.cfg.huffBase + if p = .enc then 0x00 else 0x40) 32 w), rest) ∧
      t.waiting p = s.waiting p ++ [⟨th, w⟩] ∧ t.waiting p.other = s.waiting p.other) ∨
    (∃ rest, s.nextArrival = some (.reset true, rest) ∧ t.waiting p = [])

/-! ### Reset, the table and the configuration -/

/-- Reset (70_reset_and_hazards.md R220), from any state: both engines at the values of 10_state.md R50, the table
and the constant registers unchanged, whatever reset does to waiting writes (log entry 5). The machine right after
reset has those values too. -/
def Obligations.ResetSetsEveryEngineRegister : Prop :=
  (∀ (s : State) (d : Bool), ∃ t, serve (.reset d) s = .next t ∧
    t.enc =
      { state := .idle, sizeOnly := false, pend := [], inCount := 0, totalBits := 0, err := .none,
        tblCode := 0, tblLen := 0, outq := [] } ∧
    t.dec =
      { state := .idle, limitEn := false, maxlen := 0, pend := [], inCount := 0, outCount := 0,
        err := .none, errByte := 0, errBit := 0, outq := [] } ∧
    t.cfg = s.cfg ∧ t.readWord 0x78 32 = s.readWord 0x78 32 ∧ t.readWord 0x7C 32 = s.readWord 0x7C 32) ∧
  State.reset.enc =
    { state := .idle, sizeOnly := false, pend := [], inCount := 0, totalBits := 0, err := .none,
      tblCode := 0, tblLen := 0, outq := [] } ∧
  State.reset.dec =
    { state := .idle, limitEn := false, maxlen := 0, pend := [], inCount := 0, outCount := 0,
      err := .none, errByte := 0, errBit := 0, outq := [] }

/-- The ROM (R49): it holds the R103 table from power-up, and no step changes it or a parameter. -/
def Obligations.TableIsNeverChanged : Prop :=
  State.reset.cfg.table = huffcoreTable ∧ ∀ s t : State, step s = .next t → t.cfg = s.cfg

/-- The configuration check (40_symbol_table.md R101, 60_exceptions.md R198): a step is refused as malformed
exactly where one of the five checks of R101 fails (with the other parameters in range). -/
def Obligations.MalformedTableIsRefused : Prop :=
  ∀ s : State, rangesOk s.cfg = true →
    (step s = .refused .malformedTable ↔
      ¬ (s.cfg.table.length = 257 ∧
        (∀ e ∈ s.cfg.table, 5 ≤ e.len.toNat ∧ e.len.toNat ≤ 30) ∧
        (∀ e ∈ s.cfg.table, e.code.toNat < 2 ^ e.len.toNat) ∧
        (∀ (i j : Nat) (e f : SymbolEntry), s.cfg.table[i]? = some e → s.cfg.table[j]? = some f → i ≠ j →
          ¬ e.codeword <+: f.codeword) ∧
        (∀ e, s.cfg.table[256]? = some e → 7 ≤ e.len.toNat)))

/-- HUFFCORE's table passes the check; its EOS entry is `0x3FFFFFFF` of 30 bits, so `take(k, cw(256))` is ones for
`k ≤ 30`; the other 30-bit symbols are 10, 13 and 22, and they are the only other ones that begin with 28 ones
(R106). -/
def Obligations.HuffcoreTableIsLegal : Prop :=
  paramsWf huffcoreParams = true ∧ tableRead huffcoreTable 256 = some ⟨0x3FFFFFFF, 30⟩ ∧
  codewordOf huffcoreTable 256 = ones 30 ∧
  (∀ k, k ≤ 30 → (codewordOf huffcoreTable 256).take k = ones k) ∧
  (∀ id, id < 256 → (lengthOf huffcoreTable id = 30 ↔ id ∈ [10, 13, 22])) ∧
  (∀ id, id < 256 → (ones 28 <+: codewordOf huffcoreTable id ↔ id ∈ [10, 13, 22]))

/-- The canonical structure of R103's table (R104), with R104's own list of the symbols of each length: each row's
symbols are in id order, as many as its count, with consecutive codes from its first to its last; the first row
begins at code 0, and each further one at `(last + 1) << (L - L')` of the row before it; every symbol is in a row, and
no length is one that R104 excludes; the Kraft sum is 1, here in units of `2^-30`. -/
def Obligations.HuffcoreTableIsCanonical : Prop :=
  (∀ r ∈ lengthRows, r.ids.length = r.count ∧ r.ids.Pairwise (· < ·) ∧ r.last + 1 = r.first + r.count ∧
    ∀ (k id : Nat), r.ids[k]? = some id →
      (tableRead huffcoreTable id).map (fun e => (e.len.toNat, e.code.toNat)) = some (r.len, r.first + k)) ∧
  (lengthRows[0]?.map fun r => (r.len, r.first)) = some (5, 0) ∧
  (∀ (k : Nat) (r q : LengthRow), lengthRows[k]? = some r → lengthRows[k + 1]? = some q →
    r.len < q.len ∧ q.first = (r.last + 1) <<< (q.len - r.len)) ∧
  (∀ id, id ≤ 256 → ∃ r ∈ lengthRows, id ∈ r.ids) ∧ (lengthRows.map LengthRow.count).sum = 257 ∧
  (∀ e ∈ huffcoreTable, e.len.toNat ∉ [9, 16, 17, 18, 29]) ∧
  (huffcoreTable.map fun e => 2 ^ (30 - e.len.toNat)).sum = 2 ^ 30

/-- HUFFCORE's code is complete (R105): every bit string begins with exactly one codeword or is a strict prefix of
one, so the NOMATCH case is unreachable with its table. -/
def Obligations.HuffcoreCodeIsComplete : Prop :=
  ∀ s : BitString, matchBits huffcoreTable s ≠ .noMatch ∧
    ((∃ (i : Nat) (e : SymbolEntry), huffcoreTable[i]? = some e ∧ e.codeword <+: s ∧
        ∀ (j : Nat) (f : SymbolEntry), huffcoreTable[j]? = some f → f.codeword <+: s → j = i) ∨
      ∃ e ∈ huffcoreTable, s <+: e.codeword ∧ s.length < e.len.toNat)

/-- `Match` (42_decoder.md R155) under a well-formed table: SYM exactly for a codeword that is a prefix, which is
unique; NEED exactly for a strict prefix of a codeword that contains none; NOMATCH otherwise; `Match(ε) = NEED`. -/
def Obligations.MatchIsTheReference : Prop :=
  ∀ (T : Table) (s : BitString), tableWf T = true →
    matchBits T [] = .need ∧
    (∀ i e, matchBits T s = .sym i e ↔ T[i]? = some e ∧ e.codeword <+: s) ∧
    (matchBits T s = .need ↔
      (∀ e ∈ T, ¬ e.codeword <+: s) ∧ ∃ e ∈ T, s <+: e.codeword ∧ s.length < e.len.toNat) ∧
    (matchBits T s = .noMatch ↔
      (∀ e ∈ T, ¬ e.codeword <+: s) ∧ ∀ e ∈ T, s <+: e.codeword → ¬ s.length < e.len.toNat)

/-! ### Invariants -/

/-- The invariant holds right after reset. -/
def Obligations.InvariantHoldsAtReset : Prop := Invariant State.reset

/-- Every step from a state that has the invariant gives a state that has it. -/
def Obligations.EveryStepKeepsTheInvariant : Prop :=
  ∀ s t : State, Invariant s → step s = .next t → Invariant t

/-! ### Sessions compute the reference functions -/

/-- The padding of `Encode` (41_encoder.md R121, R122, R131): its bits are the code bits and the high-order EOS
bits, at most 7 of them and none when the code bits fill whole bytes; its length is the encoded size. -/
def Obligations.EncodePadsMinimally : Prop :=
  ∀ (T : Table) (S : List Byte), tableWf T = true →
    streamBits (encodeRef T S) =
      codeBits T S ++ (codewordOf T 256).take ((8 - totalLength T S % 8) % 8) ∧
    (encodeRef T S).length = encodedSize T S ∧
    8 * (encodeRef T S).length - totalLength T S ≤ 7 ∧
    (totalLength T S % 8 = 0 → 8 * (encodeRef T S).length = totalLength T S)

/-- An encoding session computes `Encode` and `EncodedSize` (R127): run with every byte popped, START, the bytes,
FINISH give exactly the bytes of `Encode(S)`, and ENC_SIZE is `EncodedSize(S)`; in SIZE_ONLY mode no byte and the
same size; before FINISH, the bytes emitted so far and the pending bits are the code bits. -/
def Obligations.EncoderSessionComputesEncode : Prop :=
  ∀ (s : State) (S : List Byte), paramsWf s.cfg = true → s.enc.outq = [] →
    totalLength s.cfg.table S ≤ 2 ^ 32 - 1 →
    (∃ t, runDraining .enc (encSession false S) s = some (encodeRef s.cfg.table S, t) ∧
      t.enc.state = .done ∧ (t.readWord 0x14 32).toNat = encodedSize s.cfg.table S) ∧
    (∃ t, runDraining .enc (encSession true S) s = some ([], t) ∧
      t.enc.state = .done ∧ (t.readWord 0x14 32).toNat = encodedSize s.cfg.table S) ∧
    (∃ out t, runDraining .enc (.encStart false :: S.map Instr.encByte) s = some (out, t) ∧
      t.enc.state = .active ∧ streamBits out ++ t.enc.pend = codeBits s.cfg.table S)

/-- A decoding session computes `Decode` (42_decoder.md R159): run with every byte popped, it completes, and unless
a counter overflowed it ends DONE with exactly the reference's output, or FAILED with the reference's error kind
and position, having emitted exactly the bytes whose codewords come before that position. -/
def Obligations.DecoderSessionComputesDecode : Prop :=
  ∀ (s : State) (C : List Byte) (M : Option (BitVec 24)),
    paramsWf s.cfg = true → s.dec.outq = [] →
    ∃ bs t, runDraining .dec (decSession M C) s = some (bs, t) ∧
      (t.dec.err ≠ .countOverflow →
        match decodeRef s.cfg.table s.cfg.maxPadBits C (M.map BitVec.toNat) with
        | .ok out => t.dec.state = .done ∧ bs = out
        | .error k p => t.dec.state = .failed ∧ t.dec.err = k ∧
            8 * t.dec.errByte.toNat + t.dec.errBit.toNat = p ∧
            ∃ r, streamBits C = codeBits s.cfg.table bs ++ r ∧ totalLength s.cfg.table bs = p)

/-- The round trip (R161): for every byte sequence, decoding its encoding gives it back, with no limit and with any
limit that is at least its length; with HUFFCORE's table and MAX_PAD_BITS, and with every legal configuration whose
EOS codeword has at least 8 bits. (The rule's reason "the padding is a strict prefix of `cw(256)`" needs that: with
`len_256 = 7`, which R101 admits, 7 padding bits are the EOS codeword itself.) -/
def Obligations.DecodeOfEncodeIsTheInput : Prop :=
  (∀ S : List Byte,
    decodeRef huffcoreTable 29 (encodeRef huffcoreTable S) none = .ok S ∧
    ∀ M, S.length ≤ M → decodeRef huffcoreTable 29 (encodeRef huffcoreTable S) (some M) = .ok S) ∧
  ∀ (P : Params) (S : List Byte), paramsWf P = true → 8 ≤ lengthOf P.table 256 →
    decodeRef P.table P.maxPadBits (encodeRef P.table S) none = .ok S ∧
    ∀ M, S.length ≤ M → decodeRef P.table P.maxPadBits (encodeRef P.table S) (some M) = .ok S

/-- The bounds of decoding (R162, R34): under the invariant the decoder holds at most 29 pending bits and has
emitted at most 8/5 of the bits it was given, and at most MAXLEN bytes under a limit. -/
def Obligations.DecoderOutputIsBounded : Prop :=
  ∀ s t : State, Invariant s → step s = .next t →
    t.dec.pend.length ≤ 29 ∧ t.dec.outCount.toNat ≤ 8 * t.dec.inCount.toNat / 5 ∧
      (t.dec.limitEn = true → t.dec.outCount.toNat ≤ t.dec.maxlen.toNat)
end

