-- ==== Sys2Proof/Laws/Bits.lean ====
section
/-! SUPPORT. The bit-string primitives (00_scope.md R8): lengths, `val` and `bits` are inverse, and packing into
bytes loses no bit. -/

namespace Sys2Proof.Machine

@[simp] theorem bitsOf_length (n v : Nat) : (bitsOf n v).length = n := by
  induction n with
  | zero => rfl
  | succ n ih => simp [bitsOf, ih]

@[simp] theorem byteBits_length (b : Byte) : (byteBits b).length = 8 := bitsOf_length 8 _

@[simp] theorem ones_length (n : Nat) : (ones n).length = n := by simp [ones]

theorem valOf_lt (s : BitString) : valOf s < 2 ^ s.length := by
  induction s with
  | nil => simp [valOf]
  | cons b s ih => cases b <;> simp [valOf, Nat.pow_succ] <;> omega

theorem valOf_append (s t : BitString) : valOf (s ++ t) = valOf s * 2 ^ t.length + valOf t := by
  induction s with
  | nil => simp [valOf]
  | cons b s ih => simp [valOf, ih, Nat.pow_add, Nat.add_mul, Nat.mul_assoc, Nat.add_assoc]

theorem valOf_bitsOf (n v : Nat) : valOf (bitsOf n v) = v % 2 ^ n := by
  induction n with
  | zero => simp [bitsOf, valOf, Nat.mod_one]
  | succ n ih =>
    simp only [bitsOf, valOf, bitsOf_length, ih]
    rw [Nat.mod_pow_succ, Nat.add_comm, Nat.mul_comm, Nat.toNat_testBit]

/-- A bit string is determined by its length and its value. -/
theorem valOf_inj {s t : BitString} (hl : s.length = t.length) (hv : valOf s = valOf t) : s = t := by
  induction s generalizing t with
  | nil => cases t with
    | nil => rfl
    | cons _ _ => simp at hl
  | cons a s ih => cases t with
    | nil => simp at hl
    | cons b t =>
      have hl' : s.length = t.length := by simpa using hl
      have h1 := valOf_lt s
      have h2 := valOf_lt t
      simp only [valOf, hl'] at hv h1
      cases a <;> cases b <;> simp at hv
      · rw [ih hl' hv]
      · omega
      · omega
      · rw [ih hl' hv]

theorem bitsOf_valOf (s : BitString) : bitsOf s.length (valOf s) = s := by
  apply valOf_inj (by simp)
  rw [valOf_bitsOf, Nat.mod_eq_of_lt (valOf_lt s)]

theorem bitsOf_inj {n u v : Nat} (hu : u < 2 ^ n) (hv : v < 2 ^ n) (h : bitsOf n u = bitsOf n v) :
    u = v := by
  have := congrArg valOf h
  rwa [valOf_bitsOf, valOf_bitsOf, Nat.mod_eq_of_lt hu, Nat.mod_eq_of_lt hv] at this

/-- A group of 8 bits survives the trip through a byte. -/
theorem byteBits_byteOf {s : BitString} (h : s.length = 8) : byteBits (byteOf s) = s := by
  have hlt : valOf s < 2 ^ 8 := h ▸ valOf_lt s
  have hn : (byteOf s).toNat = valOf s := by simpa [byteOf] using hlt
  rw [byteBits, hn, ← h, bitsOf_valOf]

theorem byteOf_byteBits (b : Byte) : byteOf (byteBits b) = b := by
  apply BitVec.eq_of_toNat_eq
  simp [byteOf, byteBits, valOf_bitsOf]
  omega

theorem byteBits_inj {a b : Byte} (h : byteBits a = byteBits b) : a = b := by
  rw [← byteOf_byteBits a, h, byteOf_byteBits]

@[simp] theorem streamBits_nil : streamBits [] = [] := rfl

@[simp] theorem streamBits_cons (b : Byte) (bs : List Byte) :
    streamBits (b :: bs) = byteBits b ++ streamBits bs := rfl

@[simp] theorem streamBits_append (as bs : List Byte) :
    streamBits (as ++ bs) = streamBits as ++ streamBits bs := by simp [streamBits]

@[simp] theorem streamBits_length (bs : List Byte) : (streamBits bs).length = 8 * bs.length := by
  induction bs with
  | nil => rfl
  | cons b bs ih => simp [ih]; omega

/-- A byte sequence is determined by its bits. -/
theorem streamBits_inj {as bs : List Byte} (h : streamBits as = streamBits bs) : as = bs := by
  induction as generalizing bs with
  | nil => cases bs with
    | nil => rfl
    | cons b bs => have := congrArg List.length h; simp at this; omega
  | cons a as ih => cases bs with
    | nil => have := congrArg List.length h; simp at this
    | cons b bs =>
      have hh := List.append_inj h (by simp)
      rw [byteBits_inj hh.1, ih hh.2]

@[simp] theorem packBytes_zero (s : BitString) : packBytes 0 s = ([], s) := rfl

@[simp] theorem packBytes_count (n : Nat) (s : BitString) : (packBytes n s).1.length = n := by
  induction n generalizing s with
  | zero => rfl
  | succ n ih => simp [packBytes, ih]

@[simp] theorem packBytes_rest (n : Nat) (s : BitString) : (packBytes n s).2 = s.drop (8 * n) := by
  induction n generalizing s with
  | zero => rfl
  | succ n ih => simp [packBytes, ih, Nat.mul_succ]; congr 1; omega

/-- Packing loses no bit: the bytes' bits followed by the rest are the string. -/
theorem packBytes_bits (n : Nat) (s : BitString) (h : 8 * n ≤ s.length) :
    streamBits (packBytes n s).1 ++ (packBytes n s).2 = s := by
  induction n generalizing s with
  | zero => simp
  | succ n ih =>
    have h8 : (s.take 8).length = 8 := by simp; omega
    have := ih (s.drop 8) (by simp; omega)
    simp only [packBytes, streamBits_cons, byteBits_byteOf h8, List.append_assoc, this,
      List.take_append_drop]

/-- Packing as many bytes as there are: fewer than 8 bits are left. -/
theorem packBytes_all_rest_length (s : BitString) : (packBytes (s.length / 8) s).2.length = s.length % 8 := by
  simp; omega

/-- Packing is the only way to split a string into whole bytes and fewer than 8 bits. -/
theorem packBytes_unique {bs : List Byte} {r s : BitString} (h : streamBits bs ++ r = s)
    (hr : r.length < 8) : packBytes (s.length / 8) s = (bs, r) := by
  have hl : s.length = 8 * bs.length + r.length := by rw [← h]; simp
  have hn : s.length / 8 = bs.length := by omega
  have hp := packBytes_bits (s.length / 8) s (by omega)
  rw [hn] at hp ⊢
  have hb := List.append_inj (hp.trans h.symm) (by simp)
  exact Prod.ext (streamBits_inj hb.1) hb.2

/-- The value of two joined fields. -/
theorem toNat_append_eq {m n : Nat} (a : BitVec m) (b : BitVec n) :
    (a ++ b).toNat = a.toNat * 2 ^ n + b.toNat := by
  rw [BitVec.toNat_append, ← Nat.shiftLeft_add_eq_or_of_lt b.isLt, Nat.shiftLeft_eq]

end Sys2Proof.Machine
end

