-- ==== Sys2Proof/Laws/State.lean ====
section
/-! SUPPORT. One lemma per field per state update, so that no later proof unfolds a record update. -/

namespace Sys2Proof.Machine

/-! ### `raiseEnc` (60_exceptions.md R192) -/

@[simp] theorem State.raiseEnc_cfg (s : State) (c : ErrorCode) :
    (s.raiseEnc c).cfg = s.cfg := by
  unfold State.raiseEnc; split <;> rfl
@[simp] theorem State.raiseEnc_dec (s : State) (c : ErrorCode) :
    (s.raiseEnc c).dec = s.dec := by
  unfold State.raiseEnc; split <;> rfl
@[simp] theorem State.raiseEnc_encPort (s : State) (c : ErrorCode) :
    (s.raiseEnc c).encPort = s.encPort := by
  unfold State.raiseEnc; split <;> rfl
@[simp] theorem State.raiseEnc_decPort (s : State) (c : ErrorCode) :
    (s.raiseEnc c).decPort = s.decPort := by
  unfold State.raiseEnc; split <;> rfl
@[simp] theorem State.raiseEnc_arrivals (s : State) (c : ErrorCode) :
    (s.raiseEnc c).arrivals = s.arrivals := by
  unfold State.raiseEnc; split <;> rfl
@[simp] theorem State.raiseEnc_turns (s : State) (c : ErrorCode) :
    (s.raiseEnc c).turns = s.turns := by
  unfold State.raiseEnc; split <;> rfl
@[simp] theorem State.raiseEnc_lastReply (s : State) (c : ErrorCode) :
    (s.raiseEnc c).lastReply = s.lastReply := by
  unfold State.raiseEnc; split <;> rfl
@[simp] theorem State.raiseEnc_enc_sizeOnly (s : State) (c : ErrorCode) :
    (s.raiseEnc c).enc.sizeOnly = s.enc.sizeOnly := by
  unfold State.raiseEnc; split <;> rfl
@[simp] theorem State.raiseEnc_enc_pend (s : State) (c : ErrorCode) :
    (s.raiseEnc c).enc.pend = s.enc.pend := by
  unfold State.raiseEnc; split <;> rfl
@[simp] theorem State.raiseEnc_enc_inCount (s : State) (c : ErrorCode) :
    (s.raiseEnc c).enc.inCount = s.enc.inCount := by
  unfold State.raiseEnc; split <;> rfl
@[simp] theorem State.raiseEnc_enc_totalBits (s : State) (c : ErrorCode) :
    (s.raiseEnc c).enc.totalBits = s.enc.totalBits := by
  unfold State.raiseEnc; split <;> rfl
@[simp] theorem State.raiseEnc_enc_tblCode (s : State) (c : ErrorCode) :
    (s.raiseEnc c).enc.tblCode = s.enc.tblCode := by
  unfold State.raiseEnc; split <;> rfl
@[simp] theorem State.raiseEnc_enc_tblLen (s : State) (c : ErrorCode) :
    (s.raiseEnc c).enc.tblLen = s.enc.tblLen := by
  unfold State.raiseEnc; split <;> rfl
@[simp] theorem State.raiseEnc_enc_outq (s : State) (c : ErrorCode) :
    (s.raiseEnc c).enc.outq = s.enc.outq := by
  unfold State.raiseEnc; split <;> rfl
@[simp] theorem State.raiseEnc_enc_state (s : State) (c : ErrorCode) :
    (s.raiseEnc c).enc.state = .fault := by
  unfold State.raiseEnc; split <;> simp_all
theorem State.raiseEnc_of_fault (s : State) (c : ErrorCode) (h : s.enc.state = .fault) :
    s.raiseEnc c = s := by simp [State.raiseEnc, h]
theorem State.raiseEnc_enc_err (s : State) (c : ErrorCode) (h : s.enc.state ≠ .fault) :
    (s.raiseEnc c).enc.err = c := by simp [State.raiseEnc, h]

/-! ### `raiseDec` (R193) -/

@[simp] theorem State.raiseDec_cfg (s : State) (c : ErrorCode) (q : Option (BitVec 35)) :
    (s.raiseDec c q).cfg = s.cfg := by
  unfold State.raiseDec; split <;> [rfl; (split <;> rfl)]
@[simp] theorem State.raiseDec_enc (s : State) (c : ErrorCode) (q : Option (BitVec 35)) :
    (s.raiseDec c q).enc = s.enc := by
  unfold State.raiseDec; split <;> [rfl; (split <;> rfl)]
@[simp] theorem State.raiseDec_encPort (s : State) (c : ErrorCode) (q : Option (BitVec 35)) :
    (s.raiseDec c q).encPort = s.encPort := by
  unfold State.raiseDec; split <;> [rfl; (split <;> rfl)]
@[simp] theorem State.raiseDec_decPort (s : State) (c : ErrorCode) (q : Option (BitVec 35)) :
    (s.raiseDec c q).decPort = s.decPort := by
  unfold State.raiseDec; split <;> [rfl; (split <;> rfl)]
@[simp] theorem State.raiseDec_arrivals (s : State) (c : ErrorCode) (q : Option (BitVec 35)) :
    (s.raiseDec c q).arrivals = s.arrivals := by
  unfold State.raiseDec; split <;> [rfl; (split <;> rfl)]
@[simp] theorem State.raiseDec_turns (s : State) (c : ErrorCode) (q : Option (BitVec 35)) :
    (s.raiseDec c q).turns = s.turns := by
  unfold State.raiseDec; split <;> [rfl; (split <;> rfl)]
@[simp] theorem State.raiseDec_lastReply (s : State) (c : ErrorCode) (q : Option (BitVec 35)) :
    (s.raiseDec c q).lastReply = s.lastReply := by
  unfold State.raiseDec; split <;> [rfl; (split <;> rfl)]
@[simp] theorem State.raiseDec_dec_limitEn (s : State) (c : ErrorCode) (q : Option (BitVec 35)) :
    (s.raiseDec c q).dec.limitEn = s.dec.limitEn :=
    by
  unfold State.raiseDec; split <;> [rfl; (split <;> rfl)]
@[simp] theorem State.raiseDec_dec_maxlen (s : State) (c : ErrorCode) (q : Option (BitVec 35)) :
    (s.raiseDec c q).dec.maxlen = s.dec.maxlen := by
  unfold State.raiseDec; split <;> [rfl; (split <;> rfl)]
@[simp] theorem State.raiseDec_dec_pend (s : State) (c : ErrorCode) (q : Option (BitVec 35)) :
    (s.raiseDec c q).dec.pend = s.dec.pend := by
  unfold State.raiseDec; split <;> [rfl; (split <;> rfl)]
@[simp] theorem State.raiseDec_dec_inCount (s : State) (c : ErrorCode) (q : Option (BitVec 35)) :
    (s.raiseDec c q).dec.inCount = s.dec.inCount :=
    by
  unfold State.raiseDec; split <;> [rfl; (split <;> rfl)]
@[simp] theorem State.raiseDec_dec_outCount (s : State) (c : ErrorCode) (q : Option (BitVec 35)) :
    (s.raiseDec c q).dec.outCount = s.dec.outCount :=
    by
  unfold State.raiseDec; split <;> [rfl; (split <;> rfl)]
@[simp] theorem State.raiseDec_dec_outq (s : State) (c : ErrorCode) (q : Option (BitVec 35)) :
    (s.raiseDec c q).dec.outq = s.dec.outq := by
  unfold State.raiseDec; split <;> [rfl; (split <;> rfl)]
@[simp] theorem State.raiseDec_dec_state (s : State) (c : ErrorCode) (q : Option (BitVec 35)) :
    (s.raiseDec c q).dec.state = .failed :=
    by
  unfold State.raiseDec; split <;> [assumption; (split <;> rfl)]
theorem State.raiseDec_of_failed (s : State) (c : ErrorCode) (q : Option (BitVec 35))
    (h : s.dec.state = .failed) : s.raiseDec c q = s := by simp [State.raiseDec, h]
theorem State.raiseDec_dec_err (s : State) (c : ErrorCode) (q : Option (BitVec 35))
    (h : s.dec.state ≠ .failed) : (s.raiseDec c q).dec.err = c := by
  unfold State.raiseDec; rw [if_neg h]; split <;> rfl
theorem State.raiseDec_none_errByte (s : State) (c : ErrorCode) :
    (s.raiseDec c none).dec.errByte = s.dec.errByte := by unfold State.raiseDec; split <;> rfl
theorem State.raiseDec_none_errBit (s : State) (c : ErrorCode) :
    (s.raiseDec c none).dec.errBit = s.dec.errBit := by unfold State.raiseDec; split <;> rfl
theorem State.raiseDec_some_errByte (s : State) (c : ErrorCode) (p : BitVec 35)
    (h : s.dec.state ≠ .failed) : (s.raiseDec c (some p)).dec.errByte = p.extractLsb' 3 32 := by
  simp [State.raiseDec, h]
theorem State.raiseDec_some_errBit (s : State) (c : ErrorCode) (p : BitVec 35)
    (h : s.dec.state ≠ .failed) : (s.raiseDec c (some p)).dec.errBit = p.extractLsb' 0 3 := by
  simp [State.raiseDec, h]

/-! ### `setOutq` and `emit` (10_state.md R40) -/

@[simp] theorem State.setOutq_cfg (s : State) (p : Port) (q : List Byte) :
    (s.setOutq p q).cfg = s.cfg := by cases p <;> rfl
@[simp] theorem State.setOutq_encPort (s : State) (p : Port) (q : List Byte) :
    (s.setOutq p q).encPort = s.encPort := by cases p <;> rfl
@[simp] theorem State.setOutq_decPort (s : State) (p : Port) (q : List Byte) :
    (s.setOutq p q).decPort = s.decPort := by cases p <;> rfl
@[simp] theorem State.setOutq_arrivals (s : State) (p : Port) (q : List Byte) :
    (s.setOutq p q).arrivals = s.arrivals := by cases p <;> rfl
@[simp] theorem State.setOutq_turns (s : State) (p : Port) (q : List Byte) :
    (s.setOutq p q).turns = s.turns := by cases p <;> rfl
@[simp] theorem State.setOutq_lastReply (s : State) (p : Port) (q : List Byte) :
    (s.setOutq p q).lastReply = s.lastReply := by cases p <;> rfl
@[simp] theorem State.setOutq_enc_state (s : State) (p : Port) (q : List Byte) :
    (s.setOutq p q).enc.state = s.enc.state := by cases p <;> rfl
@[simp] theorem State.setOutq_enc_sizeOnly (s : State) (p : Port) (q : List Byte) :
    (s.setOutq p q).enc.sizeOnly = s.enc.sizeOnly := by cases p <;> rfl
@[simp] theorem State.setOutq_enc_pend (s : State) (p : Port) (q : List Byte) :
    (s.setOutq p q).enc.pend = s.enc.pend := by cases p <;> rfl
@[simp] theorem State.setOutq_enc_inCount (s : State) (p : Port) (q : List Byte) :
    (s.setOutq p q).enc.inCount = s.enc.inCount := by cases p <;> rfl
@[simp] theorem State.setOutq_enc_totalBits (s : State) (p : Port) (q : List Byte) :
    (s.setOutq p q).enc.totalBits = s.enc.totalBits := by cases p <;> rfl
@[simp] theorem State.setOutq_enc_err (s : State) (p : Port) (q : List Byte) :
    (s.setOutq p q).enc.err = s.enc.err := by cases p <;> rfl
@[simp] theorem State.setOutq_enc_tblCode (s : State) (p : Port) (q : List Byte) :
    (s.setOutq p q).enc.tblCode = s.enc.tblCode := by cases p <;> rfl
@[simp] theorem State.setOutq_enc_tblLen (s : State) (p : Port) (q : List Byte) :
    (s.setOutq p q).enc.tblLen = s.enc.tblLen := by cases p <;> rfl
@[simp] theorem State.setOutq_dec_state (s : State) (p : Port) (q : List Byte) :
    (s.setOutq p q).dec.state = s.dec.state := by cases p <;> rfl
@[simp] theorem State.setOutq_dec_limitEn (s : State) (p : Port) (q : List Byte) :
    (s.setOutq p q).dec.limitEn = s.dec.limitEn := by cases p <;> rfl
@[simp] theorem State.setOutq_dec_maxlen (s : State) (p : Port) (q : List Byte) :
    (s.setOutq p q).dec.maxlen = s.dec.maxlen := by cases p <;> rfl
@[simp] theorem State.setOutq_dec_pend (s : State) (p : Port) (q : List Byte) :
    (s.setOutq p q).dec.pend = s.dec.pend := by cases p <;> rfl
@[simp] theorem State.setOutq_dec_inCount (s : State) (p : Port) (q : List Byte) :
    (s.setOutq p q).dec.inCount = s.dec.inCount := by cases p <;> rfl
@[simp] theorem State.setOutq_dec_outCount (s : State) (p : Port) (q : List Byte) :
    (s.setOutq p q).dec.outCount = s.dec.outCount := by cases p <;> rfl
@[simp] theorem State.setOutq_dec_err (s : State) (p : Port) (q : List Byte) :
    (s.setOutq p q).dec.err = s.dec.err := by cases p <;> rfl
@[simp] theorem State.setOutq_dec_errByte (s : State) (p : Port) (q : List Byte) :
    (s.setOutq p q).dec.errByte = s.dec.errByte := by cases p <;> rfl
@[simp] theorem State.setOutq_dec_errBit (s : State) (p : Port) (q : List Byte) :
    (s.setOutq p q).dec.errBit = s.dec.errBit := by cases p <;> rfl
@[simp] theorem State.setOutq_enc_dec (s : State) (q : List Byte) : (s.setOutq .enc q).dec = s.dec := rfl
@[simp] theorem State.setOutq_dec_enc (s : State) (q : List Byte) : (s.setOutq .dec q).enc = s.enc := rfl
@[simp] theorem State.setOutq_outq (s : State) (p : Port) (q : List Byte) :
    (s.setOutq p q).outq p = q := by cases p <;> rfl
@[simp] theorem State.emit_cfg (s : State) (p : Port) (q : List Byte) :
    (s.emit p q).cfg = s.cfg := by cases p <;> rfl
@[simp] theorem State.emit_encPort (s : State) (p : Port) (q : List Byte) :
    (s.emit p q).encPort = s.encPort := by cases p <;> rfl
@[simp] theorem State.emit_decPort (s : State) (p : Port) (q : List Byte) :
    (s.emit p q).decPort = s.decPort := by cases p <;> rfl
@[simp] theorem State.emit_arrivals (s : State) (p : Port) (q : List Byte) :
    (s.emit p q).arrivals = s.arrivals := by cases p <;> rfl
@[simp] theorem State.emit_turns (s : State) (p : Port) (q : List Byte) :
    (s.emit p q).turns = s.turns := by cases p <;> rfl
@[simp] theorem State.emit_lastReply (s : State) (p : Port) (q : List Byte) :
    (s.emit p q).lastReply = s.lastReply := by cases p <;> rfl
@[simp] theorem State.emit_enc_state (s : State) (p : Port) (q : List Byte) :
    (s.emit p q).enc.state = s.enc.state := by cases p <;> rfl
@[simp] theorem State.emit_enc_sizeOnly (s : State) (p : Port) (q : List Byte) :
    (s.emit p q).enc.sizeOnly = s.enc.sizeOnly := by cases p <;> rfl
@[simp] theorem State.emit_enc_pend (s : State) (p : Port) (q : List Byte) :
    (s.emit p q).enc.pend = s.enc.pend := by cases p <;> rfl
@[simp] theorem State.emit_enc_inCount (s : State) (p : Port) (q : List Byte) :
    (s.emit p q).enc.inCount = s.enc.inCount := by cases p <;> rfl
@[simp] theorem State.emit_enc_totalBits (s : State) (p : Port) (q : List Byte) :
    (s.emit p q).enc.totalBits = s.enc.totalBits := by cases p <;> rfl
@[simp] theorem State.emit_enc_err (s : State) (p : Port) (q : List Byte) :
    (s.emit p q).enc.err = s.enc.err := by cases p <;> rfl
@[simp] theorem State.emit_enc_tblCode (s : State) (p : Port) (q : List Byte) :
    (s.emit p q).enc.tblCode = s.enc.tblCode := by cases p <;> rfl
@[simp] theorem State.emit_enc_tblLen (s : State) (p : Port) (q : List Byte) :
    (s.emit p q).enc.tblLen = s.enc.tblLen := by cases p <;> rfl
@[simp] theorem State.emit_dec_state (s : State) (p : Port) (q : List Byte) :
    (s.emit p q).dec.state = s.dec.state := by cases p <;> rfl
@[simp] theorem State.emit_dec_limitEn (s : State) (p : Port) (q : List Byte) :
    (s.emit p q).dec.limitEn = s.dec.limitEn := by cases p <;> rfl
@[simp] theorem State.emit_dec_maxlen (s : State) (p : Port) (q : List Byte) :
    (s.emit p q).dec.maxlen = s.dec.maxlen := by cases p <;> rfl
@[simp] theorem State.emit_dec_pend (s : State) (p : Port) (q : List Byte) :
    (s.emit p q).dec.pend = s.dec.pend := by cases p <;> rfl
@[simp] theorem State.emit_dec_inCount (s : State) (p : Port) (q : List Byte) :
    (s.emit p q).dec.inCount = s.dec.inCount := by cases p <;> rfl
@[simp] theorem State.emit_dec_outCount (s : State) (p : Port) (q : List Byte) :
    (s.emit p q).dec.outCount = s.dec.outCount := by cases p <;> rfl
@[simp] theorem State.emit_dec_err (s : State) (p : Port) (q : List Byte) :
    (s.emit p q).dec.err = s.dec.err := by cases p <;> rfl
@[simp] theorem State.emit_dec_errByte (s : State) (p : Port) (q : List Byte) :
    (s.emit p q).dec.errByte = s.dec.errByte := by cases p <;> rfl
@[simp] theorem State.emit_dec_errBit (s : State) (p : Port) (q : List Byte) :
    (s.emit p q).dec.errBit = s.dec.errBit := by cases p <;> rfl
@[simp] theorem State.emit_enc_dec (s : State) (q : List Byte) : (s.emit .enc q).dec = s.dec := rfl
@[simp] theorem State.emit_dec_enc (s : State) (q : List Byte) : (s.emit .dec q).enc = s.enc := rfl
@[simp] theorem State.emit_outq (s : State) (p : Port) (q : List Byte) :
    (s.emit p q).outq p = s.outq p ++ q := by cases p <;> rfl
@[simp] theorem State.emit_enc_outq (s : State) (q : List Byte) :
    (s.emit .enc q).enc.outq = s.enc.outq ++ q := rfl
@[simp] theorem State.emit_dec_outq (s : State) (q : List Byte) :
    (s.emit .dec q).dec.outq = s.dec.outq ++ q := rfl
@[simp] theorem State.setOutq_enc_outq (s : State) (q : List Byte) :
    (s.setOutq .enc q).enc.outq = q := rfl
@[simp] theorem State.setOutq_dec_outq (s : State) (q : List Byte) :
    (s.setOutq .dec q).dec.outq = q := rfl
@[simp] theorem State.outq_enc (s : State) : s.outq .enc = s.enc.outq := rfl
@[simp] theorem State.outq_dec (s : State) : s.outq .dec = s.dec.outq := rfl
@[simp] theorem State.emit_nil (s : State) (p : Port) : s.emit p [] = s := by
  cases p <;> simp [State.emit, State.setOutq]

/-! ### `setWaiting` and `completeWrite` (20_memory.md R72) -/

@[simp] theorem State.setWaiting_cfg (s : State) (p : Port) (ws : List PortWrite) :
    (s.setWaiting p ws).cfg = s.cfg := by cases p <;> rfl
@[simp] theorem State.setWaiting_enc (s : State) (p : Port) (ws : List PortWrite) :
    (s.setWaiting p ws).enc = s.enc := by cases p <;> rfl
@[simp] theorem State.setWaiting_dec (s : State) (p : Port) (ws : List PortWrite) :
    (s.setWaiting p ws).dec = s.dec := by cases p <;> rfl
@[simp] theorem State.setWaiting_arrivals (s : State) (p : Port) (ws : List PortWrite) :
    (s.setWaiting p ws).arrivals = s.arrivals := by cases p <;> rfl
@[simp] theorem State.setWaiting_turns (s : State) (p : Port) (ws : List PortWrite) :
    (s.setWaiting p ws).turns = s.turns := by cases p <;> rfl
@[simp] theorem State.setWaiting_lastReply (s : State) (p : Port) (ws : List PortWrite) :
    (s.setWaiting p ws).lastReply = s.lastReply := by cases p <;> rfl
@[simp] theorem State.setWaiting_waiting (s : State) (p : Port) (ws : List PortWrite) :
    (s.setWaiting p ws).waiting p = ws := by cases p <;> rfl
@[simp] theorem State.setWaiting_other (s : State) (p : Port) (ws : List PortWrite) :
    (s.setWaiting p ws).waiting p.other = s.waiting p.other := by cases p <;> rfl
@[simp] theorem State.completeWrite_cfg (s : State) (p : Port) (w : PortWrite) (ws : List PortWrite) :
    (s.completeWrite p w ws).cfg = s.cfg := by cases p <;> rfl
@[simp] theorem State.completeWrite_enc (s : State) (p : Port) (w : PortWrite) (ws : List PortWrite) :
    (s.completeWrite p w ws).enc = s.enc := by cases p <;> rfl
@[simp] theorem State.completeWrite_dec (s : State) (p : Port) (w : PortWrite) (ws : List PortWrite) :
    (s.completeWrite p w ws).dec = s.dec := by cases p <;> rfl
@[simp] theorem State.completeWrite_arrivals (s : State) (p : Port) (w : PortWrite) (ws : List PortWrite) :
    (s.completeWrite p w ws).arrivals = s.arrivals := by cases p <;> rfl
@[simp] theorem State.completeWrite_turns (s : State) (p : Port) (w : PortWrite) (ws : List PortWrite) :
    (s.completeWrite p w ws).turns = s.turns := by cases p <;> rfl
@[simp] theorem State.completeWrite_waiting (s : State) (p : Port) (w : PortWrite) (ws : List PortWrite) :
    (s.completeWrite p w ws).waiting p = ws := by cases p <;> rfl
@[simp] theorem State.completeWrite_other (s : State) (p : Port) (w : PortWrite) (ws : List PortWrite) :
    (s.completeWrite p w ws).waiting p.other = s.waiting p.other := by cases p <;> rfl
@[simp] theorem State.completeWrite_lastReply (s : State) (p : Port) (w : PortWrite) (ws : List PortWrite) :
    (s.completeWrite p w ws).lastReply = some (.writeDone w.thread) := by cases p <;> rfl

/-! ### The commits of the commands (41_encoder.md R126, 42_decoder.md R156, R157, R158) -/

@[simp] theorem State.encDone_cfg (s : State) : (s.encDone).cfg = s.cfg := rfl
@[simp] theorem State.encDone_dec (s : State) : (s.encDone).dec = s.dec := rfl
@[simp] theorem State.encDone_encPort (s : State) : (s.encDone).encPort = s.encPort := rfl
@[simp] theorem State.encDone_decPort (s : State) : (s.encDone).decPort = s.decPort := rfl
@[simp] theorem State.encDone_arrivals (s : State) : (s.encDone).arrivals = s.arrivals := rfl
@[simp] theorem State.encDone_turns (s : State) : (s.encDone).turns = s.turns := rfl
@[simp] theorem State.encDone_lastReply (s : State) : (s.encDone).lastReply = s.lastReply := rfl
@[simp] theorem State.decDone_cfg (s : State) : (s.decDone).cfg = s.cfg := rfl
@[simp] theorem State.decDone_enc (s : State) : (s.decDone).enc = s.enc := rfl
@[simp] theorem State.decDone_encPort (s : State) : (s.decDone).encPort = s.encPort := rfl
@[simp] theorem State.decDone_decPort (s : State) : (s.decDone).decPort = s.decPort := rfl
@[simp] theorem State.decDone_arrivals (s : State) : (s.decDone).arrivals = s.arrivals := rfl
@[simp] theorem State.decDone_turns (s : State) : (s.decDone).turns = s.turns := rfl
@[simp] theorem State.decDone_lastReply (s : State) : (s.decDone).lastReply = s.lastReply := rfl
@[simp] theorem State.decBegin_cfg (s : State) (l : Bool) (m : BitVec 24) :
    (s.decBegin l m).cfg = s.cfg := rfl
@[simp] theorem State.decBegin_enc (s : State) (l : Bool) (m : BitVec 24) :
    (s.decBegin l m).enc = s.enc := rfl
@[simp] theorem State.decBegin_encPort (s : State) (l : Bool) (m : BitVec 24) :
    (s.decBegin l m).encPort = s.encPort := rfl
@[simp] theorem State.decBegin_decPort (s : State) (l : Bool) (m : BitVec 24) :
    (s.decBegin l m).decPort = s.decPort := rfl
@[simp] theorem State.decBegin_arrivals (s : State) (l : Bool) (m : BitVec 24) :
    (s.decBegin l m).arrivals = s.arrivals := rfl
@[simp] theorem State.decBegin_turns (s : State) (l : Bool) (m : BitVec 24) :
    (s.decBegin l m).turns = s.turns := rfl
@[simp] theorem State.decBegin_lastReply (s : State) (l : Bool) (m : BitVec 24) :
    (s.decBegin l m).lastReply = s.lastReply := rfl
@[simp] theorem State.decCount_cfg (s : State) (n : Nat) : (s.decCount n).cfg = s.cfg := rfl
@[simp] theorem State.decCount_enc (s : State) (n : Nat) : (s.decCount n).enc = s.enc := rfl
@[simp] theorem State.decCount_encPort (s : State) (n : Nat) : (s.decCount n).encPort = s.encPort := rfl
@[simp] theorem State.decCount_decPort (s : State) (n : Nat) : (s.decCount n).decPort = s.decPort := rfl
@[simp] theorem State.decCount_arrivals (s : State) (n : Nat) : (s.decCount n).arrivals = s.arrivals := rfl
@[simp] theorem State.decCount_turns (s : State) (n : Nat) : (s.decCount n).turns = s.turns := rfl
@[simp] theorem State.decCount_lastReply (s : State) (n : Nat) : (s.decCount n).lastReply = s.lastReply := rfl

/-! ### `hardReset` (70_reset_and_hazards.md R220) -/

@[simp] theorem State.hardReset_cfg (s : State) (d : Bool) : (s.hardReset d).cfg = s.cfg := rfl
@[simp] theorem State.hardReset_arrivals (s : State) (d : Bool) : (s.hardReset d).arrivals = s.arrivals := rfl
@[simp] theorem State.hardReset_turns (s : State) (d : Bool) : (s.hardReset d).turns = s.turns := rfl
@[simp] theorem State.hardReset_lastReply (s : State) (d : Bool) :
    (s.hardReset d).lastReply = s.lastReply := rfl
@[simp] theorem State.hardReset_enc (s : State) (d : Bool) : (s.hardReset d).enc = Encoder.reset := rfl
@[simp] theorem State.hardReset_dec (s : State) (d : Bool) : (s.hardReset d).dec = Decoder.reset := rfl

end Sys2Proof.Machine
end

