-- ==== Sys2Proof/Laws/Table.lean ====
section
/-! SUPPORT. What a well-formed table gives (40_symbol_table.md R101, R102), that the fast prefix-freeness check
says what R101 check 4 says, and what `Match` answers (42_decoder.md R155). -/

namespace Sys2Proof.Machine

@[simp] theorem SymbolEntry.codeword_length (e : SymbolEntry) : e.codeword.length = e.len.toNat :=
  bitsOf_length _ _

/-- Neither string is a prefix of the other. -/
def Apart (s t : BitString) : Prop := ¬ s <+: t ∧ ¬ t <+: s

theorem Apart.symm {s t : BitString} (h : Apart s t) : Apart t s := ⟨h.2, h.1⟩

theorem mem_tailsAfter {b : Bool} {L : List BitString} {t : BitString} :
    t ∈ tailsAfter b L ↔ (b :: t) ∈ L := by
  induction L with
  | nil => simp [tailsAfter]
  | cons s L ih =>
    cases s with
    | nil => simp [tailsAfter, ih]
    | cons c u =>
      by_cases h : c = b
      · simp [tailsAfter, h, ih]
      · simp [tailsAfter, h, ih, Ne.symm h]

/-- Strings without the empty one are pairwise apart exactly when both halves are. -/
theorem pairwise_apart_split {L : List BitString} (hne : [] ∉ L) :
    L.Pairwise Apart ↔
      (tailsAfter false L).Pairwise Apart ∧ (tailsAfter true L).Pairwise Apart := by
  induction L with
  | nil => simp [tailsAfter]
  | cons s L ih =>
    have hs : s ≠ [] := fun h => hne (by simp [h])
    have hL : [] ∉ L := fun h => hne (by simp [h])
    obtain ⟨c, u, rfl⟩ := List.exists_cons_of_ne_nil hs
    have key : (∀ t ∈ L, Apart (c :: u) t) ↔ ∀ t ∈ tailsAfter c L, Apart u t := by
      constructor
      · intro h t ht
        have := h _ (mem_tailsAfter.mp ht)
        simpa [Apart, List.cons_prefix_cons] using this
      · intro h t ht
        cases t with
        | nil => exact absurd ht hL
        | cons d t =>
          by_cases hcd : c = d
          · subst hcd
            have := h t (mem_tailsAfter.mpr ht)
            simpa [Apart, List.cons_prefix_cons] using this
          · simp [Apart, List.cons_prefix_cons, hcd, Ne.symm hcd]
    rw [List.pairwise_cons, ih hL, key]
    cases c <;> simp [tailsAfter, List.pairwise_cons] <;> tauto

/-- The fast check is R101 check 4: no string is a prefix of another one. -/
theorem prefixFree_iff (n : Nat) (L : List BitString) (hlen : ∀ s ∈ L, s.length ≤ n) :
    prefixFree n L = true ↔ L.Pairwise Apart := by
  induction n generalizing L with
  | zero =>
    match L with
    | [] => simp [prefixFree]
    | [_] => simp [prefixFree]
    | a :: b :: L =>
      have ha : a = [] := by simpa using hlen a (by simp)
      constructor
      · intro h; cases h
      · intro h
        exact absurd (ha ▸ List.nil_prefix) ((List.pairwise_cons.mp h).1 b (by simp)).1
  | succ n ih =>
    match L with
    | [] => simp [prefixFree]
    | [_] => simp [prefixFree]
    | a :: b :: L =>
      have htail : ∀ c, ∀ s ∈ tailsAfter c (a :: b :: L), s.length ≤ n := fun c s hs => by
        have := hlen _ (mem_tailsAfter.mp hs)
        simpa using this
      by_cases hne : [] ∈ a :: b :: L
      · have hfalse : prefixFree (n + 1) (a :: b :: L) = false := by
          have : (a :: b :: L).any List.isEmpty = true := List.any_eq_true.mpr ⟨[], hne, rfl⟩
          simp only [prefixFree, this, Bool.not_true, Bool.false_and]
        rw [hfalse]
        constructor
        · intro h; cases h
        · intro h
          simp only [List.pairwise_cons] at h
          rcases List.mem_cons.mp hne with h0 | h0
          · exact absurd (h0 ▸ List.nil_prefix) (h.1 b (by simp)).1
          · exact absurd List.nil_prefix (h.1 [] h0).2
      · have hany : (a :: b :: L).any List.isEmpty = false := by
          rw [List.any_eq_false]
          intro s hs he
          exact hne (List.isEmpty_iff.mp he ▸ hs)
        rw [pairwise_apart_split hne, ← ih _ (htail false), ← ih _ (htail true)]
        simp only [prefixFree, hany, Bool.not_false, Bool.true_and, Bool.and_eq_true]

theorem tableCountOk_iff {T : Table} : tableCountOk T = true ↔ T.length = nsym := by
  simp [tableCountOk]

/-- R101, unfolded: the five checks as facts. -/
structure TableFacts (T : Table) : Prop where
  count : T.length = 257
  lengths : ∀ e ∈ T, 5 ≤ e.len.toNat ∧ e.len.toNat ≤ 30
  codes : ∀ e ∈ T, e.code.toNat < 2 ^ e.len.toNat
  apart : T.Pairwise fun e f => Apart e.codeword f.codeword
  eosLong : ∀ e, T[eos]? = some e → 7 ≤ e.len.toNat

/-- The well-formedness check says exactly R101. -/
theorem tableWf_facts {T : Table} (h : tableWf T = true) : TableFacts T := by
  simp only [tableWf, Bool.and_eq_true] at h
  obtain ⟨⟨⟨⟨h1, h2⟩, h3⟩, h5⟩, h4⟩ := h
  have hl : ∀ e ∈ T, 5 ≤ e.len.toNat ∧ e.len.toNat ≤ 30 := by
    simpa [tableLengthsOk] using h2
  refine ⟨tableCountOk_iff.mp h1, hl, by simpa [tableCodesFit] using h3, ?_, ?_⟩
  · have := (prefixFree_iff 32 _ ?_).mp h4
    · simpa [List.pairwise_map] using this
    · intro s hs
      obtain ⟨e, he, rfl⟩ := List.mem_map.mp hs
      have := (hl e he).2
      simp only [SymbolEntry.codeword_length]; omega
  · intro e he
    simpa [tableEosLongEnough, he] using h5

theorem paramsWf_table {P : Params} (h : paramsWf P = true) : TableFacts P.table :=
  tableWf_facts (by simp [paramsWf] at h; exact h.2)

/-! ### `TableRead` (R102) -/

theorem tableRead_some {T : Table} {id : Nat} {e : SymbolEntry} (h : tableRead T id = some e) :
    id ≤ eos ∧ T[id]? = some e := by
  unfold tableRead at h
  split at h
  · exact ⟨‹_›, h⟩
  · cases h

theorem tableRead_mem {T : Table} {id : Nat} {e : SymbolEntry} (h : tableRead T id = some e) : e ∈ T :=
  List.mem_of_getElem? (tableRead_some h).2

/-- Every id in 0..256 has an entry. -/
theorem TableFacts.read {T : Table} (hT : TableFacts T) {id : Nat} (h : id ≤ eos) :
    ∃ e, tableRead T id = some e := by
  have hlt : id < T.length := by rw [hT.count]; simp [eos] at h; omega
  exact ⟨T[id], by simp only [tableRead, if_pos h, List.getElem?_eq_getElem hlt]⟩

theorem codewordOf_eq {T : Table} {id : Nat} {e : SymbolEntry} (h : tableRead T id = some e) :
    codewordOf T id = e.codeword := by simp [codewordOf, h]

/-- Two entries of a well-formed table, one a prefix of the other's codeword, are the same entry. -/
theorem TableFacts.same {T : Table} (hT : TableFacts T) {i j : Nat} {e f : SymbolEntry}
    (hi : T[i]? = some e) (hj : T[j]? = some f) (hp : e.codeword <+: f.codeword) : i = j := by
  obtain ⟨hi', rfl⟩ := List.getElem?_eq_some_iff.mp hi
  obtain ⟨hj', rfl⟩ := List.getElem?_eq_some_iff.mp hj
  have hpw := List.pairwise_iff_getElem.mp hT.apart
  rcases lt_trichotomy i j with h | h | h
  · exact absurd hp (hpw i j hi' hj' h).1
  · exact h
  · exact absurd hp (hpw j i hj' hi' h).2

/-! ### `Match` (42_decoder.md R155) -/

theorem findCodeword_some {k i : Nat} {T : Table} {s : BitString} {e : SymbolEntry}
    (h : findCodeword k T s = some (i, e)) : k ≤ i ∧ T[i - k]? = some e ∧ e.codeword <+: s := by
  induction T generalizing k with
  | nil => simp [findCodeword] at h
  | cons f T ih =>
    unfold findCodeword at h
    split at h
    · simp only [Option.some.injEq, Prod.mk.injEq] at h
      obtain ⟨rfl, rfl⟩ := h
      exact ⟨le_refl _, by simp, List.isPrefixOf_iff_prefix.mp ‹_›⟩
    · obtain ⟨h1, h2, h3⟩ := ih h
      refine ⟨by omega, ?_, h3⟩
      rw [show i - k = (i - (k + 1)) + 1 by omega]
      simpa using h2

theorem findCodeword_none {k : Nat} {T : Table} {s : BitString} :
    findCodeword k T s = none ↔ ∀ e ∈ T, ¬ e.codeword <+: s := by
  induction T generalizing k with
  | nil => simp [findCodeword]
  | cons f T ih =>
    unfold findCodeword
    by_cases h : f.codeword <+: s
    · simp [List.isPrefixOf_iff_prefix, h]
    · simp [List.isPrefixOf_iff_prefix, h, ih]

theorem extendsToCodeword_iff {T : Table} {s : BitString} :
    extendsToCodeword T s = true ↔ ∃ e ∈ T, s <+: e.codeword ∧ s.length < e.len.toNat := by
  simp [extendsToCodeword, List.any_eq_true, List.isPrefixOf_iff_prefix]

/-- SYM(i): entry `i`'s codeword is a prefix of `s`. -/
theorem matchBits_sym {T : Table} {s : BitString} {i : Nat} {e : SymbolEntry}
    (h : matchBits T s = .sym i e) : T[i]? = some e ∧ e.codeword <+: s := by
  unfold matchBits at h
  split at h
  · injection h with h1 h2
    subst h1; subst h2
    have := findCodeword_some ‹_›
    simpa using this.2
  · split at h <;> cases h

/-- NEED: `s` contains no codeword and is a strict prefix of one. -/
theorem matchBits_need {T : Table} {s : BitString} :
    matchBits T s = .need ↔
      (∀ e ∈ T, ¬ e.codeword <+: s) ∧ ∃ e ∈ T, s <+: e.codeword ∧ s.length < e.len.toNat := by
  unfold matchBits
  rw [← findCodeword_none (k := 0), ← extendsToCodeword_iff]
  split
  · simp_all
  · split <;> simp_all

/-- NOMATCH: `s` contains no codeword and begins none. -/
theorem matchBits_noMatch {T : Table} {s : BitString} :
    matchBits T s = .noMatch ↔
      (∀ e ∈ T, ¬ e.codeword <+: s) ∧ ¬ ∃ e ∈ T, s <+: e.codeword ∧ s.length < e.len.toNat := by
  unfold matchBits
  rw [← findCodeword_none (k := 0), ← extendsToCodeword_iff]
  split
  · simp_all
  · split <;> simp_all

/-- In a well-formed table the matching codeword is unique (R155: "unique, by ... R101 check 4"). -/
theorem TableFacts.matchBits_of_prefix {T : Table} (hT : TableFacts T) {s : BitString} {i : Nat}
    {e : SymbolEntry} (hi : T[i]? = some e) (hp : e.codeword <+: s) : matchBits T s = .sym i e := by
  cases hm : matchBits T s with
  | sym j f =>
    obtain ⟨hj, hq⟩ := matchBits_sym hm
    rcases List.prefix_or_prefix_of_prefix hp hq with h | h
    · obtain rfl := hT.same hi hj h
      rw [hi] at hj; cases hj; rfl
    · obtain rfl := hT.same hj hi h
      rw [hi] at hj; cases hj; rfl
  | need => exact absurd hp ((matchBits_need.mp hm).1 e (List.mem_of_getElem? hi))
  | noMatch => exact absurd hp ((matchBits_noMatch.mp hm).1 e (List.mem_of_getElem? hi))

/-- "`Match(ε) = NEED`" (R155). -/
theorem TableFacts.matchBits_nil {T : Table} (hT : TableFacts T) : matchBits T [] = .need := by
  have h0 : 0 < T.length := by rw [hT.count]; omega
  rw [matchBits_need]
  constructor
  · intro e he hp
    have := (hT.lengths e he).1
    have := hp.length_le
    simp at this; omega
  · refine ⟨T[0], List.getElem_mem h0, List.nil_prefix, ?_⟩
    have := (hT.lengths _ (List.getElem_mem h0)).1
    simp; omega

/-- A NEED string is shorter than the longest codeword (10_state.md R34: DEC.PLEN ≤ 29). -/
theorem TableFacts.need_length {T : Table} (hT : TableFacts T) {s : BitString}
    (h : matchBits T s = .need) : s.length ≤ 29 := by
  obtain ⟨e, he, -, hl⟩ := (matchBits_need.mp h).2
  have := (hT.lengths e he).2
  omega

end Sys2Proof.Machine
end

