-- ==== Sys2Proof/Laws/Exec.lean ====
section
/-! SUPPORT. What the shared operations of the commands can do: the hold, packing, and the scan of a compressed
byte. Later proofs cite these instead of unfolding the operations. -/

namespace Sys2Proof.Machine

/-! ### The hold (70_reset_and_hazards.md R230) -/

/-- Everything `settle` can answer with a next state: the unchanged state while held, else the commit with its
bytes appended. -/
theorem settle_cases {p : Port} {e : Effect} {s t : State} (h : settle p e s = .next t) :
    ∃ bs u, e = .commit bs u ∧
      ((s.free p < bs.length ∧ t = s) ∨ (bs.length ≤ s.free p ∧ t = u.emit p bs)) := by
  cases e with
  | refuse r => simp [settle] at h
  | commit bs u =>
    refine ⟨bs, u, rfl, ?_⟩
    simp only [settle] at h
    by_cases hl : s.free p < bs.length
    · rw [if_pos hl] at h
      cases h
      exact .inl ⟨hl, rfl⟩
    · rw [if_neg hl] at h
      cases h
      exact .inr ⟨by omega, rfl⟩

theorem settle_of_room {p : Port} {bs : List Byte} {u s : State} (h : bs.length ≤ s.free p) :
    settle p (.commit bs u) s = .next (u.emit p bs) := by
  simp only [settle]; rw [if_neg (by omega)]

theorem settle_of_full {p : Port} {bs : List Byte} {u s : State} (h : s.free p < bs.length) :
    settle p (.commit bs u) s = .next s := by
  simp only [settle]; rw [if_pos h]

/-- A command that appends nothing is never held. -/
@[simp] theorem settle_nothing (p : Port) (u s : State) : settle p (.commit [] u) s = .next u := by
  rw [settle_of_room (by simp)]; simp

theorem settle_refuse (p : Port) (r : Refusal) (s : State) : settle p (.refuse r) s = .refused r := rfl

/-- An effect is held exactly where `settle` answers the unchanged state for want of room. -/
theorem held_commit (p : Port) (bs : List Byte) (u s : State) :
    (Effect.commit bs u).held p s = true ↔ s.free p < bs.length := by simp [Effect.held]

/-! ### The effect of ENC.BYTE in a session (41_encoder.md R125) -/

/-- In an ACTIVE session with room in the counter, ENC.BYTE packs the codeword. -/
theorem encByteEffect_active {b : Byte} {s : State} {e : SymbolEntry} (ha : s.enc.state = .active)
    (he : tableRead s.cfg.table b.toNat = some e)
    (hc : s.enc.totalBits.toNat + e.len.toNat ≤ maxCount) :
    encByteEffect b s =
      .commit (if s.enc.sizeOnly then [] else (packEntry s.enc e).1)
        { s with enc := { s.enc with
            pend := (packEntry s.enc e).2
            totalBits := BitVec.ofNat 32 (s.enc.totalBits.toNat + e.len.toNat)
            inCount := BitVec.ofNat 32 (s.enc.inCount.toNat + 1) } } := by
  unfold encByteEffect
  rw [ha]
  simp only [imm8Id, he]
  rw [if_neg (by omega)]

/-- What packing an entry does: the bits of the bytes and the rest are the old pending bits and the codeword;
fewer than 8 are left; the byte count is R125's. -/
theorem packEntry_spec (enc : Encoder) (e : SymbolEntry) :
    streamBits (packEntry enc e).1 ++ (packEntry enc e).2 = enc.pend ++ e.codeword ∧
      (packEntry enc e).2.length < 8 ∧
      (packEntry enc e).1.length = (enc.pend.length + e.len.toNat) / 8 := by
  refine ⟨packBytes_bits _ _ (by omega), ?_, by simp [packEntry]⟩
  unfold packEntry
  rw [packBytes_all_rest_length]; omega

/-! ### Matching parsed strings, and the scan (42_decoder.md R157) -/

@[simp] theorem codeBits_nil (T : Table) : codeBits T [] = [] := rfl

@[simp] theorem codeBits_cons (T : Table) (b : Byte) (S : List Byte) :
    codeBits T (b :: S) = codewordOf T b.toNat ++ codeBits T S := rfl

@[simp] theorem codeBits_append (T : Table) (S S' : List Byte) :
    codeBits T (S ++ S') = codeBits T S ++ codeBits T S' := by simp [codeBits]

/-- A byte's codeword at the front of a string is what `Match` finds. -/
theorem TableFacts.matchBits_byte {T : Table} (hT : TableFacts T) (b : Byte) (r : BitString) :
    ∃ e, tableRead T b.toNat = some e ∧ matchBits T (codewordOf T b.toNat ++ r) = .sym b.toNat e := by
  have hb := b.isLt
  obtain ⟨e, he⟩ := hT.read (id := b.toNat) (by simp [eos]; omega)
  refine ⟨e, he, hT.matchBits_of_prefix (tableRead_some he).2 ?_⟩
  rw [codewordOf_eq he]
  exact List.prefix_append _ _

/-- The length of a byte sequence's code bits is the sum of the code lengths (R122). -/
theorem codeBits_length (T : Table) (S : List Byte) : (codeBits T S).length = totalLength T S := by
  induction S with
  | nil => rfl
  | cons b S ih =>
    have hc : (codewordOf T b.toNat).length = lengthOf T b.toNat := by
      unfold codewordOf lengthOf
      cases tableRead T b.toNat <;> simp
    simp only [codeBits_cons, List.length_append, ih, hc, totalLength, List.map_cons, List.sum_cons]

/-- No byte is stopped: for each byte of `S`, decoded after `n` others, the limit is not reached and the output
counter is not at its last value (R157). -/
def noStop (d : Decoder) : Nat → List Byte → Prop
  | _, [] => True
  | n, _ :: S => limitReached d n = false ∧ n ≠ maxCount ∧ noStop d (n + 1) S

/-- The errors of a scan (42_decoder.md R157): a data error has a position, a counter overflow has none. -/
theorem scanLoop_error {T : Table} {d : Decoder} {fuel : Nat} {s : BitString} {pos : BitVec 35} {E : List Byte}
    {c : ErrorCode} {q : Option (BitVec 35)} (h : (scanLoop T d fuel s pos E).error = some (c, q)) :
    ((c = .invalidCode ∨ c = .outputTooLarge) ∧ ∃ p, q = some p) ∨ (c = .countOverflow ∧ q = none) := by
  induction fuel generalizing s pos E with
  | zero => simp [scanLoop] at h
  | succ n ih =>
    unfold scanLoop at h
    split at h
    · split at h
      · cases h; exact .inl ⟨.inl rfl, _, rfl⟩
      · split at h
        · cases h; exact .inl ⟨.inr rfl, _, rfl⟩
        · split at h
          · cases h; exact .inr ⟨rfl, rfl⟩
          · exact ih h
    · cases h
    · cases h; exact .inl ⟨.inl rfl, _, rfl⟩

/-- The scan goes over a parsed front of its string, emitting its bytes. -/
theorem TableFacts.scanLoop_codeBits {T : Table} (hT : TableFacts T) (d : Decoder) (S : List Byte)
    (fuel : Nat) (r : BitString) (pos : BitVec 35) (E : List Byte)
    (hs : noStop d (d.outCount.toNat + E.length) S) :
    scanLoop T d (fuel + S.length) (codeBits T S ++ r) pos E =
      scanLoop T d fuel r (pos + BitVec.ofNat 35 (totalLength T S)) (E ++ S) := by
  induction S generalizing E pos with
  | nil => simp [totalLength]
  | cons b S ih =>
    obtain ⟨h1, h2, h3⟩ := hs
    obtain ⟨e, he, hm⟩ := hT.matchBits_byte b (codeBits T S ++ r)
    have hb := b.isLt
    have hne : b.toNat ≠ eos := by simp [eos]; omega
    rw [List.length_cons, ← Nat.add_assoc, codeBits_cons, List.append_assoc]
    simp only [scanLoop, hm]
    rw [if_neg hne, h1, if_neg (by simp), if_neg h2]
    have hd : (codewordOf T b.toNat ++ (codeBits T S ++ r)).drop e.len.toNat = codeBits T S ++ r := by
      rw [codewordOf_eq he, ← e.codeword_length, List.drop_left]
    have hl : lengthOf T b.toNat = e.len.toNat := by simp [lengthOf, he]
    have hbb : BitVec.ofNat 8 b.toNat = b := by simp
    rw [hd, hbb, ih _ _ (by simpa [Nat.add_assoc] using h3)]
    have hp : pos + e.len.setWidth 35 + BitVec.ofNat 35 (totalLength T S) =
        pos + BitVec.ofNat 35 (totalLength T (b :: S)) := by
      simp only [totalLength, List.map_cons, List.sum_cons, hl]
      apply BitVec.eq_of_toNat_eq
      have := e.len.isLt
      simp; omega
    rw [hp, List.append_assoc]; rfl

/-- Everything a scan can find, whatever the string: it emits the bytes of a parsed front, none of them stopped,
and ends for exactly one of R157's reasons. The fuel is enough when it exceeds the string's length. -/
theorem TableFacts.scanLoop_cases {T : Table} (hT : TableFacts T) (d : Decoder) (fuel : Nat)
    (s : BitString) (pos : BitVec 35) (E : List Byte) (hf : s.length < fuel) :
    ∃ S r err, scanLoop T d fuel s pos E = ⟨E ++ S, err, r⟩ ∧ s = codeBits T S ++ r ∧
      noStop d (d.outCount.toNat + E.length) S ∧
      ((err = none ∧ matchBits T r = .need) ∨
       (err = some (.invalidCode, some (pos + BitVec.ofNat 35 (totalLength T S))) ∧
          (codewordOf T eos <+: r ∨ matchBits T r = .noMatch)) ∨
       (∃ b : Byte, codewordOf T b.toNat <+: r ∧
          ((err = some (.outputTooLarge, some (pos + BitVec.ofNat 35 (totalLength T S))) ∧
              limitReached d (d.outCount.toNat + E.length + S.length) = true) ∨
           (err = some (.countOverflow, none) ∧
              limitReached d (d.outCount.toNat + E.length + S.length) = false ∧
              d.outCount.toNat + E.length + S.length = maxCount)))) := by
  induction fuel generalizing s pos E with
  | zero => omega
  | succ fuel ih =>
    cases hm : matchBits T s with
    | need =>
      refine ⟨[], s, none, ?_, rfl, trivial, .inl ⟨rfl, hm⟩⟩
      simp [scanLoop, hm]
    | noMatch =>
      refine ⟨[], s, _, ?_, rfl, trivial, .inr (.inl ⟨rfl, .inr hm⟩)⟩
      simp [scanLoop, hm, totalLength]
    | sym i e =>
      obtain ⟨hi, hp⟩ := matchBits_sym hm
      have hilt : i < 257 := by
        have := (List.getElem?_eq_some_iff.mp hi).1
        rwa [hT.count] at this
      have he : tableRead T i = some e := by simp [tableRead, eos, hi]; omega
      by_cases hieos : i = eos
      · refine ⟨[], s, _, ?_, rfl, trivial, .inr (.inl ⟨rfl, .inl ?_⟩)⟩
        · simp [scanLoop, hm, hieos, totalLength]
        · rw [codewordOf_eq (hieos ▸ he)]; exact hp
      · have hbn : (BitVec.ofNat 8 i).toNat = i := by
          simp only [eos] at hieos; simp; omega
        have hcw : codewordOf T (BitVec.ofNat 8 i).toNat = e.codeword := by
          rw [hbn]; exact codewordOf_eq he
        by_cases hlim : limitReached d (d.outCount.toNat + E.length) = true
        · refine ⟨[], s, _, ?_, rfl, trivial,
            .inr (.inr ⟨BitVec.ofNat 8 i, hcw ▸ hp, .inl ⟨rfl, by simpa using hlim⟩⟩)⟩
          simp [scanLoop, hm, hieos, hlim, totalLength]
        · have hlim' : limitReached d (d.outCount.toNat + E.length) = false := by simpa using hlim
          by_cases hov : d.outCount.toNat + E.length = maxCount
          · refine ⟨[], s, _, ?_, rfl, trivial,
              .inr (.inr ⟨BitVec.ofNat 8 i, hcw ▸ hp, .inr ⟨rfl, by simpa using hlim', by simpa using hov⟩⟩)⟩
            simp only [scanLoop, hm]
            rw [if_neg hieos, if_neg hlim, if_pos hov, List.append_nil]
          · have hlen := (hT.lengths e (List.mem_of_getElem? hi)).1
            have hle : e.len.toNat ≤ s.length := by simpa using hp.length_le
            obtain ⟨S, r, err, hr, hs, hns, hend⟩ :=
              ih (s.drop e.len.toNat) (pos + e.len.setWidth 35) (E ++ [BitVec.ofNat 8 i])
                (by simp only [List.length_drop]; omega)
            have hpos : pos + e.len.setWidth 35 + BitVec.ofNat 35 (totalLength T S) =
                pos + BitVec.ofNat 35 (totalLength T (BitVec.ofNat 8 i :: S)) := by
              have hl : lengthOf T (BitVec.ofNat 8 i).toNat = e.len.toNat := by
                rw [hbn]; simp [lengthOf, he]
              simp only [totalLength, List.map_cons, List.sum_cons, hl]
              apply BitVec.eq_of_toNat_eq
              have := e.len.isLt
              simp; omega
            have hcount : d.outCount.toNat + (E ++ [BitVec.ofNat 8 i]).length =
                d.outCount.toNat + E.length + 1 := by simp; omega
            have hcount' : d.outCount.toNat + E.length + 1 + S.length =
                d.outCount.toNat + E.length + (BitVec.ofNat 8 i :: S).length := by
              rw [List.length_cons]; omega
            rw [hcount] at hns hend
            rw [hpos, hcount'] at hend
            refine ⟨BitVec.ofNat 8 i :: S, r, err, ?_, ?_, ⟨hlim', hov, hns⟩, hend⟩
            · simp only [scanLoop, hm]
              rw [if_neg hieos, if_neg hlim, if_neg hov, hr]
              simp
            · rw [codeBits_cons, hcw, List.append_assoc, ← hs, ← e.codeword_length]
              conv_lhs => rw [← List.prefix_iff_eq_append.mp hp]

end Sys2Proof.Machine
end

