-- ==== Sys2Proof/Laws/Commands.lean ====
section
/-! SUPPORT. The inversion of `exec`: everything a command can do when it answers a next state. Proofs about all
commands take `exec_cases` apart instead of unfolding the meanings. -/

namespace Sys2Proof.Machine

/-- ENC.BYTE's effect where it is a commit (41_encoder.md R125). -/
theorem encByteEffect_cases {b : Byte} {s t : State} {bs : List Byte} (h : encByteEffect b s = .commit bs t) :
    (bs = [] ∧ t = s ∧ s.enc.state = .fault) ∨
    (bs = [] ∧ ∃ c, t = s.raiseEnc c ∧ (c = .badSequence ∨ c = .countOverflow)) ∨
    (s.enc.state = .active ∧ ∃ e, tableRead s.cfg.table b.toNat = some e ∧
      s.enc.totalBits.toNat + e.len.toNat ≤ maxCount ∧
      bs = (if s.enc.sizeOnly then [] else (packEntry s.enc e).1) ∧
      t = { s with enc := { s.enc with
            pend := (packEntry s.enc e).2
            totalBits := BitVec.ofNat 32 (s.enc.totalBits.toNat + e.len.toNat)
            inCount := BitVec.ofNat 32 (s.enc.inCount.toNat + 1) } }) := by
  unfold encByteEffect at h
  split at h
  · cases h; exact .inl ⟨rfl, rfl, ‹_›⟩
  · cases h; exact .inr (.inl ⟨rfl, _, rfl, .inl rfl⟩)
  · cases h; exact .inr (.inl ⟨rfl, _, rfl, .inl rfl⟩)
  · split at h
    · cases h
    · split at h
      · cases h; exact .inr (.inl ⟨rfl, _, rfl, .inr rfl⟩)
      · cases h; exact .inr (.inr ⟨‹_›, _, ‹_›, by omega, rfl, rfl⟩)

/-- ENC.FINISH's effect where it is a commit (R126). -/
theorem encFinishEffect_cases {s t : State} {bs : List Byte} (h : encFinishEffect s = .commit bs t) :
    (bs = [] ∧ t = s ∧ s.enc.state = .fault) ∨ (bs = [] ∧ t = s.raiseEnc .badSequence) ∨
    (s.enc.state = .active ∧ t = s.encDone ∧
      ((bs = [] ∧ s.enc.pend = []) ∨
       (s.enc.pend ≠ [] ∧ ∃ e, tableRead s.cfg.table eos = some e ∧
          bs = if s.enc.sizeOnly then [] else [paddedByte s.enc.pend e]))) := by
  unfold encFinishEffect at h
  split at h
  · cases h; exact .inl ⟨rfl, rfl, ‹_›⟩
  · cases h; exact .inr (.inl ⟨rfl, rfl⟩)
  · cases h; exact .inr (.inl ⟨rfl, rfl⟩)
  · split at h
    · cases h
      exact .inr (.inr ⟨‹_›, rfl, .inl ⟨rfl, by simpa [Encoder.nbits] using ‹s.enc.nbits = 0›⟩⟩)
    · split at h
      · cases h
      · cases h
        exact .inr (.inr ⟨‹_›, rfl, .inr ⟨by simpa [Encoder.nbits] using ‹¬ s.enc.nbits = 0›, _, ‹_›, rfl⟩⟩)

/-- DEC.BYTE's effect where it is a commit (42_decoder.md R157). -/
theorem decByteEffect_cases {b : Byte} {s t : State} {bs : List Byte} (h : decByteEffect b s = .commit bs t) :
    (bs = [] ∧ t = s ∧ s.dec.state = .failed) ∨
    (bs = [] ∧ ∃ c, t = s.raiseDec c none ∧ (c = .badSequence ∨ c = .countOverflow)) ∨
    (s.dec.state = .scanning ∧ s.dec.inCount.toNat < maxCount ∧
      bs = (scanByte s.cfg.table s.dec b).emitted ∧ t = scanCommit (scanByte s.cfg.table s.dec b) s) := by
  unfold decByteEffect at h
  split at h
  · cases h; exact .inl ⟨rfl, rfl, ‹_›⟩
  · cases h; exact .inr (.inl ⟨rfl, _, rfl, .inl rfl⟩)
  · cases h; exact .inr (.inl ⟨rfl, _, rfl, .inl rfl⟩)
  · have := s.dec.inCount.isLt
    split at h
    · cases h; exact .inr (.inl ⟨rfl, _, rfl, .inr rfl⟩)
    · cases h; exact .inr (.inr ⟨‹_›, by simp only [maxCount] at *; omega, rfl, rfl⟩)

/-! ### What a scan's commit leaves alone -/

@[simp] theorem scanCommit_cfg (r : ScanResult) (s : State) : (scanCommit r s).cfg = s.cfg := by
  unfold scanCommit; split <;> simp
@[simp] theorem scanCommit_enc (r : ScanResult) (s : State) : (scanCommit r s).enc = s.enc := by
  unfold scanCommit; split <;> simp
@[simp] theorem scanCommit_encPort (r : ScanResult) (s : State) : (scanCommit r s).encPort = s.encPort := by
  unfold scanCommit; split <;> simp
@[simp] theorem scanCommit_decPort (r : ScanResult) (s : State) : (scanCommit r s).decPort = s.decPort := by
  unfold scanCommit; split <;> simp
@[simp] theorem scanCommit_arrivals (r : ScanResult) (s : State) : (scanCommit r s).arrivals = s.arrivals := by
  unfold scanCommit; split <;> simp
@[simp] theorem scanCommit_turns (r : ScanResult) (s : State) : (scanCommit r s).turns = s.turns := by
  unfold scanCommit; split <;> simp
@[simp] theorem scanCommit_lastReply (r : ScanResult) (s : State) :
    (scanCommit r s).lastReply = s.lastReply := by unfold scanCommit; split <;> simp
@[simp] theorem scanCommit_dec_outq (r : ScanResult) (s : State) :
    (scanCommit r s).dec.outq = s.dec.outq := by
  unfold scanCommit; split <;> simp <;> rfl

/-- The next states a command can answer. -/
inductive ExecCase : Instr → State → State → Prop
  /-- NOP, a held command, or a command discarded in FAULT or FAILED. -/
  | same (i : Instr) (s : State) : ExecCase i s s
  /-- ENC.START (R124). -/
  | encStart (f : Bool) (s : State) : ExecCase (.encStart f) s { s with enc := { s.enc with
      state := .active, sizeOnly := f, pend := [], inCount := 0, totalBits := 0, err := .none } }
  /-- An encoder error (60_exceptions.md R195 to R197). -/
  | raiseEnc (i : Instr) (c : ErrorCode) (s : State)
      (hi : i = .encFinish ∨ (∃ b, i = .encByte b) ∨ ∃ id, i = .encTblrd id)
      (hc : c = .badSequence ∨ c = .countOverflow ∨ c = .badSymbolId) (hr : CanRaise i c) :
      ExecCase i s (s.raiseEnc c)
  /-- ENC.BYTE in a session (R125). -/
  | encByte (b : Byte) (s : State) (e : SymbolEntry) (ha : s.enc.state = .active)
      (he : tableRead s.cfg.table b.toNat = some e)
      (hc : s.enc.totalBits.toNat + e.len.toNat ≤ maxCount)
      (hr : (if s.enc.sizeOnly then [] else (packEntry s.enc e).1).length ≤ s.free .enc) :
      ExecCase (.encByte b) s (({ s with enc := { s.enc with
          pend := (packEntry s.enc e).2
          totalBits := BitVec.ofNat 32 (s.enc.totalBits.toNat + e.len.toNat)
          inCount := BitVec.ofNat 32 (s.enc.inCount.toNat + 1) } } : State).emit .enc
            (if s.enc.sizeOnly then [] else (packEntry s.enc e).1))
  /-- ENC.FINISH in a session (R126). -/
  | encFinish (s : State) (bs : List Byte) (ha : s.enc.state = .active) (hb : bs.length ≤ 1)
      (hr : bs.length ≤ s.free .enc) : ExecCase .encFinish s (s.encDone.emit .enc bs)
  /-- ENC.TBLRD of an id in 0..256 (R128). -/
  | encTblrd (id : BitVec 9) (s : State) (e : SymbolEntry) (he : tableRead s.cfg.table id.toNat = some e) :
      ExecCase (.encTblrd id) s { s with enc := { s.enc with tblCode := e.code.setWidth 32, tblLen := e.len } }
  /-- DEC.START (R156). -/
  | decStart (s : State) : ExecCase .decStart s (s.decBegin false 0)
  /-- DEC.START.MAX (R156). -/
  | decStartMax (n : BitVec 24) (s : State) : ExecCase (.decStartMax n) s (s.decBegin true n)
  /-- A decoder error without a position (R195, R196). -/
  | raiseDec (i : Instr) (c : ErrorCode) (s : State) (hi : i = .decFinish ∨ ∃ b, i = .decByte b)
      (hc : c = .badSequence ∨ c = .countOverflow) (hr : CanRaise i c) :
      ExecCase i s (s.raiseDec c none)
  /-- DEC.BYTE in a session (R157). -/
  | decByte (b : Byte) (s : State) (ha : s.dec.state = .scanning) (hi : s.dec.inCount.toNat < maxCount)
      (hr : (scanByte s.cfg.table s.dec b).emitted.length ≤ s.free .dec) :
      ExecCase (.decByte b) s ((scanCommit (scanByte s.cfg.table s.dec b) s).emit .dec
        (scanByte s.cfg.table s.dec b).emitted)
  /-- DEC.FINISH with acceptable padding or none (R158). -/
  | decFinish (s : State) (ha : s.dec.state = .scanning) : ExecCase .decFinish s s.decDone
  /-- DEC.FINISH with other pending bits (R158). -/
  | decPadding (s : State) (ha : s.dec.state = .scanning) (hp : s.dec.pend ≠ []) :
      ExecCase .decFinish s (s.raiseDec .invalidPadding (some s.dec.position))

/-- A command that answers a next state did one of these. -/
theorem exec_cases {i : Instr} {s t : State} (h : exec i s = .next t) : ExecCase i s t := by
  cases i with
  | encNop => cases h; exact .same _ _
  | decNop => cases h; exact .same _ _
  | encStart f => cases h; exact .encStart _ _
  | decStart => cases h; exact .decStart _
  | decStartMax n => cases h; exact .decStartMax _ _
  | encTblrd id =>
    simp only [exec, execEncTblrd] at h
    split at h
    · cases h; exact .raiseEnc _ _ _ (.inr (.inr ⟨_, rfl⟩)) (.inr (.inr rfl)) ⟨_, rfl⟩
    · split at h
      · cases h
      · cases h; exact .encTblrd _ _ _ ‹_›
  | encByte b =>
    obtain ⟨bs, u, hu, ⟨hl, rfl⟩ | ⟨hl, rfl⟩⟩ :=
      settle_cases (show settle .enc (encByteEffect b s) s = .next t from h)
    · exact .same _ _
    · rcases encByteEffect_cases hu with ⟨rfl, rfl, _⟩ | ⟨rfl, c, rfl, hc⟩ | ⟨ha, e, he, hc, rfl, rfl⟩
      · rw [State.emit_nil]; exact .same _ _
      · rw [State.emit_nil]
        refine .raiseEnc _ _ _ (.inr (.inl ⟨_, rfl⟩)) (hc.imp id .inl) ?_
        rcases hc with rfl | rfl <;> exact .inl ⟨_, rfl⟩
      · exact .encByte _ _ _ ha he hc hl
  | encFinish =>
    obtain ⟨bs, u, hu, ⟨hl, rfl⟩ | ⟨hl, rfl⟩⟩ :=
      settle_cases (show settle .enc (encFinishEffect s) s = .next t from h)
    · exact .same _ _
    · rcases encFinishEffect_cases hu with ⟨rfl, rfl, _⟩ | ⟨rfl, rfl⟩ | ⟨ha, rfl, hb⟩
      · rw [State.emit_nil]; exact .same _ _
      · rw [State.emit_nil]; exact .raiseEnc _ _ _ (.inl rfl) (.inl rfl) (.inr (.inl rfl))
      · refine .encFinish _ _ ha ?_ hl
        rcases hb with ⟨rfl, _⟩ | ⟨_, e, _, rfl⟩
        · simp
        · split <;> simp
  | decByte b =>
    obtain ⟨bs, u, hu, ⟨hl, rfl⟩ | ⟨hl, rfl⟩⟩ :=
      settle_cases (show settle .dec (decByteEffect b s) s = .next t from h)
    · exact .same _ _
    · rcases decByteEffect_cases hu with ⟨rfl, rfl, _⟩ | ⟨rfl, c, rfl, hc⟩ | ⟨ha, hc, rfl, rfl⟩
      · rw [State.emit_nil]; exact .same _ _
      · rw [State.emit_nil]
        refine .raiseDec _ _ _ (.inr ⟨_, rfl⟩) hc ?_
        rcases hc with rfl | rfl
        · exact .inr (.inr (.inl ⟨_, rfl⟩))
        · exact .inr ⟨_, rfl⟩
      · exact .decByte _ _ ha hc hl
  | decFinish =>
    simp only [exec, execDecFinish] at h
    split at h
    · cases h; exact .same _ _
    · cases h; exact .raiseDec _ _ _ (.inl rfl) (.inl rfl) (.inr (.inr (.inr rfl)))
    · cases h; exact .raiseDec _ _ _ (.inl rfl) (.inl rfl) (.inr (.inr (.inr rfl)))
    · split at h
      · cases h; exact .decFinish _ ‹_›
      · rename_i hp
        split at h
        · cases h
        · split at h
          · cases h; exact .decFinish _ ‹_›
          · cases h
            exact .decPadding _ ‹_› (by intro h0; simp [Decoder.plen, h0] at hp)

/-- No command changes the memory, the Symbol Table ROM, or a parameter (10_state.md R49), so each keeps
`Memory.wf`. -/
theorem ExecCase.cfg_eq {i : Instr} {s t : State} (h : ExecCase i s t) : t.cfg = s.cfg := by
  cases h <;> first | rfl | simp

end Sys2Proof.Machine
end

