-- ==== Sys2Proof/Laws/Decoding.lean ====
section
/-! SUPPORT. What one DEC.BYTE does in a session, in terms of the bytes it reads (42_decoder.md R157). -/

namespace Sys2Proof.Machine

/-- Bytes within the limit and the counter are not stopped. -/
theorem noStop_of {d : Decoder} {n : Nat} {S : List Byte}
    (hlim : d.limitEn = true → S ≠ [] → n + S.length ≤ d.maxlen.toNat) (hcnt : n + S.length ≤ maxCount) :
    noStop d n S := by
  induction S generalizing n with
  | nil => trivial
  | cons b S ih =>
    simp only [List.length_cons, ne_eq, reduceCtorEq, not_false_eq_true, forall_const] at hlim hcnt
    refine ⟨?_, by omega, ih ?_ (by omega)⟩
    · simp only [limitReached, Bool.and_eq_false_imp, decide_eq_false_iff_not, not_le]
      intro h; have := hlim h; omega
    · intro h _; have := hlim h; omega

/-- Each byte takes at least one code bit. -/
theorem TableFacts.length_le_totalLength {T : Table} (hT : TableFacts T) (S : List Byte) :
    5 * S.length ≤ totalLength T S ∧ totalLength T S ≤ 30 * S.length := by
  induction S with
  | nil => simp [totalLength]
  | cons b S ih =>
    obtain ⟨e, he, -⟩ := hT.matchBits_byte b []
    have := hT.lengths e (tableRead_mem he)
    simp only [totalLength, List.map_cons, List.sum_cons, List.length_cons, lengthOf, he] at *; omega

/-- The scan of a byte goes over the codewords it reads and continues with the rest. -/
theorem scanByte_reads {s : State} {b : Byte} {S : List Byte} {r : BitString} (hw : paramsWf s.cfg = true)
    (h : ReadsBytes s b S r) :
    ∃ fuel, r.length ≤ fuel ∧ scanByte s.cfg.table s.dec b =
      scanLoop s.cfg.table s.dec (fuel + 1) r
        (s.dec.position + BitVec.ofNat 35 (totalLength s.cfg.table S)) S := by
  have hT := paramsWf_table hw
  have hl := congrArg List.length h.bits
  simp only [List.length_append, byteBits_length, codeBits_length] at hl
  have hSl := (hT.length_le_totalLength S).1
  refine ⟨s.dec.pend.length + 8 - S.length, by omega, ?_⟩
  unfold scanByte
  rw [imm8Bits, h.bits]
  have := hT.scanLoop_codeBits s.dec S (s.dec.pend.length + 9 - S.length) r s.dec.position []
    (noStop_of (by simpa using h.limit) (by simpa using h.outRoom))
  rw [show s.dec.pend.length + 9 - S.length + S.length = s.dec.pend.length + 9 by omega] at this
  rw [show s.dec.pend.length + 8 - S.length + 1 = s.dec.pend.length + 9 - S.length by omega]
  simpa using this

/-- DEC.BYTE in a session with room in the input counter. -/
theorem decByteEffect_scanning {s : State} {b : Byte} (h : s.dec.state = .scanning)
    (hi : s.dec.inCount.toNat < maxCount) :
    decByteEffect b s = .commit (scanByte s.cfg.table s.dec b).emitted
      (scanCommit (scanByte s.cfg.table s.dec b) s) := by
  unfold decByteEffect; rw [h]; simp only []; rw [if_neg (by omega)]

/-- DEC.BYTE with its scan's result, where the queue has room for its bytes. -/
theorem exec_decByte_reads {s : State} {b : Byte} {S : List Byte} {r : BitString}
    {err : Option (ErrorCode × Option (BitVec 35))} (h : ReadsBytes s b S r)
    (hs : scanByte s.cfg.table s.dec b = ⟨S, err, r⟩) :
    exec (.decByte b) s = .next ((scanCommit ⟨S, err, r⟩ s).emit .dec S) := by
  show execDecByte b s = _
  unfold execDecByte
  rw [decByteEffect_scanning h.scanning h.inRoom, hs, settle_of_room h.free]

/-- `Decoder.after` is what DEC.BYTE counts and appends. -/
theorem decCount_emit_dec (s : State) (S : List Byte) :
    ({ (s.decCount S.length).dec with outq := s.dec.outq ++ S } : Decoder) = s.dec.after S := by
  simp only [State.decCount, Decoder.after]
  congr 1
  · exact BitVec.eq_of_toNat_eq (by simp)

/-- The position arithmetic of R157 and R158 does not wrap. -/
theorem position_toNat {d : Decoder} (hp : d.pend.length ≤ 8 * d.inCount.toNat) :
    d.position.toNat = 8 * d.inCount.toNat - d.pend.length := by
  have hi := d.inCount.isLt
  simp only [Decoder.position, Decoder.plen]
  have : d.pend.length < 2 ^ 35 := by omega
  simp [BitVec.toNat_sub, BitVec.toNat_mul]
  omega

/-- ERR_BYTE and ERR_BIT together are the recorded offset (10_state.md R38). -/
theorem position_split (q : BitVec 35) :
    8 * (q.extractLsb' 3 32).toNat + (q.extractLsb' 0 3).toNat = q.toNat := by
  have := q.isLt
  simp [BitVec.extractLsb'_toNat, Nat.shiftRight_eq_div_pow]; omega

end Sys2Proof.Machine
end

