-- ==== Sys2Proof/Laws/PerInstr.lean ====
section
/-! SUPPORT. One fact per command of `Instr`, family by family (LAWS.json, per_instruction). -/

namespace Sys2Proof

/-- The match and mask columns of 30_encoding.md R84, by command. -/
def rowOf : Instr → Word × Word
  | .encNop => (0x00000000#32, 0xFFFFFFFF#32)
  | .encStart _ => (0x10000000#32, 0xFEFFFFFF#32)
  | .encByte _ => (0x20000000#32, 0xFFFFFF00#32)
  | .encFinish => (0x30000000#32, 0xFFFFFFFF#32)
  | .encTblrd _ => (0x40000000#32, 0xFFFFFE00#32)
  | .decNop => (0x00000000#32, 0xFFFFFFFF#32)
  | .decStart => (0x80000000#32, 0xFFFFFFFF#32)
  | .decStartMax _ => (0x81000000#32, 0xFF000000#32)
  | .decByte _ => (0x90000000#32, 0xFFFFFF00#32)
  | .decFinish => (0xA0000000#32, 0xFFFFFFFF#32)

/-- A word is made of its three fields (R81): masking it masks each of them. -/
theorem commandWord_and (op flg op' flg' : BitVec 4) (arg arg' : BitVec 24) :
    commandWord op flg arg &&& commandWord op' flg' arg' =
      commandWord (op &&& op') (flg &&& flg') (arg &&& arg') := by
  unfold commandWord
  rw [← BitVec.and_append, ← BitVec.and_append]

/-- A narrow operand has no bit above its width. -/
theorem setWidth_and_high {w : Nat} (v : BitVec w) (m : BitVec 24) (hw : ∀ i, i < w → m.getLsbD i = false) :
    v.setWidth 24 &&& m = 0 := by
  apply BitVec.eq_of_getLsbD_eq
  intro i hi
  by_cases h : i < w
  · simp [hw i h]
  · simp [BitVec.getLsbD_of_ge v i (by omega)]

namespace Laws.MatchesItsRow

/-- The encoder's word of the command satisfies its row's match and mask. -/
def Statement (i : Instr) : Prop := encode i &&& (rowOf i).2 = (rowOf i).1

theorem encNop : Statement .encNop := by unfold Statement; decide
theorem encStart : ∀ s, Statement (.encStart s) := by
  intro s; unfold Statement; cases s <;> decide
theorem encByte : ∀ b, Statement (.encByte b) := by
  intro b
  show commandWord 0x2 0 (b.setWidth 24) &&& commandWord 0xF 0xF 0xFFFF00 = 0x20000000#32
  rw [commandWord_and, setWidth_and_high b _ (by decide)]; decide
theorem encFinish : Statement .encFinish := by unfold Statement; decide
theorem encTblrd : ∀ id, Statement (.encTblrd id) := by
  intro id
  show commandWord 0x4 0 (id.setWidth 24) &&& commandWord 0xF 0xF 0xFFFE00 = 0x40000000#32
  rw [commandWord_and, setWidth_and_high id _ (by decide)]; decide
theorem decNop : Statement .decNop := by unfold Statement; decide
theorem decStart : Statement .decStart := by unfold Statement; decide
theorem decStartMax : ∀ n, Statement (.decStartMax n) := by
  intro n
  show commandWord 0x8 1 n &&& commandWord 0xF 0xF 0x000000 = 0x81000000#32
  rw [commandWord_and, show n &&& (0x000000 : BitVec 24) = 0 by simp]; decide
theorem decByte : ∀ b, Statement (.decByte b) := by
  intro b
  show commandWord 0x9 0 (b.setWidth 24) &&& commandWord 0xF 0xF 0xFFFF00 = 0x90000000#32
  rw [commandWord_and, setWidth_and_high b _ (by decide)]; decide
theorem decFinish : Statement .decFinish := by unfold Statement; decide

end Laws.MatchesItsRow

end Sys2Proof
end

