-- ==== Sys2Proof/Laws/Step.lean ====
section
/-! SUPPORT. What a step can do: one inversion lemma per part of `step`, and the equations of the parts. -/

namespace Sys2Proof.Machine

/-- The configuration check is R101 and the ranges of 00_scope.md R6. -/
theorem configurationRefusal_none {P : Params} : configurationRefusal P = none ↔ paramsWf P = true := by
  unfold configurationRefusal paramsWf
  cases rangesOk P <;> cases tableWf P.table <;> simp

/-- Under a legal configuration a step is a move of the agents. -/
theorem step_eq_runAgents {s : State} (h : paramsWf s.cfg = true) : step s = runAgents s := by
  simp [step, configurationRefusal_none.mpr h]

/-- An engine's turn that answers a next state: nothing happened, or the oldest write completed with its word's
execution. -/
theorem engineTurn_cases {p : Port} {s t : State} (h : engineTurn p s = .next t) :
    t = s ∨ ∃ pw rest u, s.waiting p = pw :: rest ∧ wordReady p pw.word s = true ∧
      runWord p pw.word s = .next u ∧ t = u.completeWrite p pw rest := by
  unfold engineTurn at h
  split at h
  · cases h; exact .inl rfl
  · rename_i pw rest hw
    by_cases hr : wordReady p pw.word s = true
    · rw [if_pos hr] at h
      cases hu : runWord p pw.word s with
      | next u => rw [hu] at h; cases h; exact .inr ⟨pw, rest, u, hw, hr, hu, rfl⟩
      | fault f => rw [hu] at h; cases h
      | refused r => rw [hu] at h; cases h
    · rw [if_neg hr] at h; cases h; exact .inl rfl

/-- What a word's execution can be: its command's, or the error of an illegal word. -/
theorem runWord_cases {p : Port} {w : Word} {s t : State} (h : runWord p w s = .next t) :
    (∃ i, decode p w = .instr i ∧ exec i s = .next t) ∨
      (∃ why, decode p w = .illegal why ∧ t = s.raiseIllegal p) := by
  unfold runWord at h
  split at h
  · exact .inl ⟨_, ‹_›, h⟩
  · cases h; exact .inr ⟨_, ‹_›, rfl⟩

/-- A word that is ready is one whose command is not held. -/
theorem wordReady_instr {p : Port} {w : Word} {s : State} {i : Instr} (hd : decode p w = .instr i) :
    wordReady p w s = !isHeld i s := by simp [wordReady, hd]

theorem wordReady_illegal {p : Port} {w : Word} {s : State} {why : Illegal} (hd : decode p w = .illegal why) :
    wordReady p w s = true := by simp [wordReady, hd]

/-- Serving an arrival that answers a next state: reset, a read, or a write, in the register space. -/
theorem serve_cases {a : Arrival} {s t : State} (h : serve a s = .next t) :
    (∃ d, a = .reset d ∧ t = s.hardReset d) ∨
    (∃ th addr width off, a = .access th (.read addr width) ∧ s.cfg.spaceOffset addr = some off ∧
      t = s.serveRead th off width) ∨
    (∃ th addr width value off, a = .access th (.write addr width value) ∧
      s.cfg.spaceOffset addr = some off ∧ t = s.serveWrite th off width value) := by
  match a with
  | .reset d => cases h; exact .inl ⟨d, rfl, rfl⟩
  | .access th (.read addr width) =>
    simp only [serve] at h
    split at h
    · cases h; exact .inr (.inl ⟨th, addr, width, _, rfl, ‹_›, rfl⟩)
    · cases h
  | .access th (.write addr width value) =>
    simp only [serve] at h
    split at h
    · cases h; exact .inr (.inr ⟨th, addr, width, value, _, rfl, ‹_›, rfl⟩)
    · cases h

/-- The host's turn that answers a next state. -/
theorem hostTurn_cases {s t : State} (h : hostTurn s = .next t) :
    t = s ∨ ∃ a rest, s.nextArrival = some (a, rest) ∧ serve a { s with arrivals := rest } = .next t := by
  unfold hostTurn at h
  split at h
  · cases h; exact .inl rfl
  · exact .inr ⟨_, _, ‹_›, h⟩

/-- An agent's turn that answers a next state. -/
theorem takeTurn_cases {a : Agent} {s t : State} (h : takeTurn a s = .next t) :
    (∃ p, engineTurn p s = .next t) ∨ hostTurn s = .next t := by
  cases a with
  | host => exact .inr h
  | enc => exact .inl ⟨.enc, h⟩
  | dec => exact .inl ⟨.dec, h⟩

/-- Whose turn it is decides nothing about the ports. -/
@[simp] theorem State.waiting_turns (s : State) (ts : List Agent) (p : Port) :
    ({ s with turns := ts } : State).waiting p = s.waiting p := by cases p <;> rfl

theorem takeTurn_portAgent (p : Port) (s : State) : takeTurn (portAgent p) s = engineTurn p s := by
  cases p <;> rfl

/-- A turn laid down is taken, while some agent can move. -/
theorem step_of_turns {s : State} {b : Agent} {ts : List Agent} (hw : paramsWf s.cfg = true)
    (ht : s.turns = b :: ts) (hp : promptAgent s ≠ none) : step s = takeTurn b { s with turns := ts } := by
  rw [step_eq_runAgents hw]
  unfold runAgents
  cases h : promptAgent s with
  | none => exact absurd h hp
  | some a => simp [ht]

/-- With no turn laid down the prompt order's agent moves. -/
theorem step_of_promptAgent {s : State} {a : Agent} (hw : paramsWf s.cfg = true) (ht : s.turns = [])
    (hp : promptAgent s = some a) : step s = takeTurn a s := by
  rw [step_eq_runAgents hw]
  unfold runAgents
  simp [hp, ht]

/-- An agent can move where an engine's word is ready. -/
theorem promptAgent_of_portReady {s : State} {p : Port} (h : portReady p s = true) : promptAgent s ≠ none := by
  unfold promptAgent
  cases p <;> simp only [h] <;> (repeat' split) <;> simp_all

/-- An agent can move where the host has something it can do. -/
theorem promptAgent_of_nextArrival {s : State} {x : Arrival × List Arrival} (h : s.nextArrival = some x) :
    promptAgent s ≠ none := by
  unfold promptAgent
  simp only [h]
  (repeat' split) <;> simp_all

/-- Everything a step can answer with a next state. The agent's turn is taken in the state itself, or in the
state with the turn laid down for it removed. -/
theorem step_cases {s t : State} (h : step s = .next t) :
    paramsWf s.cfg = true ∧
      (t = s ∨ ∃ a ts, takeTurn a { s with turns := ts } = .next t) := by
  unfold step at h
  split at h
  · cases h
  · rename_i hc
    refine ⟨configurationRefusal_none.mp hc, ?_⟩
    unfold runAgents at h
    split at h
    · split at h
      · cases h
      · cases h; exact .inl rfl
    · split at h
      · exact .inr ⟨_, s.turns, h⟩
      · exact .inr ⟨_, _, h⟩

/-- The first arrival that can happen is one of the list, and can happen. -/
theorem firstArrival_some {ok : Arrival → Bool} {L : List Arrival} {a : Arrival} {rest : List Arrival}
    (h : firstArrival ok L = some (a, rest)) :
    ok a = true ∧ ∃ before, (∀ x ∈ before, ok x = false) ∧ ∃ after, L = before ++ a :: after ∧
      rest = before ++ after := by
  induction L generalizing rest with
  | nil => simp [firstArrival] at h
  | cons x L ih =>
    unfold firstArrival at h
    by_cases hx : ok x = true
    · rw [if_pos hx] at h
      cases h
      exact ⟨hx, [], by simp, L, rfl, rfl⟩
    · rw [if_neg hx] at h
      split at h
      · rename_i y others hy
        cases h
        obtain ⟨ha, before, hb, after, hL, hr⟩ := ih hy
        refine ⟨ha, x :: before, ?_, after, by rw [hL]; rfl, by rw [hr]; rfl⟩
        intro z hz
        rcases List.mem_cons.mp hz with rfl | hz
        · simpa using hx
        · exact hb z hz
      · cases h

/-- No arrival can happen exactly where every one of them is blocked. -/
theorem firstArrival_none {ok : Arrival → Bool} {L : List Arrival} :
    firstArrival ok L = none ↔ ∀ a ∈ L, ok a = false := by
  induction L with
  | nil => simp [firstArrival]
  | cons x L ih =>
    unfold firstArrival
    by_cases hx : ok x = true
    · simp [hx]
    · have hx' : ok x = false := by simpa using hx
      rw [if_neg hx]
      cases hf : firstArrival ok L with
      | none => simpa [hx'] using ih.mp hf
      | some y =>
        have : ¬ ∀ a ∈ L, ok a = false := fun h => by rw [ih.mpr h] at hf; cases hf
        simpa [hx'] using this

/-- The offsets of the registers are in the register space (10_state.md R42, 20_memory.md R62). -/
theorem regOffset_lt (r : Reg) : regOffset r < 128 := by cases r <;> decide

theorem regAt_regOffset (r : Reg) : regAt (regOffset r) = some r := by cases r <;> decide

theorem spaceOffset_add (P : Params) {off : Nat} (h : off < 128) :
    P.spaceOffset (P.huffBase + off) = some off := by
  simp [Params.spaceOffset, h]

theorem spaceOffset_some {P : Params} {addr off : Nat} (h : P.spaceOffset addr = some off) :
    addr = P.huffBase + off ∧ off < 128 := by
  unfold Params.spaceOffset at h
  split at h
  · cases h; omega
  · cases h

/-- A command port is reached by a whole-word write at its offset only (20_memory.md R67, R69). -/
theorem writeTarget_some {off width : Nat} {p : Port} (h : writeTarget off width = some p) :
    width = 32 ∧ off = if p = .enc then 0x00 else 0x40 := by
  unfold writeTarget at h
  have key : ∀ r, readTarget off width = some r → width = 32 ∧ off = regOffset r := by
    intro r hr
    unfold readTarget at hr
    split at hr
    · rename_i hw
      have hf := List.find?_some hr
      simp only [wholeWord, Bool.and_eq_true, beq_iff_eq] at hw hf
      exact ⟨hw.1, hf.symm⟩
    · cases hr
  split at h
  · cases h; exact key _ ‹_›
  · cases h; exact key _ ‹_›
  · cases h

/-- A read never touches a port's waiting writes. -/
@[simp] theorem State.serveRead_waiting (s : State) (t off width : Nat) (p : Port) :
    (s.serveRead t off width).waiting p = s.waiting p := by
  unfold State.serveRead State.readEffect
  cases readTarget off width with
  | none => cases p <;> rfl
  | some r => cases r <;> cases p <;> rfl

/-- The host side decides nothing about the hold. -/
theorem isHeld_host (i : Instr) (s : State) (ep dp : List PortWrite) (ar : List Arrival) (ts : List Agent)
    (lr : Option Reply) :
    isHeld i { s with encPort := ep, decPort := dp, arrivals := ar, turns := ts, lastReply := lr } =
      isHeld i s := by
  cases i with
  | encByte b =>
    simp only [isHeld, encByteEffect]
    cases s.enc.state <;> simp only [] <;> try rfl
    cases tableRead s.cfg.table (imm8Id b) <;> simp only [] <;> try rfl
    split <;> rfl
  | encFinish =>
    simp only [isHeld, encFinishEffect]
    cases s.enc.state <;> simp only [] <;> try rfl
    split <;> try rfl
    cases tableRead s.cfg.table eos <;> rfl
  | decByte b =>
    simp only [isHeld, decByteEffect]
    cases s.dec.state <;> simp only [] <;> try rfl
    split <;> rfl
  | _ => rfl
end Sys2Proof.Machine
end

