-- ==== Sys2Proof/Machine/Assembler.lean ====
section
/-! DEFINITION. The text of the assembler (30_encoding.md R89, R90): from a line of characters to the host actions
it stands for. The details of the text that R89 leaves open are log entry 16. No step reads any of this. -/

namespace Sys2Proof.Machine

/-! ### Tokens -/

/-- A token of a line. -/
inductive Token where
  | word (cs : List Char)
  | comma
  /-- A double-quoted string. -/
  | str (cs : List Char)
  /-- A quoted single character. -/
  | chr (c : Char)
  deriving DecidableEq, Repr

/-- What the scanner is inside of. -/
inductive LexMode where
  | gap
  | word (cs : List Char)
  | str (cs : List Char)
  | quote
  | quoted (c : Char)
  deriving DecidableEq, Repr

/-- A space or a tab. -/
def isBlank (c : Char) : Bool := c == ' ' || c == '\t'

/-- Puts a token in front of the ones that follow. -/
def withToken (t : Token) (ts : Option (List Token)) : Option (List Token) := ts.map fun l => t :: l

/-- The tokens of a line up to its comment ("`;` starts a comment", R89); none where a quote is not closed. -/
def lexFrom : LexMode → List Char → Option (List Token)
  | .gap, [] => some []
  | .word cs, [] => some [.word cs]
  | .str _, [] => none
  | .quote, [] => none
  | .quoted _, [] => none
  | .gap, c :: rest =>
    if c = ';' then some []
    else if isBlank c then lexFrom .gap rest
    else if c = ',' then withToken .comma (lexFrom .gap rest)
    else if c = '"' then lexFrom (.str []) rest
    else if c = '\'' then lexFrom .quote rest
    else lexFrom (.word [c]) rest
  | .word cs, c :: rest =>
    if c = ';' then some [.word cs]
    else if isBlank c then withToken (.word cs) (lexFrom .gap rest)
    else if c = ',' then withToken (.word cs) (withToken .comma (lexFrom .gap rest))
    else if c = '"' ∨ c = '\'' then none
    else lexFrom (.word (cs ++ [c])) rest
  | .str cs, c :: rest =>
    if c = '"' then withToken (.str cs) (lexFrom .gap rest) else lexFrom (.str (cs ++ [c])) rest
  | .quote, c :: rest => lexFrom (.quoted c) rest
  | .quoted d, c :: rest => if c = '\'' then withToken (.chr d) (lexFrom .gap rest) else none

/-! ### Immediates -/

/-- The value of a digit in a base up to 16. -/
def digitValue (base : Nat) (c : Char) : Option Nat :=
  let n := c.toNat
  let v :=
    if 48 ≤ n ∧ n ≤ 57 then n - 48
    else if 97 ≤ n ∧ n ≤ 102 then n - 87
    else if 65 ≤ n ∧ n ≤ 70 then n - 55
    else 16
  if v < base then some v else none

/-- The digits of a number in a base, the value of the ones before being `acc`. -/
def digitsFrom (base : Nat) : Nat → List Char → Option Nat
  | acc, [] => some acc
  | acc, c :: cs =>
    match digitValue base c with
    | some v => digitsFrom base (acc * base + v) cs
    | none => none

/-- A number of at least one digit. -/
def number (base : Nat) : List Char → Option Nat
  | [] => none
  | c :: cs => digitsFrom base 0 (c :: cs)

/-- "Immediates are decimal, `0x` hexadecimal" (R89). -/
def immediate : List Char → Option Nat
  | '0' :: 'x' :: cs => number 16 cs
  | cs => number 10 cs

/-- An element of a hex list (R90): hexadecimal, with or without `0x`. -/
def hexElement : List Char → Option Nat
  | '0' :: 'x' :: cs => number 16 cs
  | cs => number 16 cs

/-- The rest of a line as a hex list. -/
def hexList : List Token → Option (List Nat)
  | [] => some []
  | .word cs :: ts =>
    match hexElement cs, hexList ts with
    | some h, some hs => some (h :: hs)
    | _, _ => none
  | .comma :: _ => none
  | .str _ :: _ => none
  | .chr _ :: _ => none

/-- The imm8 of `enc.byte` and `dec.byte`: a number, "or a quoted single character for imm8 (its ASCII code)" (R89).
DESIGN CHOICE (log entry 16): a quoted character outside ASCII, for which R89 gives no code, stands for its Unicode
code point, so 128 to 255 is that byte and the assembler refuses a larger one. -/
def byteOperand : Token → Option Nat
  | .word cs => immediate cs
  | .chr c => some c.toNat
  | .comma => none
  | .str _ => none

/-- A number as an operand. -/
def numberOperand : Token → Option Nat
  | .word cs => immediate cs
  | .chr _ => none
  | .comma => none
  | .str _ => none

/-- A string as an operand: one byte for each character, its code (R90). DESIGN CHOICE (log entry 16): R90 names no
text encoding, so a character outside ASCII is the one byte of its Unicode code point, and the assembler refuses one
above 255. -/
def stringOperand : Token → Option (List Nat)
  | .str cs => some (cs.map Char.toNat)
  | .word _ => none
  | .chr _ => none
  | .comma => none

/-! ### Lines -/

/-- The name of a register (10_state.md R42). -/
def regName : Reg → String
  | .encCmd => "ENC_CMD"
  | .encStatus => "ENC_STATUS"
  | .encAcc => "ENC_ACC"
  | .encInCount => "ENC_IN_COUNT"
  | .encTotalBits => "ENC_TOTAL_BITS"
  | .encSize => "ENC_SIZE"
  | .encTblCode => "ENC_TBL_CODE"
  | .encTblLen => "ENC_TBL_LEN"
  | .encOut => "ENC_OUT"
  | .encOutqLevel => "ENC_OUTQ_LEVEL"
  | .decCmd => "DEC_CMD"
  | .decStatus => "DEC_STATUS"
  | .decPend => "DEC_PEND"
  | .decInCount => "DEC_IN_COUNT"
  | .decOutCount => "DEC_OUT_COUNT"
  | .decMaxlen => "DEC_MAXLEN"
  | .decErrByte => "DEC_ERR_BYTE"
  | .decErrBit => "DEC_ERR_BIT"
  | .decOut => "DEC_OUT"
  | .decOutqLevel => "DEC_OUTQ_LEVEL"
  | .coreParams => "CORE_PARAMS"
  | .coreId => "CORE_ID"

/-- The register of a name. -/
def regOfName (cs : List Char) : Option Reg := allRegs.find? fun r => (regName r).toList == cs

/-- The lines without an operand. -/
def plainLines : List (String × AsmLine) :=
  [("enc.nop", .encNop), ("enc.start", .encStart), ("enc.start.size", .encStartSize),
   ("enc.finish", .encFinish), ("dec.nop", .decNop), ("dec.start", .decStart), ("dec.finish", .decFinish)]

/-- The lines with one operand: how it is read, and what the line is. -/
def operandLines : List (String × (Token → Option AsmLine)) :=
  [("enc.byte", fun t => (byteOperand t).map .encByte),
   ("enc.tblrd", fun t => (numberOperand t).map .encTblrd),
   ("dec.start.max", fun t => (numberOperand t).map .decStartMax),
   ("dec.byte", fun t => (byteOperand t).map .decByte),
   ("enc.str", fun t => (stringOperand t).map .encStr),
   ("enc.encode", fun t => (stringOperand t).map .encEncode),
   ("enc.sizeof", fun t => (stringOperand t).map .encSizeof),
   ("rd", fun t => match t with
      | .word cs => (regOfName cs).map .rd
      | _ => none),
   ("pop", fun t => match t with
      | .word cs =>
        if cs = "enc".toList then some (.pop .enc) else if cs = "dec".toList then some (.pop .dec) else none
      | _ => none)]

/-- The lines with a hex list. -/
def hexLines : List (String × (List Nat → AsmLine)) :=
  [("enc.hex", .encHex), ("dec.hex", .decHex), ("dec.decode", .decDecode)]

/-- The entry of a mnemonic. -/
def lookupLine {α : Type} (L : List (String × α)) (m : List Char) : Option α :=
  (L.find? fun p => p.1.toList == m).map Prod.snd

/-- The line that a mnemonic and its operands spell (R89, R90). -/
def parseLine (m : List Char) (ops : List Token) : Option AsmLine :=
  match lookupLine hexLines m with
  | some build => (hexList ops).map build
  | none =>
    match ops with
    | [] => lookupLine plainLines m
    | [t] => (lookupLine operandLines m).bind fun read => read t
    | t :: .comma :: ts =>
      if m = "dec.decode.max".toList then
        match numberOperand t, hexList ts with
        | some n, some hs => some (.decDecodeMax n hs)
        | _, _ => none
      else none
    | _ :: _ :: _ => none

/-- The assembler on one line of text: what it makes the host do; nothing for a blank line or a comment; none
where it refuses the line. -/
def assembleText (line : String) : Option (List HostAction) :=
  match lexFrom .gap line.toList with
  | none => none
  | some [] => some []
  | some (.word m :: ops) => (parseLine m ops).bind assemble
  | some (.comma :: _) => none
  | some (.str _ :: _) => none
  | some (.chr _ :: _) => none

/-- The assembler on a program, "one command per line" (R89): the host actions in order. -/
def assembleProgram : List String → Option (List HostAction)
  | [] => some []
  | l :: ls =>
    match assembleText l, assembleProgram ls with
    | some as, some bs => some (as ++ bs)
    | _, _ => none

/-- A program as what a host thread will do: its accesses, in order (70_reset_and_hazards.md R239). -/
def programArrivals (P : Params) (thread : Nat) (lines : List String) : Option (List Arrival) :=
  (assembleProgram lines).map fun as => as.map (actionArrival P thread)

end Sys2Proof.Machine
end

