-- ==== Sys2Proof/Tests/Slice0.lean ====
section
/-! SUPPORT. Tests: the refusals of the well-formedness checks, decoding of words written out from the spec,
vectors of 95_test_vectors.md, and for every obligation with hypotheses a witness that meets them. -/

namespace Sys2Proof.Tests

/- The tests are checked one after the other: each `decide +kernel` over the 257 entries of the table holds memory
while it is checked. -/
set_option Elab.async false

open Sys2Proof Sys2Proof.Machine

/-! ### Well-formedness: each check refuses an ill-formed term (30_encoding.md R89, 40_symbol_table.md R101) -/

theorem test_asm_encByte_refused : assemble (.encByte 256) = none := by decide
theorem test_asm_encTblrd_refused : assemble (.encTblrd 512) = none := by decide
theorem test_asm_encTblrd_511_accepted :
    assemble (.encTblrd 511) = some [.command .enc 0x400001FF#32] := by decide
theorem test_asm_decStartMax_refused : assemble (.decStartMax 0x1000000) = none := by decide
theorem test_asm_decByte_refused : assemble (.decByte 256) = none := by decide
theorem test_asm_strings_refused :
    assemble (.encStr [0x61, 256]) = none ∧ assemble (.encHex [256]) = none ∧
    assemble (.encEncode [256]) = none ∧ assemble (.encSizeof [256]) = none ∧
    assemble (.decHex [256]) = none ∧ assemble (.decDecode [256]) = none ∧
    assemble (.decDecodeMax 0 [256]) = none ∧ assemble (.decDecodeMax 0x1000000 []) = none := by decide
/-- `enc.encode "a"` (R90): START, the byte, FINISH. -/
theorem test_asm_encEncode : assemble (.encEncode [0x61]) =
    some [.command .enc 0x10000000#32, .command .enc 0x20000061#32, .command .enc 0x30000000#32] := by decide
/-- `dec.decode.max 15, f1` (R90) and `pop dec`. -/
theorem test_asm_decDecodeMax : assemble (.decDecodeMax 15 [0xF1]) =
    some [.command .dec 0x8100000F#32, .command .dec 0x900000F1#32, .command .dec 0xA0000000#32] ∧
    assemble (.pop .dec) = some [.readReg .decOut] := by decide

/-- Lines of program text (95_test_vectors.md 3, 30_encoding.md R89, R90). -/
theorem test_asm_text :
    assembleText "    enc.byte 'w'           ; 20000077  pops: -" = some [.command .enc 0x20000077#32] ∧
    assembleText "dec.byte 0xF1" = some [.command .dec 0x900000F1#32] ∧
    assembleText "dec.decode.max 15, f1" = some [.command .dec 0x8100000F#32, .command .dec 0x900000F1#32,
      .command .dec 0xA0000000#32] ∧
    assembleText "rd ENC_STATUS" = some [.readReg .encStatus] ∧ assembleText "; a comment" = some [] ∧
    assembleText "enc.tblrd 512" = none ∧ assembleText "enc.bite 1" = none := by decide +kernel
/-- "The empty string expands to no ENC.BYTE" (R90). -/
theorem test_asm_program :
    assembleProgram ["enc.encode \"\"", "pop enc"] =
      some [.command .enc 0x10000000#32, .command .enc 0x30000000#32, .readReg .encOut] := by decide +kernel

theorem test_ranges_refused : rangesOk { huffcoreParams with outqDepth := 3 } = false ∧
    rangesOk { huffcoreParams with outqDepth := 256 } = false ∧
    rangesOk { huffcoreParams with maxPadBits := 6 } = false ∧
    rangesOk { huffcoreParams with maxPadBits := 30 } = false ∧
    rangesOk { huffcoreParams with huffBase := 2 } = false := by decide +kernel
theorem test_configuration_refused :
    configurationRefusal { huffcoreParams with table := [] } = some .malformedTable ∧
    configurationRefusal { huffcoreParams with outqDepth := 3 } = some .parameterOutOfRange := by decide +kernel

theorem test_tableRead_range : tableRead huffcoreTable 256 = some (entry 0x3fffffff 30) ∧
    tableRead huffcoreTable 257 = none := by decide +kernel

/-! ### Decoding: one word per constructor, written from 30_encoding.md R81, R84 -/

theorem test_decode_encNop : decode .enc 0b00000000000000000000000000000000#32 = .instr .encNop := by decide
theorem test_decode_encStart : decode .enc 0b00010001000000000000000000000000#32 = .instr (.encStart true) := by
  decide
theorem test_decode_encByte : decode .enc 0b00100000000000000000000001100001#32 = .instr (.encByte 0x61) := by
  decide
theorem test_decode_encFinish : decode .enc 0b00110000000000000000000000000000#32 = .instr .encFinish := by decide
theorem test_decode_encTblrd : decode .enc 0b01000000000000000000000100000001#32 = .instr (.encTblrd 257) := by
  decide
theorem test_decode_decNop : decode .dec 0b00000000000000000000000000000000#32 = .instr .decNop := by decide
theorem test_decode_decStart : decode .dec 0b10000000000000000000000000000000#32 = .instr .decStart := by decide
theorem test_decode_decStartMax :
    decode .dec 0b10000001000000010000000000001111#32 = .instr (.decStartMax 0x01000F) := by decide
theorem test_decode_decByte : decode .dec 0b10010000000000000000000011110001#32 = .instr (.decByte 0xF1) := by
  decide
theorem test_decode_decFinish : decode .dec 0b10100000000000000000000000000000#32 = .instr .decFinish := by decide
/-- 95_test_vectors.md 2.1 and 2.2: illegal words. -/
theorem test_decode_illegal :
    decode .enc 0x20000100#32 = .illegal .mustBeZero ∧ decode .enc 0x40000200#32 = .illegal .mustBeZero ∧
    decode .enc 0x50000000#32 = .illegal .unassignedOpcode ∧
    decode .enc 0x80000000#32 = .illegal .otherPortsOpcode ∧
    decode .enc 0x12000000#32 = .illegal .mustBeZero ∧ decode .enc 0x10000001#32 = .illegal .mustBeZero ∧
    decode .enc 0x30000001#32 = .illegal .mustBeZero ∧ decode .enc 0x00000001#32 = .illegal .mustBeZero ∧
    decode .dec 0x80000005#32 = .illegal .mustBeZero ∧ decode .dec 0x10000000#32 = .illegal .otherPortsOpcode ∧
    decode .dec 0xB0000000#32 = .illegal .unassignedOpcode ∧
    decode .dec 0x82000000#32 = .illegal .mustBeZero := by decide
theorem test_decodeTableWord : decodeTableWord 32 0x8100000F = some (.decStartMax 15) ∧
    decodeTableWord 32 0x20000061 = some (.encByte 0x61) ∧ decodeTableWord 32 0 = some .encNop ∧
    decodeTableWord 32 0x20000100 = none := by decide

/-! ### Small states -/

/-- Reset with an encoder session in the given mode. -/
def encState (m : EncMode) (pend : BitString) (inCount totalBits : Nat) (outq : List Byte) : State :=
  { State.reset with enc := { Encoder.reset with
      state := m, pend := pend, inCount := BitVec.ofNat 32 inCount, totalBits := BitVec.ofNat 32 totalBits,
      err := if m = .fault then .illegalCommand else .none, outq := outq } }

/-- Reset with a decoder session in the given mode. -/
def decState (m : DecMode) (pend : BitString) (inCount outCount : Nat) (outq : List Byte) : State :=
  { State.reset with dec := { Decoder.reset with
      state := m, pend := pend, inCount := BitVec.ofNat 32 inCount, outCount := BitVec.ofNat 32 outCount,
      err := if m = .failed then .illegalCommand else .none, outq := outq } }

/-- The encoder part of an outcome. -/
def encOf (o : Host.Outcome State Fault Refusal) : Option Encoder := (nextOf o).map State.enc

/-- The decoder part of an outcome. -/
def decOf (o : Host.Outcome State Fault Refusal) : Option Decoder := (nextOf o).map State.dec

/-- What an encoder vector of 95_test_vectors.md lists: STATE, NBITS, ENC_ACC, IN, TB, ERR, OUTQ. -/
structure EncView where
  state : EncMode
  nbits : Nat
  acc : Nat
  inCount : Nat
  totalBits : Nat
  err : ErrorCode
  outq : List Byte
  deriving DecidableEq, Repr

def encView (o : Host.Outcome State Fault Refusal) : Option EncView :=
  (encOf o).map fun e => ⟨e.state, e.nbits, valOf e.pend, e.inCount.toNat, e.totalBits.toNat, e.err, e.outq⟩

/-- What a decoder vector lists: STATE, PLEN, DEC_PEND, IN, OUT, ERR, POS as a bit offset, OUTQ. -/
structure DecView where
  state : DecMode
  plen : Nat
  pend : Nat
  inCount : Nat
  outCount : Nat
  err : ErrorCode
  pos : Nat
  outq : List Byte
  deriving DecidableEq, Repr

def decView (o : Host.Outcome State Fault Refusal) : Option DecView :=
  (decOf o).map fun d => ⟨d.state, d.plen, valOf d.pend, d.inCount.toNat, d.outCount.toNat, d.err,
    8 * d.errByte.toNat + d.errBit.toNat, d.outq⟩

/-- The queue of the hold vector (section 2.3): 8 bytes. -/
def fullQueue : List Byte := [0xf1, 0xff, 0xff, 0xff, 0xe7, 0xff, 0xff, 0xff]

/-! ### Vectors of 95_test_vectors.md 2.1 to 2.4, one step each -/

/-- "NOP in ACTIVE". -/
theorem test_encNop_active : encView (exec .encNop (encState .active (bitsOf 5 3) 1 5 [])) =
    some ⟨.active, 5, 3, 1, 5, .none, []⟩ := by decide +kernel
/-- "START aborts ACTIVE", "START leaves FAULT". -/
theorem test_encStart : encView (exec (.encStart false) (encState .active (bitsOf 5 3) 1 5 [0xAA])) =
      some ⟨.active, 0, 0, 0, 0, .none, [0xAA]⟩ ∧
    encView (exec (.encStart false) (encState .fault [] 0 0 [])) = some ⟨.active, 0, 0, 0, 0, .none, []⟩ := by
  decide +kernel
/-- "BYTE 'w' then 0x0A: 4 bytes". -/
theorem test_encByte_four_bytes : encView (exec (.encByte 0x0A) (encState .active (bitsOf 7 0x78) 1 7 [])) =
    some ⟨.active, 5, 0x1C, 2, 37, .none, [0xf1, 0xff, 0xff, 0xff]⟩ := by decide +kernel
/-- Section 2.3: held with 3 free bytes, executes with 4. -/
theorem test_encByte_hold :
    encView (exec (.encByte 0x0A) (encState .active (bitsOf 3 4) 3 67 (fullQueue.drop 3))) =
      some ⟨.active, 3, 4, 3, 67, .none, [0xff, 0xe7, 0xff, 0xff, 0xff]⟩ ∧
    encView (exec (.encByte 0x0A) (encState .active (bitsOf 3 4) 3 67 (fullQueue.drop 4))) =
      some ⟨.active, 1, 0, 4, 97, .none, [0xe7, 0xff, 0xff, 0xff, 0x9f, 0xff, 0xff, 0xfe]⟩ := by decide +kernel
/-- "FINISH '0','0' pads 6". -/
theorem test_encFinish_pads : encView (exec .encFinish (encState .active (bitsOf 2 0) 2 10 [])) =
    some ⟨.done, 0, 0, 2, 10, .none, [0x3f]⟩ := by decide +kernel
/-- "FINISH twice" and "FINISH in FAULT". -/
theorem test_encFinish_sequence : encView (exec .encFinish (encState .done [] 0 0 [])) =
      some ⟨.fault, 0, 0, 0, 0, .badSequence, []⟩ ∧
    encView (exec .encFinish (encState .fault [] 0 0 [])) = some ⟨.fault, 0, 0, 0, 0, .illegalCommand, []⟩ := by
  decide +kernel
/-- "TBLRD 256 (EOS)" and "TBLRD legal in FAULT". -/
theorem test_encTblrd_reads :
    (encOf (exec (.encTblrd 256) State.reset)).map (fun e => (e.tblCode, e.tblLen)) =
      some (0x3FFFFFFF, 30) ∧
    (encOf (exec (.encTblrd 0x61) (encState .fault [] 0 0 []))).map
        (fun e => (e.state, e.err, e.tblCode, e.tblLen)) = some (.fault, .illegalCommand, 3, 5) := by
  decide +kernel
/-- "TBLRD 511": BAD_SYMBOL_ID, the session's registers kept. -/
theorem test_encTblrd_faults : encView (exec (.encTblrd 511) (encState .active (bitsOf 5 3) 1 5 [])) =
    some ⟨.fault, 5, 3, 1, 5, .badSymbolId, []⟩ := by decide +kernel
/-- "NOP at reset". -/
theorem test_decNop : decView (exec .decNop State.reset) = some ⟨.idle, 0, 0, 0, 0, .none, 0, []⟩ := by
  decide +kernel
/-- "START abandons pending". -/
theorem test_decStart : decView (exec .decStart (decState .scanning (bitsOf 1 1) 1 1 [])) =
    some ⟨.scanning, 0, 0, 0, 0, .none, 0, []⟩ := by decide +kernel
/-- "START.MAX 0xFFFFFF". -/
theorem test_decStartMax : (decOf (exec (.decStartMax 0xFFFFFF) State.reset)).map
    (fun d => (d.state, d.limitEn, d.maxlen.toNat)) = some (.scanning, true, 16777215) := by decide +kernel
/-- "BYTE 01 00 (2 symbols)", the second byte. -/
theorem test_decByte_two_symbols : decView (exec (.decByte 0x00) (decState .scanning (bitsOf 3 1) 1 1 [0x30])) =
    some ⟨.scanning, 1, 0, 2, 3, .none, 0, [0x30, 0x63, 0x30]⟩ := by decide +kernel
/-- "BYTE 1F FF FF FF FF (EOS after 'a')", the last byte: INVALID_CODE at 0/5, PEND kept. -/
theorem test_decByte_eos : decView (exec (.decByte 0xFF) (decState .scanning (ones 27) 4 1 [])) =
    some ⟨.failed, 27, 0x7FFFFFF, 5, 1, .invalidCode, 5, []⟩ := by decide +kernel
/-- "FINISH after 18": 000 is no EOS prefix, INVALID_PADDING at 0/5. -/
theorem test_decFinish_bad_padding : decView (exec .decFinish (decState .scanning (bitsOf 3 0) 1 1 [])) =
    some ⟨.failed, 3, 0, 1, 1, .invalidPadding, 5, []⟩ := by decide +kernel
/-- "FINISH after FF FF FF": 24 ones accepted with MAX_PAD_BITS = 29; at 7, eight ones are refused. -/
theorem test_decFinish_padding_limit : decView (exec .decFinish (decState .scanning (ones 24) 3 0 [])) =
      some ⟨.done, 0, 0, 3, 0, .none, 0, []⟩ ∧
    decView (exec .decFinish { decState .scanning (ones 8) 1 0 [] with
        cfg := { huffcoreParams with maxPadBits := 7 } }) =
      some ⟨.failed, 8, 0xFF, 1, 0, .invalidPadding, 0, []⟩ := by decide +kernel
/-- Section 2.4: the four counter vectors. -/
theorem test_counter_overflow :
    encView (exec (.encByte 0x61) (encState .active [] 0 (2 ^ 32 - 6) [])) =
      some ⟨.active, 5, 3, 1, 2 ^ 32 - 1, .none, []⟩ ∧
    encView (exec (.encByte 0x61) (encState .active [] 0 (2 ^ 32 - 5) [])) =
      some ⟨.fault, 0, 0, 0, 2 ^ 32 - 5, .countOverflow, []⟩ ∧
    decView (exec (.decByte 0x1F) (decState .scanning [] (2 ^ 32 - 1) 0 [])) =
      some ⟨.failed, 0, 0, 2 ^ 32 - 1, 0, .countOverflow, 0, []⟩ ∧
    decView (exec (.decByte 0x1F) (decState .scanning [] 5 (2 ^ 32 - 1) [])) =
      some ⟨.failed, 0, 0, 6, 2 ^ 32 - 1, .countOverflow, 0, []⟩ := by decide +kernel

/-! ### The register interface (95_test_vectors.md 2.5) -/

theorem test_registers_enc :
    (encState .active (bitsOf 7 0x78) 1 7 []).readWord 0x04 32 = 0x00000071 ∧
    (encState .active (bitsOf 7 0x78) 1 7 []).readWord 0x08 32 = 0x00000078 ∧
    State.reset.readWord 0x7C 32 = 0x48554631 ∧ State.reset.readWord 0x78 32 = 0x1E051D08 ∧
    State.reset.readWord 0x00 32 = 0 ∧ State.reset.readWord 0x28 32 = 0 ∧
    State.reset.readWord 0x70 32 = 0 := by decide +kernel
theorem test_registers_dec :
    ({ decState .scanning (bitsOf 1 1) 1 1 [0x77] with
        dec := { (decState .scanning (bitsOf 1 1) 1 1 [0x77]).dec with limitEn := true, maxlen := 15 } } :
          State).readWord 0x44 32 = 0x00000105 ∧
    (decState .scanning [] 1 1 [0x77]).readWord 0x60 32 = 0x00000177 ∧
    ((decState .scanning [] 1 1 [0x77]).readEffect 0x60 32).readWord 0x60 32 = 0 ∧
    (decState .scanning [] 1 1 [0x77]).readWord 0x60 8 = 0 ∧
    (decState .scanning [] 1 1 [0x77]).readEffect 0x60 8 = decState .scanning [] 1 1 [0x77] := by decide +kernel
/-- "16-bit write of 0x10000000's low half to 0x00": ignored. -/
theorem test_write_halfword : serve (.access 0 (.write 0 16 0)) State.reset =
    .next { State.reset with lastReply := some (.writeDone 0) } := rfl

/-! ### Witnesses: for each obligation with hypotheses, a state and operands that meet them -/

/-- A state with ENC.START waiting at its port. -/
def waitingStart : State := { State.reset with encPort := [⟨0, 0x10000000⟩] }

/-- A state whose ENC.BYTE 0x0A is held by a full queue; its write waits, and its thread would pop next. -/
def heldState : State :=
  { encState .active (bitsOf 3 4) 3 67 fullQueue with
      encPort := [⟨0, 0x2000000A⟩], arrivals := [.access 0 (.read 0x20 32)] }

theorem witness_LegalWordIsTheEncoding :
    decode .enc 0x400001FF#32 = .instr (.encTblrd 511) ∧
    decode .dec 0x81FFFFFF#32 = .instr (.decStartMax 0xFFFFFF) := by decide
theorem witness_ForeignOpcodesAreIllegal :
    5 ≤ ((0x50000000#32).extractLsb' 28 4).toNat ∧ 5 ≤ ((0xFFFFFFFF#32).extractLsb' 28 4).toNat ∧
    ((0x10000000#32).extractLsb' 28 4).toNat ∈ [1, 2, 3, 4, 5, 6, 7, 11, 12, 13, 14, 15] ∧
    ((0xFFFFFFFF#32).extractLsb' 28 4).toNat ∈ [1, 2, 3, 4, 5, 6, 7, 11, 12, 13, 14, 15] := by decide
theorem witness_StepRunsTheWaitingCommand_turn :
    ({ waitingStart with turns := [.enc] } : State).turns = portAgent .enc :: [] := by decide
/-- The boundary of the counter: TOTAL_BITS reaches 2^32 − 1 exactly, in the queueing mode with room. -/
theorem witness_EncByteAppendsItsCodeword :
    (encState .active [] 0 (2 ^ 32 - 6) []).enc.state = .active ∧
    tableRead (encState .active [] 0 (2 ^ 32 - 6) []).cfg.table (0x61 : Byte).toNat = some (entry 3 5) ∧
    (encState .active [] 0 (2 ^ 32 - 6) []).enc.totalBits.toNat + (entry 3 5).len.toNat ≤ 2 ^ 32 - 1 ∧
    ((encState .active [] 0 (2 ^ 32 - 6) []).enc.pend.length + (entry 3 5).len.toNat) / 8 ≤
      (encState .active [] 0 (2 ^ 32 - 6) []).free .enc := by decide +kernel
theorem witness_EncByteAppendsItsCodeword_overflow :
    (encState .active [] 0 (2 ^ 32 - 5) []).enc.state = .active ∧
    tableRead (encState .active [] 0 (2 ^ 32 - 5) []).cfg.table (0x61 : Byte).toNat = some (entry 3 5) ∧
    2 ^ 32 - 1 < (encState .active [] 0 (2 ^ 32 - 5) []).enc.totalBits.toNat + (entry 3 5).len.toNat := by
  decide +kernel
theorem witness_EncByteAppendsItsCodeword_held :
    (encState .active (bitsOf 3 4) 3 67 fullQueue).enc.state = .active ∧
    tableRead (encState .active (bitsOf 3 4) 3 67 fullQueue).cfg.table (0x0A : Byte).toNat =
      some (entry 0x3ffffffc 30) ∧
    (encState .active (bitsOf 3 4) 3 67 fullQueue).enc.totalBits.toNat + 30 ≤ 2 ^ 32 - 1 ∧
    (encState .active (bitsOf 3 4) 3 67 fullQueue).enc.sizeOnly = false ∧
    (encState .active (bitsOf 3 4) 3 67 fullQueue).free .enc <
      ((encState .active (bitsOf 3 4) 3 67 fullQueue).enc.pend.length + 30) / 8 ∧
    (encState .fault [] 0 0 []).enc.state = .fault ∧ (encState .done [] 0 0 []).enc.state = .done := by
  decide +kernel
/-- A full queue and one pending bit. -/
theorem witness_EncFinishPadsTheLastByte_held :
    (encState .active (ones 1) 1 65 fullQueue).enc.state = .active ∧
    (encState .active (ones 1) 1 65 fullQueue).enc.pend ≠ [] ∧
    tableRead (encState .active (ones 1) 1 65 fullQueue).cfg.table 256 = some (entry 0x3fffffff 30) ∧
    (encState .active (ones 1) 1 65 fullQueue).enc.sizeOnly = false ∧
    (encState .active (ones 1) 1 65 fullQueue).free .enc < 1 := by decide +kernel
theorem witness_EncFinishPadsTheLastByte :
    (encState .active [] 1 8 fullQueue).enc.state = .active ∧ (encState .active [] 1 8 fullQueue).enc.pend = [] ∧
    (encState .active (ones 7) 1 7 []).enc.pend ≠ [] ∧ (encState .active (ones 7) 1 7 []).enc.pend.length ≤ 7 ∧
    tableRead (encState .active (ones 7) 1 7 []).cfg.table 256 = some (entry 0x3fffffff 30) ∧
    7 ≤ (entry 0x3fffffff 30).len.toNat ∧ 1 ≤ (encState .active (ones 7) 1 7 []).free .enc := by decide +kernel
theorem witness_EncTblrdReadsOrFaults :
    (256#9).toNat ≤ 256 ∧ tableRead State.reset.cfg.table (256#9).toNat = some (entry 0x3fffffff 30) ∧
    256 < (257#9).toNat := by decide +kernel
theorem witness_DecStartBeginsASession : (1#24) ≠ 0 ∧ (0xFFFFFF#24) ≠ 0 := by decide

/-- 0xF1 completes 'w' and leaves one bit. -/
theorem witness_DecByteEmitsItsSymbols :
    ReadsBytes (decState .scanning [] 0 0 []) 0xF1 [0x77] (bitsOf 1 1) ∧
    matchBits huffcoreTable (bitsOf 1 1) = .need :=
  ⟨⟨rfl, by decide, by decide +kernel, by decide, by decide, by decide⟩, by decide +kernel⟩
/-- The vector "EOS after 'a'": 27 pending ones and 0xFF hold the EOS codeword. -/
theorem witness_DecByteInvalidCode :
    ReadsBytes (decState .scanning (ones 27) 4 1 []) 0xFF [] (ones 35) ∧
    (decState .scanning (ones 27) 4 1 []).dec.pend.length ≤
      8 * (decState .scanning (ones 27) 4 1 []).dec.inCount.toNat ∧
    codewordOf (decState .scanning (ones 27) 4 1 []).cfg.table 256 <+: ones 35 :=
  ⟨⟨rfl, by decide, by decide +kernel, by decide, by decide, by decide⟩, by decide +kernel, by decide +kernel⟩

/-- `decState` with a limit. -/
def limitState (maxlen : Nat) : State :=
  { decState .scanning [] 0 0 [] with
      dec := { (decState .scanning [] 0 0 []).dec with limitEn := true, maxlen := BitVec.ofNat 24 maxlen } }

/-- Limit 0: the first symbol is one too many. -/
theorem witness_DecByteOutputTooLarge :
    ReadsBytes (limitState 0) 0xF1 [] (byteBits 0xF1) ∧
    (limitState 0).dec.pend.length ≤ 8 * (limitState 0).dec.inCount.toNat ∧
    codewordOf (limitState 0).cfg.table (0x77 : Byte).toNat <+: byteBits 0xF1 ∧
    (limitState 0).dec.limitEn = true ∧
    (limitState 0).dec.maxlen.toNat ≤ (limitState 0).dec.outCount.toNat + ([] : List Byte).length :=
  ⟨⟨rfl, by decide, by decide +kernel, by decide, by decide, by decide⟩, by decide +kernel⟩
/-- Limit 1: the second symbol of 0x00 after '0' is one too many. -/
theorem witness_DecByteOutputTooLarge_second :
    ReadsBytes { limitState 1 with dec := { (limitState 1).dec with pend := bitsOf 3 0, inCount := 1 } } 0x00
      [0x30] (bitsOf 6 0) :=
  ⟨rfl, by decide, by decide +kernel, by decide, by decide, by decide⟩
theorem witness_DecByteCountOverflow :
    (decState .scanning [] (2 ^ 32 - 1) 0 []).dec.state = .scanning ∧
    (decState .scanning [] (2 ^ 32 - 1) 0 []).dec.inCount.toNat = 2 ^ 32 - 1 ∧
    ReadsBytes (decState .scanning [] 5 (2 ^ 32 - 1) []) 0x1F [] (byteBits 0x1F) ∧
    codewordOf (decState .scanning [] 5 (2 ^ 32 - 1) []).cfg.table (0x61 : Byte).toNat <+: byteBits 0x1F ∧
    (decState .scanning [] 5 (2 ^ 32 - 1) []).dec.limitEn = false ∧
    (decState .scanning [] 5 (2 ^ 32 - 1) []).dec.outCount.toNat + ([] : List Byte).length = 2 ^ 32 - 1 :=
  ⟨by decide, by decide, ⟨rfl, by decide, by decide +kernel, by decide, by decide, by decide⟩,
    by decide +kernel, by decide, by decide⟩
/-- Accepted: 29 ones (MAX_PAD_BITS); refused: 000. -/
theorem witness_DecFinishChecksThePadding :
    (decState .failed [] 0 0 []).dec.state = .failed ∧ State.reset.dec.state = .idle ∧
    (decState .scanning [] 0 0 []).dec.pend = [] ∧
    tableRead huffcoreTable 256 = some (entry 0x3fffffff 30) ∧
    (ones 29).length ≤ huffcoreParams.maxPadBits ∧ (ones 29).length ≤ (entry 0x3fffffff 30).len.toNat ∧
    ones 29 = (entry 0x3fffffff 30).codeword.take (ones 29).length ∧
    bitsOf 3 0 ≠ [] ∧ (bitsOf 3 0).length ≤ 8 * (decState .scanning (bitsOf 3 0) 1 1 []).dec.inCount.toNat ∧
    ¬ bitsOf 3 0 = (entry 0x3fffffff 30).codeword.take (bitsOf 3 0).length := by decide +kernel

theorem witness_SequenceErrorsAndDiscards :
    State.reset.enc.state = .idle ∧ (encState .done [] 0 0 []).enc.state = .done ∧
    State.reset.dec.state = .idle ∧ (decState .done [] 0 0 []).dec.state = .done ∧
    (encState .fault [] 0 0 []).enc.state = .fault ∧ (decState .failed [] 0 0 []).dec.state = .failed ∧
    (nextOf (exec .encNop State.reset)).isSome = true := by decide +kernel
theorem witness_IllegalWordRaisesIllegalCommand :
    decode .enc 0x5FFFFFFF#32 = .illegal .unassignedOpcode ∧
    decode .dec 0xF0000000#32 = .illegal .unassignedOpcode := by decide
/-- CommandTouchesOnlyItsEngine, RegistersChangeOnlyAsListed: a command of each engine that answers. -/
theorem witness_frames :
    (nextOf (exec (.encByte 0x61) (encState .active [] 0 0 []))).isSome = true ∧
    (nextOf (exec (.decByte 0xF1) (decState .scanning [] 0 0 []))).isSome = true := by decide +kernel
/-- RegistersChangeOnlyAsListed: BAD_SEQUENCE changes ENC.ERR; the vector "EOS after 'a'" is a data fault that changes
ERR_BIT; FINISH ends a session. -/
theorem witness_RegistersChangeOnlyAsListed :
    (encOf (exec (.encByte 0x61) State.reset)).map Encoder.err = some .badSequence ∧
    State.reset.enc.err ≠ .badSequence ∧
    (decOf (exec (.decByte 0xFF) (decState .scanning (ones 27) 4 1 []))).map
      (fun d => (d.state, d.err.isData, d.errBit)) = some (.failed, true, 5) ∧
    (decState .scanning (ones 27) 4 1 []).dec.errBit ≠ 5 ∧
    (encOf (exec .encFinish (encState .active [] 1 8 []))).map Encoder.state = some .done := by decide +kernel
theorem witness_CommandsOfTheTwoEnginesCommute :
    Instr.port (.encByte 0x61) = .enc ∧ Instr.port (.decByte 0xF1) = .dec ∧
    ((nextOf (exec (.encByte 0x61) (encState .active [] 0 0 []))).bind fun t =>
      nextOf (exec (.decByte 0xF1) t)).isSome = true := by decide +kernel
theorem witness_QueueDecidesOnlyWhen :
    isHeld (.encByte 0x0A) (encState .active (bitsOf 3 4) 3 67 (fullQueue.drop 4)) = false ∧
    isHeld (.encByte 0x0A)
      ((encState .active (bitsOf 3 4) 3 67 (fullQueue.drop 4)).setOutq (Instr.port (.encByte 0x0A)) []) = false ∧
    (nextOf (exec (.encByte 0x0A) (encState .active (bitsOf 3 4) 3 67 (fullQueue.drop 4)))).isSome = true := by
  decide +kernel

/-- A state in two sessions, of which the invariant holds: 'w' is half encoded, "f1" half decoded. -/
def busyState : State :=
  { encState .active (bitsOf 7 0x78) 1 7 [] with dec := (decState .scanning (bitsOf 1 1) 1 1 [0x77]).dec }

theorem witness_EnoughFreeSpaceNeverHolds :
    4 ≤ busyState.free .enc ∧ 2 ≤ busyState.free .dec ∧
    (nextOf (exec (.encByte 0x0A) busyState)).isSome = true ∧ (nextOf (exec .encFinish busyState)).isSome = true :=
  by decide +kernel
theorem witness_HeldCommandDoesNothing :
    isHeld (.encByte 0x0A) heldState = true ∧ heldState.waiting .enc = [⟨0, 0x2000000A⟩] ∧
    decode .enc 0x2000000A = .instr (.encByte 0x0A) ∧ isHeld .encFinish heldState = true ∧
    isHeld (.decByte 0) (decState .scanning [] 5 8 fullQueue) = true := by decide +kernel
/-- A read of ENC_OUT pops; a write to CORE_ID is ignored. -/
theorem witness_RegisterAccessesAreServed :
    encView (serve (.access 0 (.read (huffcoreParams.huffBase + 0x20) 32)) (encState .active [] 1 8 [0xF1])) =
      some ⟨.active, 0, 0, 1, 8, .none, []⟩ ∧
    Reg.coreId ≠ .encCmd ∧ Reg.coreId ≠ .decCmd ∧ Reg.coreId ≠ .encOut ∧ Reg.coreId ≠ .decOut := by
  decide +kernel
theorem witness_AssemblerWordsAndRefusals :
    (∀ c ∈ [0, 255], c ≤ 255) ∧ (∃ c ∈ [0, 256], 255 < c) ∧ 0xFFFFFF < 0x1000000 := by decide
theorem witness_UnmappedOffsetsAreInert :
    0x28 ∉ [0x00, 0x04, 0x08, 0x0C, 0x10, 0x14, 0x18, 0x1C, 0x20, 0x24, 0x40, 0x44, 0x48, 0x4C, 0x50, 0x54,
      0x58, 0x5C, 0x60, 0x64, 0x78, 0x7C] ∧ 0x74 ∉ [0x00, 0x04, 0x08, 0x0C, 0x10, 0x14, 0x18, 0x1C, 0x20,
      0x24, 0x40, 0x44, 0x48, 0x4C, 0x50, 0x54, 0x58, 0x5C, 0x60, 0x64, 0x78, 0x7C] := by decide
theorem witness_SubwordAndMisalignedAccessesAreInert :
    (0x60 < 128 ∧ (8 ≠ 32 ∨ 0x60 % 4 ≠ 0)) ∧ (127 < 128 ∧ (32 ≠ 32 ∨ 127 % 4 ≠ 0)) := by decide
theorem witness_PopRegistersPopOneByte :
    (encState .active [] 0 0 [0xF1]).enc.outq = 0xF1 :: [] ∧ (decState .scanning [] 0 0 [0x77]).dec.outq = 0x77 :: [] ∧
    State.reset.enc.outq = [] ∧ State.reset.dec.outq = [] ∧
    (encState .active [] 0 0 (List.replicate 255 0)).enc.outq.length ≤ 255 := by decide +kernel
/-- EncStatusLayout, EncRegisterReads, DecRegisterReads: the longest pending strings. -/
theorem witness_registerReads :
    (encState .active (ones 7) 1 7 []).enc.pend.length ≤ 7 ∧
    (decState .scanning (ones 29) 4 0 []).dec.pend.length ≤ 29 ∧ rangesOk huffcoreParams = true := by
  decide +kernel
theorem witness_RegisterBytesAreLittleEndian :
    State.reset.laneAt 0x7C = some 0x31 ∧ State.reset.laneAt 0x7F = some 0x48 := by decide +kernel
/-- Thread 0 is blocked, so its access waits and thread 1's is next. -/
theorem witness_BlockedThreadsMakeNoAccess :
    ({ heldState with arrivals := [.access 0 (.read 0x20 32), .access 1 (.read 0x24 32)] } : State).nextArrival =
      some (.access 1 (.read 0x24 32), [.access 0 (.read 0x20 32)]) := by decide
theorem witness_MalformedTableIsRefused :
    rangesOk { huffcoreParams with table := huffcoreTable.drop 1 } = true ∧
    (huffcoreTable.drop 1).length ≠ 257 := by decide +kernel

/-! ### Whole steps, and the witnesses that need a legal configuration -/

theorem huffcoreParams_wf : paramsWf huffcoreParams = true := by decide +kernel
/-- With HUFFCORE's parameters a step is a move of the agents. -/
theorem step_at {s : State} (h : s.cfg = huffcoreParams) : step s = runAgents s :=
  step_eq_runAgents (h ▸ huffcoreParams_wf)
theorem table_of_params {P : Params} (h : paramsWf P = true) : Memory.wf P.table = true := by
  unfold paramsWf at h
  exact (Bool.and_eq_true_iff.mp h).2
theorem reset_memory_wf : Memory.wf State.reset.cfg.table = true :=
  table_of_params (P := State.reset.cfg) huffcoreParams_wf
/-- The very next step runs the word that `withFetchWord` placed. -/
theorem test_step_withFetchWord : encView (step (State.reset.withFetchWord 32 0x10000000)) =
    some ⟨.active, 0, 0, 0, 0, .none, []⟩ := by
  rw [step_at]
  · decide +kernel
  · rfl
theorem test_step_withFetchWord_dec : decView (step (State.reset.withFetchWord 32 0x8100000F)) =
    some ⟨.scanning, 0, 0, 0, 0, .none, 0, []⟩ := by
  rw [step_at]
  · decide +kernel
  · rfl
/-- An illegal word executes as ILLEGAL_COMMAND (R85). -/
theorem test_step_illegal : encView (step { State.reset with encPort := [⟨3, 0x50000000⟩] }) =
    some ⟨.fault, 0, 0, 0, 0, .illegalCommand, []⟩ := by
  rw [step_at]
  · decide +kernel
  · rfl
/-- A host write arrives at its port; a reset arrival resets. -/
theorem test_step_host :
    (nextOf (step { State.reset with arrivals := [.access 3 (.write 0x40 32 0x80000000)] })).map State.decPort =
      some [⟨3, 0x80000000⟩] := by
  rw [step_at]
  · decide +kernel
  · rfl
theorem witness_StepRunsTheWaitingCommand :
    paramsWf waitingStart.cfg = true ∧ waitingStart.waiting .enc = [⟨0, 0x10000000⟩] ∧
    decode .enc 0x10000000 = .instr (.encStart false) ∧ isHeld (.encStart false) waitingStart = false ∧
    waitingStart.turns = [] ∧ promptAgent waitingStart = some (portAgent .enc) :=
  ⟨huffcoreParams_wf, by decide +kernel⟩
/-- An illegal word at the head of a port, in the prompt order and at a turn laid down. -/
theorem witness_StepRunsTheWaitingCommand_illegal :
    ({ State.reset with encPort := [⟨3, 0x50000000⟩] } : State).waiting .enc = [⟨3, 0x50000000⟩] ∧
    decode .enc 0x50000000 = .illegal .unassignedOpcode ∧
    promptAgent { State.reset with encPort := [⟨3, 0x50000000⟩] } = some (portAgent .enc) ∧
    ({ State.reset with encPort := [⟨3, 0x50000000⟩], turns := [.enc] } : State).turns = [portAgent .enc] := by
  decide +kernel
/-- The engine's turn passes while its command is held, thread 1 having an access to make; and so does the decoder's,
nothing waiting at its port. -/
theorem witness_StepRunsTheWaitingCommand_held :
    isHeld (.encByte 0x0A) heldState = true ∧ heldState.waiting .dec = [] ∧
    promptAgent { heldState with arrivals := [.access 1 (.read 0x20 32)], turns := [.enc] } ≠ none := by
  decide +kernel
/-- The host's turn: an access to serve, and none while ENC.START waits. -/
theorem witness_StepRunsTheWaitingCommand_host :
    ({ State.reset with arrivals := [.access 1 (.read 0x7C 32)] } : State).nextArrival =
      some (.access 1 (.read 0x7C 32), []) ∧
    promptAgent { State.reset with arrivals := [.access 1 (.read 0x7C 32)] } = some .host ∧
    waitingStart.nextArrival = none ∧ promptAgent { waitingStart with turns := [.host] } ≠ none := by
  decide +kernel
theorem witness_FetchedWordRunsNext :
    paramsWf State.reset.cfg = true ∧ decodeTableWord 32 0x900000F1 = some (.decByte 0xF1) ∧
    isHeld (.decByte 0xF1) State.reset = false := ⟨huffcoreParams_wf, by decide +kernel⟩
/-- START leaves FAULT by a step; an illegal word stays in it. -/
theorem witness_OnlyStartOrResetLeavesTheErrorState :
    ({ encState .fault [] 0 0 [] with encPort := [⟨0, 0x10000000⟩] } : State).enc.state = .fault ∧
    encView (step { encState .fault [] 0 0 [] with encPort := [⟨0, 0x10000000⟩] }) =
      some ⟨.active, 0, 0, 0, 0, .none, []⟩ ∧
    encView (step { encState .fault [] 0 0 [] with encPort := [⟨0, 0x20000061⟩] }) =
      some ⟨.fault, 0, 0, 0, 0, .illegalCommand, []⟩ := by
  refine ⟨rfl, ?_, ?_⟩
  · rw [step_at]
    · decide +kernel
    · rfl
  · rw [step_at]
    · decide +kernel
    · rfl
theorem witness_OnlyStartOrResetLeavesTheErrorState_dec :
    ({ decState .failed [] 0 0 [] with arrivals := [.reset true] } : State).dec.state = .failed ∧
    decView (step { decState .failed [] 0 0 [] with arrivals := [.reset true] }) =
      some ⟨.idle, 0, 0, 0, 0, .none, 0, []⟩ := by
  refine ⟨rfl, ?_⟩
  rw [step_at]
  · decide +kernel
  · rfl
theorem witness_Invariant : Invariant busyState where
  cfg_wf := huffcoreParams_wf
  enc := {
    nbits_le := by decide
    nbits_mod := by decide
    pend_idle := by decide
    outq_le := by decide
    fault_iff := by decide
    err_kind := by decide
    bits_ge := by decide
    bits_le := by decide
    tbl_entry := .inl (by decide) }
  dec := {
    pend_need := by decide +kernel
    pend_idle := by decide
    outq_le := by decide
    failed_iff := by decide
    err_kind := by decide
    maxlen_zero := by decide
    limit_le := by decide
    rate := by decide
    rate_pend := by decide
    pos_zero := by decide
    pos_lt := by decide }
/-- EveryStepKeepsTheInvariant, DecoderOutputIsBounded, CountersNeverWrap: that state takes a step. -/
theorem witness_EveryStepKeepsTheInvariant :
    (nextOf (step busyState)).isSome = true ∧ (nextOf (exec (.decByte 0xE3) busyState)).isSome = true := by
  refine ⟨?_, by decide +kernel⟩
  rw [step_at]
  · decide +kernel
  · rfl
theorem witness_BlockedSingleThreadIsStuck :
    paramsWf heldState.cfg = true ∧ heldState.waiting .enc = [⟨0, 0x2000000A⟩] ∧
    heldState.waiting Port.enc.other = [] ∧ decode .enc 0x2000000A = .instr (.encByte 0x0A) ∧
    isHeld (.encByte 0x0A) heldState = true ∧
    ∀ a ∈ heldState.arrivals, ∃ x, a = .access 0 x := by
  refine ⟨huffcoreParams_wf, by decide, by decide, by decide, by decide +kernel, ?_⟩
  intro a ha
  simp only [heldState, List.mem_singleton] at ha
  exact ⟨_, ha⟩
theorem witness_IdleMachineHoldsItsState :
    paramsWf (encState .active (ones 3) 1 5 []).cfg = true ∧ (encState .active (ones 3) 1 5 []).encPort = [] ∧
    (encState .active (ones 3) 1 5 []).decPort = [] ∧ (encState .active (ones 3) 1 5 []).arrivals = [] :=
  ⟨huffcoreParams_wf, rfl, rfl, rfl⟩
theorem witness_PortsServeInArrivalOrder :
    (nextOf (step { State.reset with encPort := [⟨0, 0x00000000⟩, ⟨1, 0x10000000⟩] })).map State.encPort =
      some [⟨1, 0x10000000⟩] := by
  rw [step_at]
  · decide +kernel
  · rfl
/-- A command word arrives behind a held one; a reset drops it. -/
theorem witness_PortsServeInArrivalOrder_arrivals :
    (nextOf (step { heldState with arrivals := [.access 1 (.write 0 32 0x30000000)] })).map State.encPort =
      some [⟨0, 0x2000000A⟩, ⟨1, 0x30000000⟩] ∧
    (nextOf (step { heldState with arrivals := [.reset true] })).map State.encPort = some [] := by
  constructor <;> rw [step_at] <;> decide +kernel
theorem witness_tableWf : tableWf huffcoreTable = true := reset_memory_wf
theorem witness_EncoderSessionComputesEncode :
    paramsWf State.reset.cfg = true ∧ State.reset.enc.outq = [] ∧
    totalLength State.reset.cfg.table [0x77, 0x77, 0x77] ≤ 2 ^ 32 - 1 := ⟨huffcoreParams_wf, by decide +kernel⟩
theorem witness_DecoderSessionComputesDecode :
    paramsWf State.reset.cfg = true ∧ State.reset.dec.outq = [] ∧
    (runDraining .dec (decSession none [0xF1]) State.reset).map (fun r => (r.1, r.2.dec.err)) =
      some ([0x77], .none) := ⟨huffcoreParams_wf, by decide +kernel⟩
theorem witness_DecodeOfEncodeIsTheInput :
    paramsWf huffcoreParams = true ∧ 8 ≤ lengthOf huffcoreParams.table 256 ∧
    ([] : List Byte).length ≤ 0 := ⟨huffcoreParams_wf, by decide +kernel⟩

/-! ### The table (40_symbol_table.md R101, R104) -/

theorem test_table_count_refused : tableCountOk (huffcoreTable.drop 1) = false ∧
    tableCountOk (entry 0 5 :: huffcoreTable) = false := by decide +kernel
theorem test_table_length_refused : tableLengthsOk (huffcoreTable.set 0 (entry 0 4)) = false ∧
    tableLengthsOk (huffcoreTable.set 0 (entry 0 31)) = false := by decide +kernel
theorem test_table_code_refused : tableCodesFit (huffcoreTable.set 0 (entry 0x2000 13)) = false := by
  decide +kernel
theorem test_table_prefix_refused : tablePrefixFree (huffcoreTable.set 0 (entry 0x3ff0 14)) = true ∧
    tablePrefixFree (huffcoreTable.set 0 (entry 0x3 5)) = false ∧
    tablePrefixFree (huffcoreTable.set 0 (entry 0x6 6)) = false := by decide +kernel
theorem test_table_eos_refused : tableEosLongEnough (huffcoreTable.set 256 (entry 0x3f 6)) = false := by
  decide +kernel
/-- The entries by (length, id), each with the canonical code computed from the one before it. -/
def canonicalFrom : Nat → Nat → List SymbolEntry → Bool
  | _, _, [] => true
  | code, len, e :: es =>
    (e.code.toNat == code <<< (e.len.toNat - len)) &&
      canonicalFrom (code <<< (e.len.toNat - len) + 1) e.len.toNat es
/-- R104: the table of R103 is canonical. -/
theorem test_table_canonical : canonicalFrom 0 5
    ((List.range 31).flatMap fun L => huffcoreTable.filter fun e => e.len.toNat == L) = true := by
  decide +kernel
/-- HuffcoreTableIsCanonical: the last row of R104 and the one before it. -/
theorem witness_HuffcoreTableIsCanonical :
    (lengthRows[20]?.map fun r => (r.len, r.ids[3]?)) = some (30, some 256) ∧
    (lengthRows[19]?.map fun r => (r.len, r.last)) = some (28, 0xffffffe) := by decide
/-- R104: the Kraft sum is 1. -/
theorem test_table_kraft : (huffcoreTable.map fun e => 2 ^ (30 - e.len.toNat)).sum = 2 ^ 30 := by
  decide +kernel
/-- R104: the ten 5-bit symbols, in code order. -/
theorem test_table_five_bits : ∀ p ∈ [(48, 0), (49, 1), (50, 2), (97, 3), (99, 4), (101, 5), (105, 6), (111, 7),
    (115, 8), (116, 9)], tableRead huffcoreTable p.1 = some (entry p.2 5) := by decide +kernel

end Sys2Proof.Tests
end

section
/-! PROOFS. The registers of 10_state.md: what a whole-word read of each register gives and does (R43 to R48), and
that no step changes the ROM or a parameter (R49). -/

namespace Sys2Proof.Machine

/-! ### A whole-word read at a register's offset (R42, 20_memory.md R67) -/

theorem readTarget_regOffset (r : Reg) : readTarget (regOffset r) 32 = some r := by
  have hword : wholeWord (regOffset r) 32 = true := by cases r <;> decide
  rw [readTarget, if_pos hword, regAt_regOffset]

@[simp] theorem State.readWord_regOffset (s : State) (r : Reg) :
    s.readWord (regOffset r) 32 = s.regValue r := by
  rw [State.readWord, readTarget_regOffset]

@[simp] theorem State.readEffect_regOffset (s : State) (r : Reg) :
    s.readEffect (regOffset r) 32 = s.afterRead r := by
  rw [State.readEffect, readTarget_regOffset]

/-- The number a register reads as, from the number its value is. -/
theorem State.readWord_toNat {s : State} {r : Reg} {n : Nat} (h : (s.regValue r).toNat = n) :
    (s.readWord (regOffset r) 32).toNat = n := by
  rw [State.readWord_regOffset, h]

/-! ### Register fields as numbers -/

/-- A field right-justified under zero bits. -/
theorem toNat_zero_append {n : Nat} (m : Nat) (v : BitVec n) : (0#m ++ v).toNat = v.toNat := by
  simp

theorem toNat_zero_append_ofNat {n v : Nat} (m : Nat) (h : v < 2 ^ n) :
    (0#m ++ BitVec.ofNat n v).toNat = v := by
  rw [toNat_zero_append, BitVec.toNat_ofNat, Nat.mod_eq_of_lt h]

theorem valOf_lt_of_length_le {s : BitString} {n : Nat} (h : s.length ≤ n) : valOf s < 2 ^ n :=
  (valOf_lt s).trans_le (Nat.pow_le_pow_right two_pos h)

/-- A pop register with a byte queued: VALID is bit 8 (R46). -/
@[simp] theorem popWord_cons_toNat (b : Byte) (q : List Byte) : (popWord (b :: q)).toNat = 256 + b.toNat := by
  rw [popWord, toNat_append_eq, toNat_append_eq]
  rfl

/-- ENC_STATUS as one sum of its fields (R43), for the numbers of its STATE and ERR codes. -/
theorem Encoder.statusWord_toNat {e : Encoder} {mode err : Nat} (hmode : e.state.bits.toNat = mode)
    (herr : e.err.byte.toNat = err) (hpend : e.pend.length ≤ 7) :
    e.statusWord.toNat = mode + 4 * e.sizeOnly.toNat + 16 * e.pend.length + 256 * err := by
  have hnbits : e.pend.length % 8 = e.pend.length := Nat.mod_eq_of_lt (by omega)
  simp only [Encoder.statusWord, Encoder.nbits, toNat_append_eq, BitVec.toNat_ofNat, BitVec.toNat_ofBool, hmode,
    herr, Nat.reducePow, hnbits]
  omega

/-- DEC_STATUS as one sum of its fields (R47), for the numbers of its STATE and ERR codes. -/
theorem Decoder.statusWord_toNat {d : Decoder} {mode err : Nat} (hmode : d.state.bits.toNat = mode)
    (herr : d.err.byte.toNat = err) (hpend : d.pend.length ≤ 29) :
    d.statusWord.toNat = mode + 4 * d.limitEn.toNat + 256 * d.pend.length + 65536 * err := by
  have hplen : d.pend.length % 32 = d.pend.length := Nat.mod_eq_of_lt (by omega)
  simp only [Decoder.statusWord, Decoder.plen, toNat_append_eq, BitVec.toNat_ofNat, BitVec.toNat_ofBool, hmode,
    herr, Nat.reducePow, hplen]
  omega

/-- ENC_SIZE never wraps (R45). -/
theorem Encoder.size_lt (e : Encoder) : e.size < 2 ^ 32 := by
  have := e.totalBits.isLt
  unfold Encoder.size
  omega

theorem rangesOk_iff {P : Params} : rangesOk P = true ↔
    4 ≤ P.outqDepth ∧ P.outqDepth ≤ 255 ∧ 7 ≤ P.maxPadBits ∧ P.maxPadBits ≤ 29 ∧ P.huffBase % 4 = 0 := by
  simp [rangesOk, and_assoc]

/-- CORE_PARAMS as one sum of its fields (R48), for parameters in their ranges. -/
theorem Params.coreParams_toNat {P : Params} (h : rangesOk P = true) :
    P.coreParams.toNat = P.outqDepth + 256 * P.maxPadBits + 65536 * 5 + 16777216 * 30 := by
  obtain ⟨-, hdepth, -, hpad, -⟩ := rangesOk_iff.mp h
  simp only [Params.coreParams, toNat_append_eq, BitVec.toNat_ofNat, lenMin, lenMax, Nat.reducePow]
  omega

/-! ### Popping a queue (R46) -/

@[simp] theorem State.setOutq_self (s : State) (p : Port) : s.setOutq p (s.outq p) = s := by
  cases p <;> rfl

theorem State.popOutq_of_nil {s : State} {p : Port} (h : s.outq p = []) : s.popOutq p = s := by
  rw [State.popOutq, h, List.tail_nil, ← h, State.setOutq_self]

theorem State.popOutq_of_cons {s : State} {p : Port} {b : Byte} {q : List Byte} (h : s.outq p = b :: q) :
    s.popOutq p = s.setOutq p q := by
  rw [State.popOutq, h, List.tail_cons]

/-! ### The configuration is constant (R49): one lemma per part of `step` -/

@[simp] theorem State.raiseIllegal_cfg (s : State) (p : Port) : (s.raiseIllegal p).cfg = s.cfg := by
  cases p
  · exact State.raiseEnc_cfg _ _
  · exact State.raiseDec_cfg _ _ _

theorem runWord_cfg_eq {p : Port} {w : Word} {s t : State} (h : runWord p w s = .next t) : t.cfg = s.cfg := by
  obtain ⟨i, -, hexec⟩ | ⟨-, -, rfl⟩ := runWord_cases h
  · exact (exec_cases hexec).cfg_eq
  · exact State.raiseIllegal_cfg s p

theorem engineTurn_cfg_eq {p : Port} {s t : State} (h : engineTurn p s = .next t) : t.cfg = s.cfg := by
  obtain rfl | ⟨pw, rest, u, -, -, hrun, rfl⟩ := engineTurn_cases h
  · rfl
  · rw [State.completeWrite_cfg, runWord_cfg_eq hrun]

@[simp] theorem State.afterRead_cfg (s : State) (r : Reg) : (s.afterRead r).cfg = s.cfg := by
  cases r <;> rfl

@[simp] theorem State.readEffect_cfg (s : State) (off width : Nat) : (s.readEffect off width).cfg = s.cfg := by
  unfold State.readEffect
  split
  · exact State.afterRead_cfg _ _
  · rfl

@[simp] theorem State.serveRead_cfg (s : State) (t off width : Nat) : (s.serveRead t off width).cfg = s.cfg :=
  State.readEffect_cfg s off width

@[simp] theorem State.serveWrite_cfg (s : State) (t off width : Nat) (value : Word) :
    (s.serveWrite t off width value).cfg = s.cfg := by
  unfold State.serveWrite
  split
  · exact State.setWaiting_cfg _ _ _
  · rfl

theorem serve_cfg_eq {a : Arrival} {s t : State} (h : serve a s = .next t) : t.cfg = s.cfg := by
  obtain ⟨d, -, rfl⟩ | ⟨th, addr, width, off, -, -, rfl⟩ | ⟨th, addr, width, value, off, -, -, rfl⟩ :=
    serve_cases h
  · exact State.hardReset_cfg s d
  · exact State.serveRead_cfg s th off width
  · exact State.serveWrite_cfg s th off width value

theorem hostTurn_cfg_eq {s t : State} (h : hostTurn s = .next t) : t.cfg = s.cfg := by
  obtain rfl | ⟨a, rest, -, hserve⟩ := hostTurn_cases h
  · rfl
  · exact (serve_cfg_eq hserve :)

theorem takeTurn_cfg_eq {a : Agent} {s t : State} (h : takeTurn a s = .next t) : t.cfg = s.cfg := by
  obtain ⟨p, hengine⟩ | hhost := takeTurn_cases h
  · exact engineTurn_cfg_eq hengine
  · exact hostTurn_cfg_eq hhost

theorem step_cfg_eq {s t : State} (h : step s = .next t) : t.cfg = s.cfg := by
  obtain ⟨-, rfl | ⟨a, ts, hturn⟩⟩ := step_cases h
  · rfl
  · exact (takeTurn_cfg_eq hturn :)

/-! ### The obligations -/

/-- Settles O41: CORE_ID is a constant and CORE_PARAMS a function of the configuration, which every step keeps. -/
theorem constantRegistersNeverChange : Obligations.ConstantRegistersNeverChange := by
  have coreId_read (s : State) : s.readWord 0x7C 32 = coreId := s.readWord_regOffset .coreId
  have coreParams_read (s : State) : s.readWord 0x78 32 = s.cfg.coreParams := s.readWord_regOffset .coreParams
  refine ⟨coreId_read, fun s hranges => ?_, ?_, fun s t hstep => ⟨?_, ?_⟩⟩
  · rw [coreParams_read, Params.coreParams_toNat hranges]
  · rw [coreParams_read]
    decide
  · rw [coreId_read, coreId_read]
  · rw [coreParams_read, coreParams_read, step_cfg_eq hstep]

/-- Settles O47: reset holds HUFFCORE's table, and every part of a step keeps the configuration. -/
theorem tableIsNeverChanged : Obligations.TableIsNeverChanged :=
  ⟨rfl, fun _ _ => step_cfg_eq⟩

/-- Settles O37: the two queues behave alike, empty or not. -/
theorem popRegistersPopOneByte : Obligations.PopRegistersPopOneByte := by
  refine ⟨fun s b q h => ⟨?_, ?_⟩, fun s h => ⟨?_, ?_⟩, fun s b q h => ⟨?_, ?_⟩, fun s h => ⟨?_, ?_⟩,
    fun s h => ⟨?_, ?_⟩, fun s h => ⟨?_, ?_⟩⟩
  · exact State.readWord_toNat (r := .encOut) (by rw [State.regValue, h, popWord_cons_toNat])
  · exact (s.readEffect_regOffset .encOut).trans (State.popOutq_of_cons (p := .enc) h)
  · exact (s.readWord_regOffset .encOut).trans (by rw [State.regValue, h, popWord])
  · exact (s.readEffect_regOffset .encOut).trans (State.popOutq_of_nil (p := .enc) h)
  · exact State.readWord_toNat (r := .decOut) (by rw [State.regValue, h, popWord_cons_toNat])
  · exact (s.readEffect_regOffset .decOut).trans (State.popOutq_of_cons (p := .dec) h)
  · exact (s.readWord_regOffset .decOut).trans (by rw [State.regValue, h, popWord])
  · exact (s.readEffect_regOffset .decOut).trans (State.popOutq_of_nil (p := .dec) h)
  · exact State.readWord_toNat (r := .encOutqLevel) (toNat_zero_append_ofNat 24 (by omega))
  · exact s.readEffect_regOffset .encOutqLevel
  · exact State.readWord_toNat (r := .decOutqLevel) (toNat_zero_append_ofNat 24 (by omega))
  · exact s.readEffect_regOffset .decOutqLevel

/-- Settles O38: the status word is the sum of its fields, with the codes of STATE and ERR. -/
theorem encStatusLayout : Obligations.EncStatusLayout := fun s hpend =>
  State.readWord_toNat (r := .encStatus) <|
    Encoder.statusWord_toNat (by cases s.enc.state <;> rfl) (by cases s.enc.err <;> rfl) hpend

/-- Settles O39: the pending bits' value fits the 7 bits of ENC_ACC, and ENC_SIZE does not wrap. -/
theorem encRegisterReads : Obligations.EncRegisterReads := by
  intro s hpend
  have hacc : (s.readWord 0x08 32).toNat = valOf s.enc.pend :=
    State.readWord_toNat (r := .encAcc) (toNat_zero_append_ofNat 25 (valOf_lt_of_length_le hpend))
  refine ⟨hacc, fun hnil => ?_, s.readWord_regOffset .encInCount, s.readWord_regOffset .encTotalBits, ?_,
    s.readWord_regOffset .encTblCode, ?_⟩
  · refine BitVec.eq_of_toNat_eq ?_
    rw [hacc, hnil]
    rfl
  · exact State.readWord_toNat (r := .encSize) ((BitVec.toNat_ofNat _ _).trans (Nat.mod_eq_of_lt s.enc.size_lt))
  · exact State.readWord_toNat (r := .encTblLen) (toNat_zero_append 27 s.enc.tblLen)

/-- Settles O40: each layout as the number of its fields, the pending bits' value fitting the 29 bits of DEC_PEND. -/
theorem decRegisterReads : Obligations.DecRegisterReads := by
  refine ⟨fun s hpend => ⟨?_, ?_⟩, fun s => ⟨s.readWord_regOffset .decInCount, s.readWord_regOffset .decOutCount, ?_,
    s.readWord_regOffset .decErrByte, ?_⟩, ?_, ?_, ?_⟩
  · exact State.readWord_toNat (r := .decStatus) <|
      Decoder.statusWord_toNat (by cases s.dec.state <;> rfl) (by cases s.dec.err <;> rfl) hpend
  · exact State.readWord_toNat (r := .decPend) (toNat_zero_append_ofNat 3 (valOf_lt_of_length_le hpend))
  · exact State.readWord_toNat (r := .decMaxlen) (toNat_zero_append 8 s.dec.maxlen)
  · exact State.readWord_toNat (r := .decErrBit) (toNat_zero_append 29 s.dec.errBit)
  · obtain ⟨-, -, -, hempty, -⟩ := popRegistersPopOneByte
    exact fun s h => (hempty s h).1
  · obtain ⟨-, -, hqueued, -⟩ := popRegistersPopOneByte
    exact fun s b q h => (hqueued s b q h).1
  · obtain ⟨-, -, -, -, -, hlevel⟩ := popRegistersPopOneByte
    exact fun s h => (hlevel s h).1

end Sys2Proof.Machine
end

section
/-! PROOFS. The accesses to the register space that reach no register: unmapped offsets (20_memory.md R65), and
widths and alignments other than a whole word's (R67). -/

namespace Sys2Proof.Machine

/-! ### An access inside the register space is served at its offset (R62) -/

theorem serve_read {off : Nat} (s : State) (t width : Nat) (h : off < 128) :
    serve (.access t (.read (s.cfg.huffBase + off) width)) s = .next (s.serveRead t off width) := by
  simp only [serve, spaceOffset_add s.cfg h]

theorem serve_write {off : Nat} (s : State) (t width : Nat) (v : Word) (h : off < 128) :
    serve (.access t (.write (s.cfg.huffBase + off) width v)) s = .next (s.serveWrite t off width v) := by
  simp only [serve, spaceOffset_add s.cfg h]

/-! ### Which accesses reach no register -/

theorem regAt_eq_none_iff {off : Nat} : regAt off = none ↔ off ∉ allRegs.map regOffset := by
  simp only [regAt, List.find?_eq_none, beq_iff_eq, List.mem_map, not_exists, not_and]

theorem wholeWord_eq_false_iff {off width : Nat} : wholeWord off width = false ↔ width ≠ 32 ∨ off % 4 ≠ 0 := by
  simp only [wholeWord, Bool.and_eq_false_iff, beq_eq_false_iff_ne]

theorem readTarget_of_regAt_eq_none {off : Nat} (width : Nat) (h : regAt off = none) :
    readTarget off width = none := by
  rw [readTarget, h, ite_self]

theorem readTarget_of_wholeWord_eq_false {off width : Nat} (h : wholeWord off width = false) :
    readTarget off width = none := by
  rw [readTarget, h, if_neg Bool.false_ne_true]

/-! ### Where no register is reached, a read gives 0 and a write is ignored -/

theorem State.serveRead_of_readTarget_eq_none {off width : Nat} (s : State) (t : Nat)
    (h : readTarget off width = none) :
    s.serveRead t off width = { s with lastReply := some (.readData t 0) } := by
  rw [State.serveRead, State.readEffect, State.readWord, h]

theorem State.serveWrite_of_readTarget_eq_none {off width : Nat} (s : State) (t : Nat) (v : Word)
    (h : readTarget off width = none) :
    s.serveWrite t off width v = { s with lastReply := some (.writeDone t) } := by
  rw [State.serveWrite, writeTarget, h]

/-- An access that reaches no register: R65 and R67 state the same outcome of it. -/
theorem serve_of_readTarget_eq_none {off width : Nat} (s : State) (t : Nat) (v : Word) (hoff : off < 128)
    (h : readTarget off width = none) :
    serve (.access t (.read (s.cfg.huffBase + off) width)) s =
        .next { s with lastReply := some (.readData t 0) } ∧
      serve (.access t (.write (s.cfg.huffBase + off) width v)) s =
        .next { s with lastReply := some (.writeDone t) } := by
  constructor
  · rw [serve_read s t width hoff, State.serveRead_of_readTarget_eq_none s t h]
  · rw [serve_write s t width v hoff, State.serveWrite_of_readTarget_eq_none s t v h]

/-! ### The obligations -/

/-- Settles O35: the listed offsets are those of the registers, so an unlisted one reaches none. -/
theorem unmappedOffsetsAreInert : Obligations.UnmappedOffsetsAreInert := by
  intro s t off width v hunlisted hoff
  have hreg : regAt off = none := regAt_eq_none_iff.mpr hunlisted
  exact serve_of_readTarget_eq_none s t v hoff (readTarget_of_regAt_eq_none width hreg)

/-- Settles O36: an access that is no whole word reaches no register, mapped or not. -/
theorem subwordAndMisalignedAccessesAreInert : Obligations.SubwordAndMisalignedAccessesAreInert := by
  intro s t off width v hoff hodd
  have hword : wholeWord off width = false := wholeWord_eq_false_iff.mpr hodd
  exact serve_of_readTarget_eq_none s t v hoff (readTarget_of_wholeWord_eq_false hword)

end Sys2Proof.Machine
end

section
/-! PROOFS. What a decoded word says of its command (30_encoding.md R84, R85), and the NOPs (R86). -/

namespace Sys2Proof

/-! ### A decoded word satisfies its command's row of R84 -/

/-- The inversion of `decode`: a legal word was accepted by a row of the opcode map, which built its command. -/
theorem exists_opRow_of_decode {p : Port} {w : Word} {i : Instr} (h : decode p w = .instr i) :
    ∃ r ∈ opRows, r.port = p ∧ w &&& r.mask = r.pattern ∧ r.build w = i := by
  unfold decode at h
  split at h
  next r hfind =>
    have haccepts : r.port = p ∧ w &&& r.mask = r.pattern := by
      simpa [OpRow.accepts] using List.find?_some hfind
    exact ⟨r, List.mem_of_find?_eq_some hfind, haccepts.1, haccepts.2, Decoded.instr.inj h⟩
  next => cases h

/-- Each row of the opcode map builds commands of its own port, and of its own line in `rowOf`. -/
theorem OpRow.build_port_rowOf {r : OpRow} (hr : r ∈ opRows) (w : Word) :
    (r.build w).port = r.port ∧ rowOf (r.build w) = (r.pattern, r.mask) := by
  simp only [opRows, List.mem_cons, List.not_mem_nil, or_false] at hr
  obtain rfl | rfl | rfl | rfl | rfl | rfl | rfl | rfl | rfl | rfl := hr <;> exact ⟨rfl, rfl⟩

theorem decode_port_and_match {p : Port} {w : Word} {i : Instr} (h : decode p w = .instr i) :
    i.port = p ∧ w &&& (rowOf i).2 = (rowOf i).1 := by
  obtain ⟨r, hr, hport, hmatch, rfl⟩ := exists_opRow_of_decode h
  obtain ⟨hbuild, hrow⟩ := OpRow.build_port_rowOf hr w
  rw [hrow]
  exact ⟨hbuild.trans hport, hmatch⟩

/-- A command without operand bits (its mask is all ones) has exactly one word, its match column. -/
theorem decode_eq_instr_iff_of_full_mask {i : Instr} (hmask : (rowOf i).2 = BitVec.allOnes 32)
    (hdecode : decode i.port (rowOf i).1 = .instr i) (w : Word) :
    decode i.port w = .instr i ↔ w = (rowOf i).1 := by
  constructor
  · intro h
    obtain ⟨-, hmatch⟩ := decode_port_and_match h
    rwa [hmask, BitVec.and_allOnes] at hmatch
  · rintro rfl
    exact hdecode

end Sys2Proof

namespace Sys2Proof.Machine

/-- Settles O9: a NOP has no operand bits, so 0 is its one word on its port; its meaning is the state it finds. -/
theorem nopChangesNothing : Obligations.NopChangesNothing :=
  ⟨decode_eq_instr_iff_of_full_mask (i := .encNop) rfl (by decide),
    decode_eq_instr_iff_of_full_mask (i := .decNop) rfl (by decide),
    fun _ => ⟨rfl, rfl, rfl, rfl⟩⟩

end Sys2Proof.Machine
end

section
/-! PROOFS. The symbol table (40_symbol_table.md): the configuration check refuses exactly the tables that fail R101,
the values of HUFFCORE's own table (R104, R106), and that a legal code of Kraft sum 1 is complete (R105). -/

namespace Sys2Proof.Machine

/-! ### The five checks of R101 -/

theorem tablePrefixFree_iff {T : Table} (hlen : ∀ e ∈ T, e.len.toNat ≤ 30) :
    tablePrefixFree T = true ↔ T.Pairwise fun e f => Apart e.codeword f.codeword := by
  have hbound : ∀ c ∈ T.map SymbolEntry.codeword, c.length ≤ 32 := by
    simp only [List.forall_mem_map, SymbolEntry.codeword_length]
    exact fun e he => (hlen e he).trans (by decide)
  rw [tablePrefixFree, prefixFree_iff 32 _ hbound, List.pairwise_map]

/-- The converse of `tableWf_facts`. -/
theorem tableWf_of_facts {T : Table} (hT : TableFacts T) : tableWf T = true := by
  have hlengths : tableLengthsOk T = true := by simpa [tableLengthsOk] using hT.lengths
  have hcodes : tableCodesFit T = true := by simpa [tableCodesFit] using hT.codes
  have heos : tableEosLongEnough T = true := by
    obtain ⟨e, he⟩ := hT.read le_rfl
    have hentry : T[eos]? = some e := (tableRead_some he).2
    simpa [tableEosLongEnough, hentry] using hT.eosLong e hentry
  have hprefix : tablePrefixFree T = true := (tablePrefixFree_iff fun e he => (hT.lengths e he).2).mpr hT.apart
  rw [tableWf, tableCountOk_iff.mpr hT.count, hlengths, hcodes, heos, hprefix]
  rfl

/-- R101 check 4 as the rule states it, over pairs of indices. -/
theorem pairwise_apart_of_getElem? {T : Table}
    (h : ∀ (i j : Nat) (e f : SymbolEntry), T[i]? = some e → T[j]? = some f → i ≠ j →
      ¬ e.codeword <+: f.codeword) :
    T.Pairwise fun e f => Apart e.codeword f.codeword := by
  rw [List.pairwise_iff_getElem]
  intro i j hi hj hij
  have hgeti : T[i]? = some T[i] := List.getElem?_eq_getElem hi
  have hgetj : T[j]? = some T[j] := List.getElem?_eq_getElem hj
  exact ⟨h i j _ _ hgeti hgetj hij.ne, h j i _ _ hgetj hgeti hij.ne'⟩

/-! ### Where a command finds every table entry, it is not refused -/

theorem settle_refused {p : Port} {e : Effect} {s : State} {r : Refusal} (h : settle p e s = .refused r) :
    e = .refuse r := by
  cases e with
  | refuse r' =>
    cases h
    rfl
  | commit bs u =>
    simp only [settle] at h
    split at h <;> cases h

theorem TableFacts.encByteEffect_ne_refuse {s : State} (hT : TableFacts s.cfg.table) (b : Byte) (r : Refusal) :
    encByteEffect b s ≠ .refuse r := by
  obtain ⟨e, he⟩ := hT.read (id := imm8Id b) b.isLt.le
  unfold encByteEffect
  split
  case h_4 =>
    simp only [he]
    split <;> nofun
  all_goals nofun

theorem TableFacts.encFinishEffect_ne_refuse {s : State} (hT : TableFacts s.cfg.table) (r : Refusal) :
    encFinishEffect s ≠ .refuse r := by
  obtain ⟨e, he⟩ := hT.read le_rfl
  unfold encFinishEffect
  split
  case h_4 =>
    simp only [he]
    split <;> nofun
  all_goals nofun

theorem decByteEffect_ne_refuse (b : Byte) (s : State) (r : Refusal) : decByteEffect b s ≠ .refuse r := by
  unfold decByteEffect
  split
  case h_4 => split <;> nofun
  all_goals nofun

theorem TableFacts.execEncTblrd_ne_refused {s : State} (hT : TableFacts s.cfg.table) (id : BitVec 9)
    (r : Refusal) : execEncTblrd id s ≠ .refused r := by
  unfold execEncTblrd
  split
  · nofun
  · obtain ⟨e, he⟩ := hT.read (id := imm9Id id) (by omega)
    simp only [he]
    nofun

theorem TableFacts.execDecFinish_ne_refused {s : State} (hT : TableFacts s.cfg.table) (r : Refusal) :
    execDecFinish s ≠ .refused r := by
  obtain ⟨e, he⟩ := hT.read le_rfl
  unfold execDecFinish
  split
  case h_4 =>
    simp only [he]
    split
    · nofun
    · split <;> nofun
  all_goals nofun

theorem TableFacts.exec_ne_refused {s : State} (hT : TableFacts s.cfg.table) (i : Instr) (r : Refusal) :
    exec i s ≠ .refused r := by
  intro h
  cases i with
  | encByte b => exact hT.encByteEffect_ne_refuse b r (settle_refused h)
  | encFinish => exact hT.encFinishEffect_ne_refuse r (settle_refused h)
  | encTblrd id => exact hT.execEncTblrd_ne_refused id r h
  | decByte b => exact decByteEffect_ne_refuse b s r (settle_refused h)
  | decFinish => exact hT.execDecFinish_ne_refused r h
  | encNop => cases h
  | encStart => cases h
  | decNop => cases h
  | decStart => cases h
  | decStartMax => cases h

/-! ### Where a step's refusal comes from -/

theorem runWord_refused {p : Port} {w : Word} {s : State} {r : Refusal} (h : runWord p w s = .refused r) :
    ∃ i, exec i s = .refused r := by
  unfold runWord at h
  split at h
  · exact ⟨_, h⟩
  · cases h

theorem completing_refused {p : Port} {pw : PortWrite} {rest : List PortWrite}
    {o : Host.Outcome State Fault Refusal} {r : Refusal} (h : completing p pw rest o = .refused r) :
    o = .refused r := by
  cases o with
  | refused r' =>
    cases h
    rfl
  | next t => cases h
  | fault f => cases h

theorem engineTurn_refused {p : Port} {s : State} {r : Refusal} (h : engineTurn p s = .refused r) :
    ∃ i, exec i s = .refused r := by
  unfold engineTurn at h
  split at h
  · cases h
  · split at h
    · exact runWord_refused (completing_refused h)
    · cases h

theorem serve_refused {a : Arrival} {s : State} {r : Refusal} (h : serve a s = .refused r) :
    r = .outsideRegisterSpace := by
  unfold serve at h
  split at h
  · cases h
  all_goals
    split at h
    · cases h
    · cases h
      rfl

theorem hostTurn_refused {s : State} {r : Refusal} (h : hostTurn s = .refused r) :
    r = .outsideRegisterSpace := by
  unfold hostTurn at h
  split at h
  · cases h
  · exact serve_refused h

theorem takeTurn_refused {a : Agent} {s : State} {r : Refusal} (h : takeTurn a s = .refused r) :
    (∃ i, exec i s = .refused r) ∨ r = .outsideRegisterSpace := by
  cases a with
  | enc => exact .inl (engineTurn_refused (p := .enc) h)
  | dec => exact .inl (engineTurn_refused (p := .dec) h)
  | host => exact .inr (hostTurn_refused h)

/-- The agents refuse a command's meaning, or an access outside the register space (R239). -/
theorem runAgents_refused {s : State} {r : Refusal} (h : runAgents s = .refused r) :
    (∃ i ts, exec i { s with turns := ts } = .refused r) ∨ r = .outsideRegisterSpace := by
  unfold runAgents at h
  split at h
  · split at h <;> cases h
  · split at h
    · exact (takeTurn_refused h).imp_left fun ⟨i, hexec⟩ => ⟨i, s.turns, hexec⟩
    · exact (takeTurn_refused h).imp_left fun ⟨i, hexec⟩ => ⟨i, _, hexec⟩

theorem TableFacts.runAgents_ne_malformedTable {s : State} (hT : TableFacts s.cfg.table) :
    runAgents s ≠ .refused .malformedTable := by
  intro h
  obtain ⟨i, ts, hexec⟩ | hr := runAgents_refused h
  · exact TableFacts.exec_ne_refused (s := { s with turns := ts }) hT i _ hexec
  · cases hr

theorem step_eq_malformedTable_iff {s : State} (hranges : rangesOk s.cfg = true) :
    step s = .refused .malformedTable ↔ ¬ tableWf s.cfg.table = true := by
  by_cases hwf : tableWf s.cfg.table = true
  · have hparams : paramsWf s.cfg = true := by rw [paramsWf, hranges, hwf, Bool.and_self]
    rw [step_eq_runAgents hparams]
    exact iff_of_false (tableWf_facts hwf).runAgents_ne_malformedTable (not_not_intro hwf)
  · exact iff_of_true (by simp [step, configurationRefusal, hranges, hwf]) hwf

/-! ### The Kraft sum of a code whose strings are pairwise apart (R104, R105) -/

/-- The Kraft sum of the strings of `L`, in units of `2^-n`. -/
def kraftSum (n : Nat) (L : List BitString) : Nat := (L.map fun c => 2 ^ (n - c.length)).sum

theorem kraftSum_map_codeword (n : Nat) (T : Table) :
    kraftSum n (T.map SymbolEntry.codeword) = (T.map fun e => 2 ^ (n - e.len.toNat)).sum := by
  simp only [kraftSum, List.map_map, Function.comp_def, SymbolEntry.codeword_length]

/-- Each nonempty string counts in the half of its first bit. -/
theorem kraftSum_split (n : Nat) {L : List BitString} (hne : [] ∉ L) :
    kraftSum (n + 1) L = kraftSum n (tailsAfter false L) + kraftSum n (tailsAfter true L) := by
  induction L with
  | nil => rfl
  | cons c L ih =>
    obtain ⟨hc, hL⟩ := not_or.mp (mt List.mem_cons.mpr hne)
    obtain ⟨b, t, rfl⟩ := List.exists_cons_of_ne_nil (Ne.symm hc)
    have ih' := ih hL
    simp only [kraftSum] at ih' ⊢
    cases b <;> simp [tailsAfter, ih'] <;> omega

theorem length_le_of_mem_tailsAfter {n : Nat} {b : Bool} {L : List BitString} (h : ∀ c ∈ L, c.length ≤ n + 1) :
    ∀ c ∈ tailsAfter b L, c.length ≤ n :=
  fun _ hc => Nat.le_of_succ_le_succ (h _ (mem_tailsAfter.mp hc))

/-- Every string begins with the empty one, so a code that has it and is pairwise apart has no other. -/
theorem eq_singleton_of_nil_mem {L : List BitString} (hL : L.Pairwise Apart) (hnil : [] ∈ L) : L = [[]] := by
  match L, hL with
  | [c], _ => rw [List.mem_singleton.mp hnil]
  | c :: d :: L, hL =>
    obtain ⟨hc, -⟩ := List.pairwise_cons.mp hL
    obtain rfl | hmem := List.mem_cons.mp hnil
    · exact absurd List.nil_prefix (hc d List.mem_cons_self).1
    · exact absurd List.nil_prefix (hc [] hmem).2

theorem kraftSum_of_nil_mem (n : Nat) {L : List BitString} (hL : L.Pairwise Apart) (hnil : [] ∈ L) :
    kraftSum n L = 2 ^ n := by
  rw [eq_singleton_of_nil_mem hL hnil]
  simp [kraftSum]

theorem kraftSum_zero_of_nil_not_mem {L : List BitString} (hlen : ∀ c ∈ L, c.length ≤ 0) (hnil : [] ∉ L) :
    kraftSum 0 L = 0 := by
  have hempty : L = [] := List.eq_nil_iff_forall_not_mem.mpr fun c hc => by
    obtain rfl : c = [] := List.length_eq_zero_iff.mp (Nat.le_zero.mp (hlen c hc))
    exact hnil hc
  rw [hempty]
  rfl

/-- Kraft's inequality. -/
theorem kraftSum_le {n : Nat} {L : List BitString} (hL : L.Pairwise Apart) (hlen : ∀ c ∈ L, c.length ≤ n) :
    kraftSum n L ≤ 2 ^ n := by
  induction n generalizing L with
  | zero =>
    by_cases hnil : [] ∈ L
    · exact (kraftSum_of_nil_mem 0 hL hnil).le
    · exact (kraftSum_zero_of_nil_not_mem hlen hnil).trans_le (Nat.zero_le _)
  | succ n ih =>
    by_cases hnil : [] ∈ L
    · exact (kraftSum_of_nil_mem (n + 1) hL hnil).le
    · obtain ⟨hfalse, htrue⟩ := (pairwise_apart_split hnil).mp hL
      rw [kraftSum_split n hnil, Nat.pow_succ, Nat.mul_two]
      exact Nat.add_le_add (ih hfalse (length_le_of_mem_tailsAfter hlen))
        (ih htrue (length_le_of_mem_tailsAfter hlen))

/-- Where Kraft's inequality is tight, it is tight in both halves, so every string continues a string of the code or
begins one. -/
theorem exists_prefix_of_kraftSum_eq {n : Nat} {L : List BitString} (hL : L.Pairwise Apart)
    (hlen : ∀ c ∈ L, c.length ≤ n) (hsum : kraftSum n L = 2 ^ n) (s : BitString) :
    ∃ c ∈ L, c <+: s ∨ s <+: c := by
  induction n generalizing L s with
  | zero =>
    have hnil : [] ∈ L := by
      by_contra hnil
      rw [kraftSum_zero_of_nil_not_mem hlen hnil] at hsum
      contradiction
    exact ⟨[], hnil, .inl List.nil_prefix⟩
  | succ n ih =>
    by_cases hnil : [] ∈ L
    · exact ⟨[], hnil, .inl List.nil_prefix⟩
    have hhalves := (pairwise_apart_split hnil).mp hL
    have hapart : ∀ b, (tailsAfter b L).Pairwise Apart := Bool.forall_bool.mpr hhalves
    have hle (b : Bool) : kraftSum n (tailsAfter b L) ≤ 2 ^ n :=
      kraftSum_le (hapart b) (length_le_of_mem_tailsAfter hlen)
    have htight (b : Bool) : kraftSum n (tailsAfter b L) = 2 ^ n := by
      have hfalse := hle false
      have htrue := hle true
      rw [kraftSum_split n hnil, Nat.pow_succ] at hsum
      cases b <;> omega
    have hcovers (b : Bool) (t : BitString) : ∃ c ∈ L, c <+: b :: t ∨ b :: t <+: c := by
      obtain ⟨c, hc, hct⟩ := ih (hapart b) (length_le_of_mem_tailsAfter hlen) (htight b) t
      exact ⟨b :: c, mem_tailsAfter.mp hc, by simpa [List.cons_prefix_cons] using hct⟩
    cases s with
    | cons b t => exact hcovers b t
    | nil =>
      obtain ⟨c, hc, -⟩ := hcovers false []
      exact ⟨c, hc, .inr List.nil_prefix⟩

/-- R105, for every table that passes R101: where the Kraft sum is 1 the code is complete. -/
theorem TableFacts.complete {T : Table} (hT : TableFacts T)
    (hsum : (T.map fun e => 2 ^ (30 - e.len.toNat)).sum = 2 ^ 30) (s : BitString) :
    ∃ e ∈ T, e.codeword <+: s ∨ (s <+: e.codeword ∧ s.length < e.len.toNat) := by
  have hapart : (T.map SymbolEntry.codeword).Pairwise Apart := List.pairwise_map.mpr hT.apart
  have hlen : ∀ c ∈ T.map SymbolEntry.codeword, c.length ≤ 30 := by
    simp only [List.forall_mem_map, SymbolEntry.codeword_length]
    exact fun e he => (hT.lengths e he).2
  obtain ⟨c, hc, hcomparable⟩ :=
    exists_prefix_of_kraftSum_eq hapart hlen ((kraftSum_map_codeword 30 T).trans hsum) s
  obtain ⟨e, he, rfl⟩ := List.mem_map.mp hc
  refine ⟨e, he, hcomparable.elim .inl fun hprefix => ?_⟩
  obtain heq | hlt := hprefix.length_le.eq_or_lt
  · exact .inl (hprefix.eq_of_length heq ▸ List.prefix_rfl)
  · exact .inr ⟨hprefix, e.codeword_length ▸ hlt⟩

/-! ### HUFFCORE's own table (R103) -/

theorem paramsWf_huffcoreParams : paramsWf huffcoreParams = true := by decide +kernel

theorem huffcoreTable_facts : TableFacts huffcoreTable := paramsWf_table paramsWf_huffcoreParams

theorem tableRead_huffcoreTable_eos : tableRead huffcoreTable eos = some ⟨0x3FFFFFFF, 30⟩ := by decide +kernel

theorem codewordOf_huffcoreTable_eos : codewordOf huffcoreTable eos = ones 30 := by
  rw [codewordOf_eq tableRead_huffcoreTable_eos]
  decide

theorem ones_take {k n : Nat} (h : k ≤ n) : (ones n).take k = ones k := by
  rw [ones, List.take_replicate, Nat.min_eq_left h, ones]

theorem exists_entry_of_le_eos {id : Nat} (h : id ≤ eos) :
    ∃ e, tableRead huffcoreTable id = some e ∧ (e, id) ∈ huffcoreTable.zipIdx := by
  obtain ⟨e, he⟩ := huffcoreTable_facts.read h
  exact ⟨e, he, List.mk_mem_zipIdx_iff_getElem?.mpr (tableRead_some he).2⟩

theorem lengthOf_eq {T : Table} {id : Nat} {e : SymbolEntry} (h : tableRead T id = some e) :
    lengthOf T id = e.len.toNat := by
  rw [lengthOf, h]

/-- R106: the 30-bit codewords are those that begin with 28 ones, EOS among them. -/
theorem longest_codewords : ∀ p ∈ huffcoreTable.zipIdx,
    (p.1.len.toNat = 30 ↔ p.2 ∈ [10, 13, 22, eos]) ∧ (ones 28 <+: p.1.codeword ↔ p.2 ∈ [10, 13, 22, eos]) := by
  decide +kernel

theorem longest_codewords_of_lt_eos {id : Nat} (h : id < eos) :
    (lengthOf huffcoreTable id = 30 ↔ id ∈ [10, 13, 22]) ∧
      (ones 28 <+: codewordOf huffcoreTable id ↔ id ∈ [10, 13, 22]) := by
  obtain ⟨e, hread, hmem⟩ := exists_entry_of_le_eos h.le
  have hlongest := longest_codewords (e, id) hmem
  have hids : id ∈ [10, 13, 22, eos] ↔ id ∈ [10, 13, 22] := by simp [h.ne]
  rwa [hids, ← lengthOf_eq hread, ← codewordOf_eq hread] at hlongest

theorem exists_lengthRow_of_mem :
    ∀ p ∈ huffcoreTable.zipIdx, ∃ r ∈ lengthRows, r.len = p.1.len.toNat ∧ p.2 ∈ r.ids := by
  decide +kernel

/-- A row of R104 says what the table holds: its symbols, and their codes, which are consecutive. -/
theorem lengthRows_agree : ∀ r ∈ lengthRows,
    r.ids.length = r.count ∧ r.ids.Pairwise (· < ·) ∧ r.last + 1 = r.first + r.count ∧
      ∀ p ∈ r.ids.zipIdx,
        (tableRead huffcoreTable p.1).map (fun e => (e.len.toNat, e.code.toNat)) =
          some (r.len, r.first + p.2) := by
  decide +kernel

/-- Each row of R104 begins at the code after the row before it, shifted to its own length. -/
theorem lengthRows_chain :
    lengthRows.IsChain fun r q => r.len < q.len ∧ q.first = (r.last + 1) <<< (q.len - r.len) := by
  decide

theorem huffcoreTable_kraftSum : (huffcoreTable.map fun e => 2 ^ (30 - e.len.toNat)).sum = 2 ^ 30 := by
  decide +kernel

/-! ### The obligations -/

/-- Settles O48: the five checks are R101's, and under a table that passes them no part of a step answers
`malformedTable`. -/
theorem malformedTableIsRefused : Obligations.MalformedTableIsRefused := by
  intro s hranges
  rw [step_eq_malformedTable_iff hranges]
  refine not_congr ⟨fun hwf => ?_, fun ⟨hcount, hlengths, hcodes, hprefix, heos⟩ => ?_⟩
  · have hT := tableWf_facts hwf
    exact ⟨hT.count, hT.lengths, hT.codes, fun i j e f hi hj hij hpre => hij (hT.same hi hj hpre), hT.eosLong⟩
  · exact tableWf_of_facts ⟨hcount, hlengths, hcodes, pairwise_apart_of_getElem? hprefix, heos⟩

/-- Settles O49: the table passes the checks and EOS is `ones 30`; what the longest codewords are, entry by entry. -/
theorem huffcoreTableIsLegal : Obligations.HuffcoreTableIsLegal :=
  ⟨paramsWf_huffcoreParams, tableRead_huffcoreTable_eos, codewordOf_huffcoreTable_eos,
    fun _ hk => codewordOf_huffcoreTable_eos ▸ ones_take hk,
    fun _ hid => (longest_codewords_of_lt_eos hid).1, fun _ hid => (longest_codewords_of_lt_eos hid).2⟩

/-- Settles O50: each row of R104 agrees with R103's table and follows from the row before it, and each entry of the
table is in a row. -/
theorem huffcoreTableIsCanonical : Obligations.HuffcoreTableIsCanonical := by
  refine ⟨fun r hr => ?_, rfl, fun k r q hr hq => ?_, fun id hid => ?_, by decide, by decide +kernel,
    huffcoreTable_kraftSum⟩
  · obtain ⟨hcount, hsorted, hlast, hcodes⟩ := lengthRows_agree r hr
    exact ⟨hcount, hsorted, hlast, fun k id hk => hcodes (id, k) (List.mk_mem_zipIdx_iff_getElem?.mpr hk)⟩
  · obtain ⟨-, rfl⟩ := List.getElem?_eq_some_iff.mp hr
    obtain ⟨hlt, rfl⟩ := List.getElem?_eq_some_iff.mp hq
    exact List.isChain_iff_getElem.mp lengthRows_chain k hlt
  · obtain ⟨e, -, hmem⟩ := exists_entry_of_le_eos hid
    obtain ⟨r, hr, -, hrow⟩ := exists_lengthRow_of_mem (e, id) hmem
    exact ⟨r, hr, hrow⟩

/-- Settles O51: the code's Kraft sum is 1, so it is complete; two codewords that begin one string are one. -/
theorem huffcoreCodeIsComplete : Obligations.HuffcoreCodeIsComplete := by
  intro s
  obtain ⟨e, he, hfits⟩ := huffcoreTable_facts.complete huffcoreTable_kraftSum s
  constructor
  · intro hnone
    obtain ⟨hno, hnoneExtends⟩ := matchBits_noMatch.mp hnone
    exact hfits.elim (hno e he) fun hextends => hnoneExtends ⟨e, he, hextends⟩
  · refine hfits.imp (fun hpre => ?_) fun hextends => ⟨e, he, hextends⟩
    obtain ⟨i, hi⟩ := List.mem_iff_getElem?.mp he
    refine ⟨i, e, hi, hpre, fun j f hj hfpre => ?_⟩
    have hmatch : MatchResult.sym j f = .sym i e :=
      (huffcoreTable_facts.matchBits_of_prefix hj hfpre).symm.trans (huffcoreTable_facts.matchBits_of_prefix hi hpre)
    exact (MatchResult.sym.inj hmatch).1

end Sys2Proof.Machine
end

section
/-! PROOFS. The encoder commands, state by state: ENC.START, ENC.BYTE, ENC.FINISH and ENC.TBLRD (41_encoder.md
R124 to R126, R128), and the words of the commands that have operand bits (30_encoding.md R84). -/

namespace Sys2Proof

/-! ### The words of one row of the opcode map -/

/-- Two rows of one port that agree on the bits both fix are the same row, so no word fits two of them. -/
theorem opRows_separate : ∀ j k : Fin opRows.length, opRows[j].port = opRows[k].port →
    opRows[j].pattern &&& opRows[k].mask = opRows[k].pattern &&& opRows[j].mask → j = k := by
  decide

theorem decode_of_row (k : Fin opRows.length) {w : Word} (hmatch : w &&& opRows[k].mask = opRows[k].pattern) :
    decode opRows[k].port w = .instr (opRows[k].build w) := by
  unfold decode
  split
  next r hfind =>
    obtain ⟨j, hj, rfl⟩ := List.mem_iff_getElem.mp (List.mem_of_find?_eq_some hfind)
    have haccepts : opRows[j].port = opRows[k].port ∧ w &&& opRows[j].mask = opRows[j].pattern := by
      simpa [OpRow.accepts] using List.find?_some hfind
    obtain ⟨hport, hmatch'⟩ := haccepts
    have hsame : (⟨j, hj⟩ : Fin opRows.length) = k :=
      opRows_separate ⟨j, hj⟩ k hport <| by
        show opRows[j].pattern &&& opRows[k].mask = opRows[k].pattern &&& opRows[j].mask
        rw [← hmatch', ← hmatch, BitVec.and_assoc, BitVec.and_assoc, BitVec.and_comm opRows[j].mask]
    subst hsame
    rfl
  next hnone =>
    have hrejects := List.find?_eq_none.mp hnone opRows[k] (List.getElem_mem k.isLt)
    exact absurd (by simpa [OpRow.accepts] using hmatch) hrejects

/-- The words of a command are those that fit its row, its operands their operand fields. -/
theorem decode_eq_instr_iff_of_row (k : Fin opRows.length) {i : Instr}
    (hrow : rowOf i = (opRows[k].pattern, opRows[k].mask)) (w : Word) :
    decode opRows[k].port w = .instr i ↔ w &&& opRows[k].mask = opRows[k].pattern ∧ i = opRows[k].build w := by
  constructor
  · intro h
    obtain ⟨-, hmatch⟩ := decode_port_and_match h
    rw [hrow] at hmatch
    exact ⟨hmatch, Decoded.instr.inj (h.symm.trans (decode_of_row k hmatch))⟩
  · rintro ⟨hmatch, rfl⟩
    exact decode_of_row k hmatch

theorem decode_eq_encStart_iff (w : Word) (f : Bool) :
    decode .enc w = .instr (.encStart f) ↔ w &&& 0xFEFFFFFF#32 = 0x10000000#32 ∧ f = w.getLsbD 24 :=
  (decode_eq_instr_iff_of_row ⟨1, by decide⟩ rfl w).trans (and_congr_right' (Iff.of_eq (Instr.encStart.injEq ..)))

theorem decode_eq_encByte_iff (w : Word) (b : Byte) :
    decode .enc w = .instr (.encByte b) ↔ w &&& 0xFFFFFF00#32 = 0x20000000#32 ∧ b = w.extractLsb' 0 8 :=
  (decode_eq_instr_iff_of_row ⟨2, by decide⟩ rfl w).trans (and_congr_right' (Iff.of_eq (Instr.encByte.injEq ..)))

theorem decode_eq_encTblrd_iff (w : Word) (id : BitVec 9) :
    decode .enc w = .instr (.encTblrd id) ↔ w &&& 0xFFFFFE00#32 = 0x40000000#32 ∧ id = w.extractLsb' 0 9 :=
  (decode_eq_instr_iff_of_row ⟨4, by decide⟩ rfl w).trans (and_congr_right' (Iff.of_eq (Instr.encTblrd.injEq ..)))

end Sys2Proof

namespace Sys2Proof.Machine

/-! ### Raising an error outside FAULT (60_exceptions.md R192) -/

theorem State.raiseEnc_of_ne_fault {s : State} (c : ErrorCode) (h : s.enc.state ≠ .fault) :
    s.raiseEnc c = { s with enc := { s.enc with state := .fault, err := c } } :=
  if_neg h

/-! ### ENC.BYTE and ENC.FINISH as settled effects -/

theorem exec_encByte (b : Byte) (s : State) : exec (.encByte b) s = settle .enc (encByteEffect b s) s := rfl

theorem isHeld_encByte (b : Byte) (s : State) : isHeld (.encByte b) s = (encByteEffect b s).held .enc s := rfl

theorem exec_encFinish (s : State) : exec .encFinish s = settle .enc (encFinishEffect s) s := rfl

theorem isHeld_encFinish (s : State) : isHeld .encFinish s = (encFinishEffect s).held .enc s := rfl

theorem held_commit_eq_false {p : Port} {bs : List Byte} {u s : State} (h : bs.length ≤ s.free p) :
    (Effect.commit bs u).held p s = false := by
  rw [Bool.eq_false_iff, ne_eq, held_commit]
  omega

/-- The queue has room for what is emitted when it is nothing, as in SIZE_ONLY mode, or when it has room for all. -/
theorem emitted_length_le {sizeOnly : Bool} {bs : List Byte} {n : Nat} (h : sizeOnly = true ∨ bs.length ≤ n) :
    (if sizeOnly then [] else bs).length ≤ n := by
  cases sizeOnly with
  | true => exact Nat.zero_le n
  | false => exact h.resolve_left Bool.false_ne_true

/-! ### ENC.BYTE (R125) -/

theorem encByteEffect_of_fault (b : Byte) {s : State} (h : s.enc.state = .fault) :
    encByteEffect b s = .commit [] s := by
  simp only [encByteEffect, h]

theorem encByteEffect_of_idle_or_done (b : Byte) {s : State} (h : s.enc.state = .idle ∨ s.enc.state = .done) :
    encByteEffect b s = .commit [] (s.raiseEnc .badSequence) := by
  obtain h | h := h <;> simp only [encByteEffect, h]

theorem encByteEffect_of_overflow {b : Byte} {s : State} {e : SymbolEntry} (hactive : s.enc.state = .active)
    (he : tableRead s.cfg.table b.toNat = some e) (hover : maxCount < s.enc.totalBits.toNat + e.len.toNat) :
    encByteEffect b s = .commit [] (s.raiseEnc .countOverflow) := by
  simp only [encByteEffect, hactive, imm8Id, he, if_pos hover]

/-- The state after ENC.BYTE has packed the entry `e` (R125). -/
def State.encPacked (s : State) (e : SymbolEntry) : State :=
  { s with enc := { s.enc with
      pend := (packEntry s.enc e).2
      totalBits := s.enc.totalBits + e.len.setWidth 32
      inCount := s.enc.inCount + 1
      outq := s.enc.outq ++ (if s.enc.sizeOnly then [] else (packEntry s.enc e).1) } }

theorem State.encPacked_outq (s : State) (e : SymbolEntry) :
    (s.encPacked e).outq .enc = s.enc.outq ++ (if s.enc.sizeOnly then [] else (packEntry s.enc e).1) := rfl

section
variable {b : Byte} {s : State} {e : SymbolEntry} (hactive : s.enc.state = .active)
  (he : tableRead s.cfg.table b.toNat = some e) (hcount : s.enc.totalBits.toNat + e.len.toNat ≤ maxCount)
include hactive he hcount

theorem encByte_held (hqueues : s.enc.sizeOnly = false)
    (hfull : s.free .enc < (s.enc.pend.length + e.len.toNat) / 8) :
    isHeld (.encByte b) s = true ∧ exec (.encByte b) s = .next s := by
  obtain ⟨-, -, hlength⟩ := packEntry_spec s.enc e
  have hfull' : s.free .enc < (if s.enc.sizeOnly then [] else (packEntry s.enc e).1).length := by
    rwa [hqueues, if_neg Bool.false_ne_true, hlength]
  rw [isHeld_encByte, exec_encByte, encByteEffect_active hactive he hcount]
  exact ⟨(held_commit ..).mpr hfull', settle_of_full hfull'⟩

theorem encByte_packs (hroom : s.enc.sizeOnly = true ∨ (s.enc.pend.length + e.len.toNat) / 8 ≤ s.free .enc) :
    isHeld (.encByte b) s = false ∧ exec (.encByte b) s = .next (s.encPacked e) := by
  obtain ⟨-, -, hlength⟩ := packEntry_spec s.enc e
  rw [← hlength] at hroom
  have htotal : BitVec.ofNat 32 (s.enc.totalBits.toNat + e.len.toNat) = s.enc.totalBits + e.len.setWidth 32 := by
    rw [BitVec.ofNat_add, BitVec.ofNat_toNat, BitVec.setWidth_eq, BitVec.ofNat_toNat]
  have hin : BitVec.ofNat 32 (s.enc.inCount.toNat + 1) = s.enc.inCount + 1 := by
    rw [BitVec.ofNat_add, BitVec.ofNat_toNat, BitVec.setWidth_eq]
    rfl
  rw [isHeld_encByte, exec_encByte, encByteEffect_active hactive he hcount, htotal, hin]
  exact ⟨held_commit_eq_false (emitted_length_le hroom), settle_of_room (emitted_length_le hroom)⟩

end

/-! ### ENC.FINISH (R126) -/

theorem encFinishEffect_of_fault {s : State} (h : s.enc.state = .fault) : encFinishEffect s = .commit [] s := by
  simp only [encFinishEffect, h]

theorem encFinishEffect_of_idle_or_done {s : State} (h : s.enc.state = .idle ∨ s.enc.state = .done) :
    encFinishEffect s = .commit [] (s.raiseEnc .badSequence) := by
  obtain h | h := h <;> simp only [encFinishEffect, h]

theorem encFinishEffect_of_pend_eq_nil {s : State} (hactive : s.enc.state = .active) (hpend : s.enc.pend = []) :
    encFinishEffect s = .commit [] s.encDone := by
  have hnbits : s.enc.nbits = 0 := by rw [Encoder.nbits, hpend, List.length_nil]
  simp only [encFinishEffect, hactive, if_pos hnbits]

theorem encFinishEffect_of_pend_ne_nil {s : State} {e : SymbolEntry} (hactive : s.enc.state = .active)
    (hpend : s.enc.pend ≠ []) (he : tableRead s.cfg.table eos = some e) :
    encFinishEffect s = .commit (if s.enc.sizeOnly then [] else [paddedByte s.enc.pend e]) s.encDone := by
  have hnbits : s.enc.nbits ≠ 0 := mt List.length_eq_zero_iff.mp hpend
  simp only [encFinishEffect, hactive, if_neg hnbits, he]

theorem State.encDone_outq (s : State) : s.encDone.outq .enc = s.enc.outq := rfl

theorem State.encDone_of_pend_eq_nil {s : State} (h : s.enc.pend = []) :
    s.encDone = { s with enc := { s.enc with state := .done } } := by
  rw [State.encDone, ← h]

theorem encFinish_of_pend_eq_nil {s : State} (hactive : s.enc.state = .active) (hpend : s.enc.pend = []) :
    isHeld .encFinish s = false ∧ exec .encFinish s = .next s.encDone := by
  rw [isHeld_encFinish, exec_encFinish, encFinishEffect_of_pend_eq_nil hactive hpend]
  exact ⟨held_commit_eq_false (Nat.zero_le _), settle_nothing ..⟩

/-- The last byte's bits: the EOS code is long enough to fill it (40_symbol_table.md R101 check 5). -/
theorem byteBits_paddedByte {pend : BitString} {e : SymbolEntry} (hpend : pend ≠ []) (hle : pend.length ≤ 7)
    (hlong : 7 ≤ e.len.toNat) : byteBits (paddedByte pend e) = pend ++ e.codeword.take (8 - pend.length) := by
  have hpos := List.length_pos_iff.mpr hpend
  refine byteBits_byteOf ?_
  rw [List.length_append, List.length_take, e.codeword_length]
  omega

section
variable {s : State} {e : SymbolEntry} (hactive : s.enc.state = .active) (hpend : s.enc.pend ≠ [])
  (he : tableRead s.cfg.table eos = some e)
include hactive hpend he

theorem encFinish_held (hqueues : s.enc.sizeOnly = false) (hfull : s.free .enc < 1) :
    isHeld .encFinish s = true ∧ exec .encFinish s = .next s := by
  rw [isHeld_encFinish, exec_encFinish, encFinishEffect_of_pend_ne_nil hactive hpend he, hqueues,
    if_neg Bool.false_ne_true]
  exact ⟨(held_commit ..).mpr hfull, settle_of_full hfull⟩

theorem encFinish_pads (hroom : s.enc.sizeOnly = true ∨ 1 ≤ s.free .enc) :
    isHeld .encFinish s = false ∧ exec .encFinish s =
      .next (s.encDone.emit .enc (if s.enc.sizeOnly then [] else [paddedByte s.enc.pend e])) := by
  rw [isHeld_encFinish, exec_encFinish, encFinishEffect_of_pend_ne_nil hactive hpend he]
  exact ⟨held_commit_eq_false (emitted_length_le hroom), settle_of_room (emitted_length_le hroom)⟩

end

/-! ### ENC.TBLRD (R128) -/

theorem exec_encTblrd_of_read {id : BitVec 9} {s : State} {e : SymbolEntry}
    (he : tableRead s.cfg.table id.toNat = some e) : exec (.encTblrd id) s =
      .next { s with enc := { s.enc with tblCode := e.code.setWidth 32, tblLen := e.len } } := by
  have hid : ¬ eos < imm9Id id := (tableRead_some he).1.not_gt
  show execEncTblrd id s = _
  rw [execEncTblrd, if_neg hid]
  simp only [imm9Id, he]

theorem exec_encTblrd_of_eos_lt {id : BitVec 9} (s : State) (hid : eos < id.toNat) :
    exec (.encTblrd id) s = .next (s.raiseEnc .badSymbolId) :=
  if_pos hid

/-! ### The obligations -/

/-- Settles O10: ENC.START's words are those of its row, and its meaning writes the registers it lists. -/
theorem encStartBeginsASession : Obligations.EncStartBeginsASession :=
  ⟨decode_eq_encStart_iff, by decide, by decide, fun _ _ => ⟨rfl, rfl⟩⟩

/-- Settles O13: an id has an entry up to EOS's; a larger one raises BAD_SYMBOL_ID. -/
theorem encTblrdReadsOrFaults : Obligations.EncTblrdReadsOrFaults :=
  ⟨decode_eq_encTblrd_iff, fun _ _ _ _ he => exec_encTblrd_of_read he, fun s _ hid => exec_encTblrd_of_eos_lt s hid,
    fun _ _ => rfl⟩

/-- Settles O11: each clause is one branch of ENC.BYTE's effect, settled; in the last, packing loses no bit. -/
theorem encByteAppendsItsCodeword : Obligations.EncByteAppendsItsCodeword := by
  refine ⟨decode_eq_encByte_iff, fun s b hfault => ?_, fun s b hended => ?_, fun s b e hactive he hover => ?_,
    fun s b e hactive he hcount => encByte_held hactive he hcount, fun s b e hactive he hcount hroom => ?_⟩
  · rw [exec_encByte, encByteEffect_of_fault b hfault, settle_nothing]
  · have hne : s.enc.state ≠ .fault := by obtain h | h := hended <;> simp [h]
    rw [exec_encByte, encByteEffect_of_idle_or_done b hended, settle_nothing, State.raiseEnc_of_ne_fault _ hne]
  · rw [exec_encByte, encByteEffect_of_overflow hactive he hover, settle_nothing,
      State.raiseEnc_of_ne_fault _ (by simp [hactive])]
  · obtain ⟨hbits, hrest, -⟩ := packEntry_spec s.enc e
    exact ⟨_, _, hbits, hrest, encByte_packs hactive he hcount hroom⟩

/-- Settles O12: each clause is one branch of ENC.FINISH's effect, settled; in the last, the padded byte is full. -/
theorem encFinishPadsTheLastByte : Obligations.EncFinishPadsTheLastByte := by
  refine ⟨decode_eq_instr_iff_of_full_mask (i := .encFinish) rfl (by decide), fun s hfault => ?_,
    fun s hended => ?_, fun s hactive hpend => ?_, fun s e hactive hpend he => encFinish_held hactive hpend he,
    fun s e hactive hpend hle he hlong hroom => ?_⟩
  · rw [exec_encFinish, encFinishEffect_of_fault hfault, settle_nothing]
  · have hne : s.enc.state ≠ .fault := by obtain h | h := hended <;> simp [h]
    rw [exec_encFinish, encFinishEffect_of_idle_or_done hended, settle_nothing, State.raiseEnc_of_ne_fault _ hne]
  · rw [← State.encDone_of_pend_eq_nil hpend]
    exact encFinish_of_pend_eq_nil hactive hpend
  · exact ⟨_, byteBits_paddedByte hpend hle hlong, encFinish_pads hactive hpend he hroom⟩

end Sys2Proof.Machine
end

section
/-! PROOFS. An encoding session whose bytes are all popped computes `Encode` and `EncodedSize` (41_encoder.md R121,
R122, R127, R131). -/

namespace Sys2Proof.Machine

/-! ### Running commands with every byte popped -/

theorem runDraining_cons {p : Port} {i : Instr} {is : List Instr} {s t u : State} {bs : List Byte}
    (hheld : isHeld i s = false) (hexec : exec i s = .next t)
    (hrun : runDraining p is (t.setOutq p []) = some (bs, u)) :
    runDraining p (i :: is) s = some (t.outq p ++ bs, u) := by
  simp only [runDraining, hheld, hexec, hrun, if_neg Bool.false_ne_true]

theorem runDraining_singleton (p : Port) {i : Instr} {s t : State} (hheld : isHeld i s = false)
    (hexec : exec i s = .next t) : runDraining p [i] s = some (t.outq p, t.setOutq p []) := by
  rw [runDraining_cons hheld hexec rfl, List.append_nil]

theorem exists_of_runDraining_cons {p : Port} {i : Instr} {is : List Instr} {s u : State} {bs : List Byte}
    (h : runDraining p (i :: is) s = some (bs, u)) :
    ∃ t cs, isHeld i s = false ∧ exec i s = .next t ∧ runDraining p is (t.setOutq p []) = some (cs, u) ∧
      bs = t.outq p ++ cs := by
  unfold runDraining at h
  split at h
  · cases h
  next hheld =>
    split at h
    next t hexec =>
      split at h
      next cs u' hrun =>
        cases h
        exact ⟨t, cs, Bool.eq_false_iff.mpr hheld, hexec, hrun, rfl⟩
      next => cases h
    next => cases h
    next => cases h

theorem runDraining_append {p : Port} {is js : List Instr} {s t u : State} {bs cs : List Byte}
    (hfirst : runDraining p is s = some (bs, t)) (hthen : runDraining p js t = some (cs, u)) :
    runDraining p (is ++ js) s = some (bs ++ cs, u) := by
  induction is generalizing s bs with
  | nil =>
    cases hfirst
    exact hthen
  | cons i is ih =>
    obtain ⟨t', ds, hheld, hexec, hrun, rfl⟩ := exists_of_runDraining_cons hfirst
    rw [List.cons_append, runDraining_cons hheld hexec (ih hrun), List.append_assoc]

/-- What two parts of a session emit, nothing in SIZE_ONLY mode. -/
theorem emitted_append (sizeOnly : Bool) (as bs : List Byte) :
    (if sizeOnly then [] else as) ++ (if sizeOnly then [] else bs) = if sizeOnly then [] else as ++ bs := by
  cases sizeOnly <;> rfl

/-! ### The reference functions (R121, R122) -/

theorem totalLength_append (T : Table) (S S' : List Byte) :
    totalLength T (S ++ S') = totalLength T S + totalLength T S' := by
  rw [← codeBits_length, codeBits_append, List.length_append, codeBits_length, codeBits_length]

theorem codeBits_singleton {T : Table} {b : Byte} {e : SymbolEntry} (he : tableRead T b.toNat = some e) :
    codeBits T [b] = e.codeword := by
  rw [codeBits_cons, codeBits_nil, List.append_nil, codewordOf_eq he]

theorem totalLength_singleton {T : Table} {b : Byte} {e : SymbolEntry} (he : tableRead T b.toNat = some e) :
    totalLength T [b] = e.len.toNat := by
  rw [← codeBits_length, codeBits_singleton he, e.codeword_length]

theorem encodeRef_eq_of_streamBits {T : Table} {S bs : List Byte} (h : streamBits bs = paddedBits T S) :
    encodeRef T S = bs :=
  congrArg Prod.fst (packBytes_unique (r := []) ((List.append_nil _).trans h) (Nat.succ_pos 7))

theorem padCount_add (m k : Nat) : padCount (8 * m + k) = (8 - k % 8) % 8 := by
  rw [padCount, Nat.mul_add_mod]

/-! ### The session's invariant -/

/-- In a session whose queue is empty, the encoder has taken the bytes `S`: `out` are the whole bytes their code bits
fill, and the rest of the code bits are pending (R127, R131). -/
structure Encoding (P : Params) (sizeOnly : Bool) (S out : List Byte) (s : State) : Prop where
  cfg : s.cfg = P
  active : s.enc.state = .active
  mode : s.enc.sizeOnly = sizeOnly
  drained : s.enc.outq = []
  bits : streamBits out ++ s.enc.pend = codeBits P.table S
  rest_lt : s.enc.pend.length < 8
  total : s.enc.totalBits.toNat = totalLength P.table S

/-- START begins a session that has taken no byte. -/
theorem exists_encoding_of_encStart (f : Bool) {s : State} (hdrained : s.enc.outq = []) :
    ∃ t, runDraining .enc [.encStart f] s = some ([], t) ∧ Encoding s.cfg f [] [] t := by
  have hrun := runDraining_singleton .enc (i := .encStart f) (s := s) rfl rfl
  rw [State.outq_enc, hdrained] at hrun
  exact ⟨_, hrun, rfl, rfl, rfl, rfl, rfl, Nat.succ_pos 7, rfl⟩

section
variable {P : Params} {f : Bool} {S out : List Byte} {s : State} (h : Encoding P f S out s)
include h

theorem Encoding.free_eq : s.free .enc = P.outqDepth := by
  rw [State.free, State.outq_enc, h.drained, h.cfg, List.length_nil, Nat.sub_zero]

theorem Encoding.codeBits_length_eq : (codeBits P.table S).length = 8 * out.length + s.enc.pend.length := by
  rw [← h.bits, List.length_append, streamBits_length]

variable (hwf : paramsWf P = true)
include hwf

/-- An empty queue has room for the most bytes that a command emits (00_scope.md R6). -/
theorem Encoding.four_le_free : 4 ≤ s.free .enc := by
  rw [paramsWf, Bool.and_eq_true] at hwf
  exact h.free_eq ▸ (rangesOk_iff.mp hwf.1).1

/-- BYTE takes one more byte. -/
theorem Encoding.encByte {b : Byte} (hsize : totalLength P.table (S ++ [b]) ≤ maxCount) :
    ∃ new t, runDraining .enc [.encByte b] s = some (if f then [] else new, t) ∧
      Encoding P f (S ++ [b]) (out ++ new) t := by
  have hT := paramsWf_table hwf
  obtain ⟨e, he⟩ := hT.read (id := b.toNat) b.isLt.le
  obtain ⟨hbits, hrest, -⟩ := packEntry_spec s.enc e
  have htotal : totalLength P.table (S ++ [b]) = s.enc.totalBits.toNat + e.len.toNat := by
    rw [totalLength_append, totalLength_singleton he, h.total]
  have hroom : (s.enc.pend.length + e.len.toNat) / 8 ≤ s.free .enc := by
    have hlen := (hT.lengths e (tableRead_mem he)).2
    have hfree := h.four_le_free hwf
    have hpend := h.rest_lt
    omega
  obtain ⟨hheld, hexec⟩ := encByte_packs h.active (h.cfg ▸ he) (htotal ▸ hsize) (.inr hroom)
  have hrun := runDraining_singleton .enc hheld hexec
  rw [State.encPacked_outq, h.drained, h.mode, List.nil_append] at hrun
  refine ⟨_, _, hrun, h.cfg, h.active, h.mode, rfl, ?_, hrest, ?_⟩
  · calc streamBits (out ++ (packEntry s.enc e).1) ++ (packEntry s.enc e).2
        = streamBits out ++ (s.enc.pend ++ e.codeword) := by rw [streamBits_append, List.append_assoc, hbits]
      _ = codeBits P.table (S ++ [b]) := by
        rw [← List.append_assoc, h.bits, codeBits_append, codeBits_singleton he]
  · show (s.enc.totalBits + e.len.setWidth 32).toNat = _
    rw [htotal, BitVec.toNat_add, BitVec.toNat_setWidth_of_le (by decide),
      Nat.mod_eq_of_lt ((htotal ▸ hsize).trans_lt (by decide))]

/-- FINISH completes the encoding: what is still missing of `Encode(S)` is nothing or the padded byte (R126). -/
theorem Encoding.encFinish :
    ∃ last t, runDraining .enc [.encFinish] s = some (if f then [] else last, t) ∧
      t.enc.state = .done ∧ t.enc.totalBits = s.enc.totalBits ∧ encodeRef P.table S = out ++ last := by
  by_cases hpend : s.enc.pend = []
  · obtain ⟨hheld, hexec⟩ := encFinish_of_pend_eq_nil h.active hpend
    have hrun := runDraining_singleton .enc hheld hexec
    rw [State.encDone_outq, h.drained] at hrun
    refine ⟨[], s.encDone.setOutq .enc [], by rwa [ite_self], rfl, rfl, encodeRef_eq_of_streamBits ?_⟩
    have hbits := h.bits
    have hlength := h.codeBits_length_eq
    rw [hpend] at hbits hlength
    rw [paddedBits, hlength, padCount_add, ← hbits]
    simp
  · obtain ⟨e, he⟩ := (paramsWf_table hwf).read le_rfl
    have hlong := (paramsWf_table hwf).eosLong e (tableRead_some he).2
    have hroom : 1 ≤ s.free .enc := Nat.le_trans (by decide) (h.four_le_free hwf)
    have hlast := byteBits_paddedByte hpend (Nat.le_of_lt_succ h.rest_lt) hlong
    obtain ⟨hheld, hexec⟩ := encFinish_pads h.active hpend (h.cfg ▸ he) (.inr hroom)
    have hrun := runDraining_singleton .enc hheld hexec
    rw [State.emit_outq, State.encDone_outq, h.drained, h.mode, List.nil_append] at hrun
    refine ⟨[paddedByte s.enc.pend e], _, hrun, rfl, rfl, encodeRef_eq_of_streamBits ?_⟩
    have hpad : padCount (codeBits P.table S).length = 8 - s.enc.pend.length := by
      have hpos := List.length_pos_iff.mpr hpend
      have hlt := h.rest_lt
      rw [h.codeBits_length_eq, padCount_add]
      omega
    rw [paddedBits, hpad, codewordOf_eq he, ← h.bits, streamBits_append, streamBits_cons, hlast, streamBits_nil,
      List.append_nil, List.append_assoc]

end

/-- The bytes of a session, one BYTE after the other. -/
theorem Encoding.encBytes {P : Params} {f : Bool} {S out : List Byte} {s : State} (h : Encoding P f S out s)
    (hwf : paramsWf P = true) (S' : List Byte) (hsize : totalLength P.table (S ++ S') ≤ maxCount) :
    ∃ new t, runDraining .enc (S'.map Instr.encByte) s = some (if f then [] else new, t) ∧
      Encoding P f (S ++ S') (out ++ new) t := by
  induction S' generalizing S out s with
  | nil =>
    refine ⟨[], s, ?_, by simpa using h⟩
    rw [List.map_nil, ite_self]
    rfl
  | cons b S' ih =>
    rw [List.append_cons] at hsize ⊢
    obtain ⟨new, t, hrun, ht⟩ := h.encByte hwf (b := b) (by rw [totalLength_append] at hsize; omega)
    obtain ⟨new', u, hrun', hu⟩ := ih ht hsize
    refine ⟨new ++ new', u, ?_, by rwa [← List.append_assoc]⟩
    rw [← emitted_append]
    exact runDraining_append hrun hrun'

/-! ### The session -/

theorem exists_encoding_of_start_bytes (f : Bool) {s : State} {S : List Byte} (hwf : paramsWf s.cfg = true)
    (hdrained : s.enc.outq = []) (hsize : totalLength s.cfg.table S ≤ maxCount) :
    ∃ out t, runDraining .enc (.encStart f :: S.map Instr.encByte) s = some (if f then [] else out, t) ∧
      Encoding s.cfg f S out t := by
  obtain ⟨t, hstart, ht⟩ := exists_encoding_of_encStart f hdrained
  obtain ⟨out, u, hbytes, hu⟩ := ht.encBytes hwf S hsize
  exact ⟨out, u, runDraining_append hstart hbytes, hu⟩

theorem State.readWord_encSize (s : State) : (s.readWord 0x14 32).toNat = s.enc.size :=
  State.readWord_toNat (r := .encSize) ((BitVec.toNat_ofNat _ _).trans (Nat.mod_eq_of_lt s.enc.size_lt))

/-- A whole session in either mode: `Encode(S)`, nothing in SIZE_ONLY mode, and its size. -/
theorem runDraining_encSession (f : Bool) {s : State} {S : List Byte} (hwf : paramsWf s.cfg = true)
    (hdrained : s.enc.outq = []) (hsize : totalLength s.cfg.table S ≤ maxCount) :
    ∃ t, runDraining .enc (encSession f S) s = some (if f then [] else encodeRef s.cfg.table S, t) ∧
      t.enc.state = .done ∧ (t.readWord 0x14 32).toNat = encodedSize s.cfg.table S := by
  obtain ⟨out, t, hrun, ht⟩ := exists_encoding_of_start_bytes f hwf hdrained hsize
  obtain ⟨last, u, hfinish, hdone, hbits, hencode⟩ := ht.encFinish hwf
  refine ⟨u, ?_, hdone, ?_⟩
  · rw [hencode, ← emitted_append]
    exact runDraining_append hrun hfinish
  · rw [State.readWord_encSize, Encoder.size, hbits, ht.total, encodedSize]

/-- Settles O56: the session's invariant holds from START through every BYTE, and FINISH completes it. -/
theorem encoderSessionComputesEncode : Obligations.EncoderSessionComputesEncode := by
  intro s S hwf hdrained hsize
  refine ⟨runDraining_encSession false hwf hdrained hsize, runDraining_encSession true hwf hdrained hsize, ?_⟩
  obtain ⟨out, t, hrun, ht⟩ := exists_encoding_of_start_bytes false hwf hdrained hsize
  exact ⟨out, t, hrun, ht.active, ht.bits⟩

end Sys2Proof.Machine
end

section
/-! PROOFS. `Match` (42_decoder.md R155), and the decoder commands that scan no byte: DEC.START, DEC.START.MAX and
DEC.FINISH (R156, R158). -/

namespace Sys2Proof

/-! ### The words of DEC.START and DEC.START.MAX (30_encoding.md R84, R87) -/

theorem decode_eq_decStartMax_iff (w : Word) (n : BitVec 24) : decode .dec w = .instr (.decStartMax n) ↔
    w &&& 0xFF000000#32 = 0x81000000#32 ∧ n = w.extractLsb' 0 24 :=
  (decode_eq_instr_iff_of_row ⟨7, by decide⟩ rfl w).trans <|
    and_congr_right' (Iff.of_eq (Instr.decStartMax.injEq ..))

theorem decode_eq_illegal {p : Port} {w : Word} (h : ∀ r ∈ opRows, r.port = p → w &&& r.mask ≠ r.pattern) :
    decode p w = .illegal (illegalKind p w) := by
  have hnone : opRows.find? (fun r => r.accepts p w) = none :=
    List.find?_eq_none.mpr (by simpa [OpRow.accepts] using h)
  rw [decode, hnone]

/-- Of the DEC port's rows only DEC.START's agrees with the high byte 0x80, and it fixes every bit. -/
theorem decRow_of_highByte : ∀ r ∈ opRows, r.port = .dec →
    r.pattern &&& 0xFF000000#32 = 0x80000000#32 &&& r.mask →
      r.mask = BitVec.allOnes 32 ∧ r.pattern = 0x80000000#32 := by
  decide

theorem decode_highByte_of_arg_ne_zero {n : BitVec 24} (hn : n ≠ 0) :
    decode .dec (0x80#8 ++ n) = .illegal .mustBeZero := by
  have hhigh : (0x80#8 ++ n) &&& 0xFF000000#32 = 0x80000000#32 := by
    rw [show 0xFF000000#32 = 0xFF#8 ++ 0#24 from rfl, BitVec.and_append, BitVec.and_zero]
    rfl
  have hop : (0x80#8 ++ n).extractLsb' 28 4 = 0x8#4 := by
    rw [BitVec.extractLsb'_append_eq_of_le (by decide)]
    rfl
  rw [decode_eq_illegal fun r hr hport hmatch => hn ?_, illegalKind, hop, if_pos (by decide)]
  have hagree : r.pattern &&& 0xFF000000#32 = 0x80000000#32 &&& r.mask := by
    rw [← hmatch, ← hhigh, BitVec.and_assoc, BitVec.and_assoc, BitVec.and_comm r.mask]
  obtain ⟨hmask, hpattern⟩ := decRow_of_highByte r hr hport hagree
  rw [hmask, hpattern, BitVec.and_allOnes, show 0x80000000#32 = 0x80#8 ++ 0#24 from rfl] at hmatch
  exact (BitVec.append_right_inj _).mp hmatch

theorem decStart_or_eq_append (n : BitVec 24) : 0x80000000#32 ||| n.setWidth 32 = 0x80#8 ++ n := by
  rw [show 0x80000000#32 = 0x80#8 ++ 0#24 from rfl, BitVec.setWidth_eq_append (by decide), BitVec.cast_eq,
    BitVec.or_append, BitVec.zero_or, BitVec.or_zero]

end Sys2Proof

namespace Sys2Proof.Machine

/-! ### Raising an error outside FAILED (60_exceptions.md R193) -/

theorem State.raiseDec_none_of_ne_failed {s : State} (c : ErrorCode) (h : s.dec.state ≠ .failed) :
    s.raiseDec c none = { s with dec := { s.dec with state := .failed, err := c } } :=
  if_neg h

theorem State.raiseDec_some_of_ne_failed {s : State} (c : ErrorCode) (p : BitVec 35) (h : s.dec.state ≠ .failed) :
    s.raiseDec c (some p) = { s with dec := { s.dec with
      state := .failed, err := c, errByte := p.extractLsb' 3 32, errBit := p.extractLsb' 0 3 } } :=
  if_neg h

/-! ### DEC.FINISH (R158) -/

theorem exec_decFinish_of_failed {s : State} (h : s.dec.state = .failed) : exec .decFinish s = .next s := by
  simp only [exec, execDecFinish, h]

theorem exec_decFinish_of_idle_or_done {s : State} (h : s.dec.state = .idle ∨ s.dec.state = .done) :
    exec .decFinish s = .next (s.raiseDec .badSequence none) := by
  obtain h | h := h <;> simp only [exec, execDecFinish, h]

section
variable {s : State} (hscanning : s.dec.state = .scanning)
include hscanning

theorem exec_decFinish_of_pend_eq_nil (hpend : s.dec.pend = []) : exec .decFinish s = .next s.decDone := by
  have hplen : s.dec.plen = 0 := List.length_eq_zero_iff.mpr hpend
  simp only [exec, execDecFinish, hscanning, if_pos hplen]

theorem exec_decFinish_of_pend_ne_nil {e : SymbolEntry} (hpend : s.dec.pend ≠ [])
    (he : tableRead s.cfg.table eos = some e) : exec .decFinish s =
      if paddingOk s.cfg.maxPadBits s.dec.pend e then .next s.decDone
      else .next (s.raiseDec .invalidPadding (some s.dec.position)) := by
  have hplen : s.dec.plen ≠ 0 := mt List.length_eq_zero_iff.mp hpend
  simp only [exec, execDecFinish, hscanning, if_neg hplen, he]

end

theorem paddingOk_iff {maxPad : Nat} {pend : BitString} {e : SymbolEntry} : paddingOk maxPad pend e = true ↔
    pend.length ≤ maxPad ∧ pend.length ≤ e.len.toNat ∧ pend = e.codeword.take pend.length := by
  simp only [paddingOk, Bool.and_eq_true, decide_eq_true_eq, and_assoc]

theorem State.decDone_of_pend_eq_nil {s : State} (h : s.dec.pend = []) :
    s.decDone = { s with dec := { s.dec with state := .done } } := by
  rw [State.decDone, ← h]

/-! ### The obligations -/

/-- Settles O52: SYM answers a matching codeword, and the table's only one; NEED and NOMATCH are `Match`'s own laws. -/
theorem matchIsTheReference : Obligations.MatchIsTheReference := by
  intro T s hwf
  have hT := tableWf_facts hwf
  refine ⟨hT.matchBits_nil, fun i e => ⟨matchBits_sym, fun ⟨hi, hpre⟩ => hT.matchBits_of_prefix hi hpre⟩,
    matchBits_need, ?_⟩
  rw [matchBits_noMatch]
  simp only [not_exists, not_and]

/-- Settles O14: the words are those of the two rows, and each meaning writes the registers it lists. -/
theorem decStartBeginsASession : Obligations.DecStartBeginsASession :=
  ⟨decode_eq_instr_iff_of_full_mask (i := .decStart) rfl (by decide), decode_eq_decStartMax_iff,
    fun n hn => decStart_or_eq_append n ▸ decode_highByte_of_arg_ne_zero hn, fun _ => ⟨rfl, rfl⟩,
    fun _ _ => ⟨rfl, rfl⟩⟩

/-- Settles O19: each clause is one branch of DEC.FINISH; the position of the first pending bit does not wrap. -/
theorem decFinishChecksThePadding : Obligations.DecFinishChecksThePadding := by
  refine ⟨decode_eq_instr_iff_of_full_mask (i := .decFinish) rfl (by decide), fun s => exec_decFinish_of_failed,
    fun s hended => ?_, fun s hscanning hpend => ?_, fun s e hscanning he hmax hlen hpre => ?_,
    fun s e hscanning he hpend hdelivered hbad => ?_, fun _ => rfl⟩
  · have hne : s.dec.state ≠ .failed := by obtain h | h := hended <;> simp [h]
    rw [exec_decFinish_of_idle_or_done hended, State.raiseDec_none_of_ne_failed _ hne]
  · rw [exec_decFinish_of_pend_eq_nil hscanning hpend, State.decDone_of_pend_eq_nil hpend]
  · by_cases hpend : s.dec.pend = []
    · exact exec_decFinish_of_pend_eq_nil hscanning hpend
    · rw [exec_decFinish_of_pend_ne_nil hscanning hpend he, if_pos (paddingOk_iff.mpr ⟨hmax, hlen, hpre⟩)]
      rfl
  · have hne : s.dec.state ≠ .failed := by simp [hscanning]
    rw [exec_decFinish_of_pend_ne_nil hscanning hpend he, if_neg (mt paddingOk_iff.mp hbad),
      State.raiseDec_some_of_ne_failed _ _ hne]
    refine ⟨_, rfl, ⟨rfl, rfl, rfl, rfl, rfl, rfl⟩, rfl, rfl, ?_⟩
    rw [position_split, position_toNat hdelivered]
    omega

end Sys2Proof.Machine
end

section
/-! PROOFS. The reference function `Decode` over a parsed input (42_decoder.md R153), and the round trip (R161). -/

namespace Sys2Proof.Machine

/-! ### The loop of `Decode` over the codewords of bytes -/

theorem TableFacts.decodeLoop_codeBits {T : Table} (hT : TableFacts T) (maxPad : Nat) {M : Option Nat} (S : List Byte)
    (fuel : Nat) (r : BitString) (pos : Nat) (out : List Byte) (hlimit : ∀ m ∈ M, out.length + S.length ≤ m) :
    decodeLoop T maxPad M (fuel + S.length) (codeBits T S ++ r) pos out =
      decodeLoop T maxPad M fuel r (pos + totalLength T S) (out ++ S) := by
  induction S generalizing pos out with
  | nil => simp [totalLength]
  | cons b S ih =>
    obtain ⟨e, he, hmatch⟩ := hT.matchBits_byte b (codeBits T S ++ r)
    have hne : b.toNat ≠ eos := b.isLt.ne
    have hroom : M ≠ some out.length := fun hM => by
      have := hlimit _ hM
      rw [List.length_cons] at this
      omega
    have hdrop : (codewordOf T b.toNat ++ (codeBits T S ++ r)).drop e.len.toNat = codeBits T S ++ r := by
      rw [codewordOf_eq he, ← e.codeword_length, List.drop_left]
    have hlength : totalLength T (b :: S) = e.len.toNat + totalLength T S := by
      rw [← totalLength_singleton he, ← totalLength_append, List.singleton_append]
    rw [List.length_cons, ← Nat.add_assoc, codeBits_cons, List.append_assoc, decodeLoop]
    simp only [hmatch, if_neg hne, if_neg hroom, hdrop, BitVec.ofNat_toNat, BitVec.setWidth_eq]
    rw [ih _ _ fun m hm => by simpa [Nat.add_assoc, Nat.add_comm 1] using hlimit m hm, hlength, Nat.add_assoc,
      List.append_assoc, List.singleton_append]

/-! ### How `Decode` ends, by what follows the bytes it decoded -/

section
variable {T : Table} (hT : TableFacts T) (maxPad : Nat) {M : Option Nat} {C S : List Byte} {r : BitString}
  (hbits : streamBits C = codeBits T S ++ r) (hlimit : ∀ m ∈ M, S.length ≤ m)
include hT hbits hlimit

/-- `Decode` decodes the bytes at the front of its input and has fuel for what follows. -/
theorem TableFacts.decodeRef_eq_decodeLoop :
    ∃ fuel, decodeRef T maxPad C M = decodeLoop T maxPad M (fuel + 1) r (totalLength T S) S := by
  have hlength : 8 * C.length = totalLength T S + r.length := by
    rw [← streamBits_length, hbits, List.length_append, codeBits_length]
  have hle := (hT.length_le_totalLength S).1
  refine ⟨8 * C.length - S.length, ?_⟩
  have hloop := hT.decodeLoop_codeBits maxPad S (8 * C.length - S.length + 1) r 0 [] (M := M) (by simpa using hlimit)
  rwa [show 8 * C.length - S.length + 1 + S.length = 8 * C.length + 1 by omega, ← hbits, Nat.zero_add,
    List.nil_append] at hloop

theorem TableFacts.decodeRef_of_noMatch (hend : matchBits T r = .noMatch) :
    decodeRef T maxPad C M = .error .invalidCode (totalLength T S) := by
  obtain ⟨fuel, heq⟩ := hT.decodeRef_eq_decodeLoop maxPad hbits hlimit
  rw [heq, decodeLoop]
  simp only [hend]

theorem TableFacts.decodeRef_of_eos (hend : codewordOf T eos <+: r) :
    decodeRef T maxPad C M = .error .invalidCode (totalLength T S) := by
  obtain ⟨fuel, heq⟩ := hT.decodeRef_eq_decodeLoop maxPad hbits hlimit
  obtain ⟨e, he⟩ := hT.read le_rfl
  rw [codewordOf_eq he] at hend
  rw [heq, decodeLoop]
  simp only [hT.matchBits_of_prefix (tableRead_some he).2 hend, if_pos]

theorem TableFacts.decodeRef_of_limit {b : Byte} (hend : codewordOf T b.toNat <+: r) (hfull : M = some S.length) :
    decodeRef T maxPad C M = .error .outputTooLarge (totalLength T S) := by
  obtain ⟨fuel, heq⟩ := hT.decodeRef_eq_decodeLoop maxPad hbits hlimit
  obtain ⟨e, he⟩ := hT.read (id := b.toNat) b.isLt.le
  have hne : b.toNat ≠ eos := b.isLt.ne
  rw [codewordOf_eq he] at hend
  rw [heq, decodeLoop]
  simp only [hT.matchBits_of_prefix (tableRead_some he).2 hend, if_neg hne, if_pos hfull]

theorem TableFacts.decodeRef_of_need (hend : matchBits T r = .need) : decodeRef T maxPad C M =
    if r = [] ∨ trailingOk T maxPad r = true then .ok S else .error .invalidPadding (totalLength T S) := by
  obtain ⟨fuel, heq⟩ := hT.decodeRef_eq_decodeLoop maxPad hbits hlimit
  rw [heq, decodeLoop]
  simp only [hend]

end

/-! ### The round trip -/

/-- `Encode(S)` is whole bytes: EOS is long enough to fill the last one (40_symbol_table.md R101 check 5). -/
theorem TableFacts.streamBits_encodeRef {T : Table} (hT : TableFacts T) (S : List Byte) :
    streamBits (encodeRef T S) = paddedBits T S := by
  obtain ⟨e, he⟩ := hT.read le_rfl
  have hlong := hT.eosLong e (tableRead_some he).2
  have hwhole : 8 * ((paddedBits T S).length / 8) = (paddedBits T S).length := by
    rw [paddedBits, codewordOf_eq he, List.length_append, List.length_take, e.codeword_length, padCount]
    omega
  have hpack := packBytes_bits _ (paddedBits T S) hwhole.le
  rwa [packBytes_rest, hwhole, List.drop_length, List.append_nil] at hpack

/-- Bits that only begin a codeword contain no codeword, since no codeword begins another one. -/
theorem TableFacts.matchBits_of_strict_prefix {T : Table} (hT : TableFacts T) {i : Nat} {e : SymbolEntry}
    {s : BitString} (hi : T[i]? = some e) (hpre : s <+: e.codeword) (hlt : s.length < e.len.toNat) :
    matchBits T s = .need := by
  refine matchBits_need.mpr ⟨fun f hf hfs => ?_, e, List.mem_of_getElem? hi, hpre, hlt⟩
  obtain ⟨j, hj⟩ := List.mem_iff_getElem?.mp hf
  obtain rfl := hT.same hj hi (hfs.trans hpre)
  obtain rfl := Option.some.inj (hj.symm.trans hi)
  have hle := hfs.length_le
  rw [f.codeword_length] at hle
  omega

theorem rangesOk_of_paramsWf {P : Params} (h : paramsWf P = true) : rangesOk P = true := by
  rw [paramsWf, Bool.and_eq_true] at h
  exact h.1

theorem padCount_le (n : Nat) : padCount n ≤ 7 := by
  rw [padCount]
  omega

/-- R161: the padding of `Encode(S)` only begins EOS, and is short enough for `Decode` to accept it. -/
theorem decodeRef_encodeRef {P : Params} (hwf : paramsWf P = true) (heos : 8 ≤ lengthOf P.table eos) (S : List Byte)
    {M : Option Nat} (hlimit : ∀ m ∈ M, S.length ≤ m) :
    decodeRef P.table P.maxPadBits (encodeRef P.table S) M = .ok S := by
  have hT := paramsWf_table hwf
  obtain ⟨e, he⟩ := hT.read le_rfl
  rw [lengthOf_eq he] at heos
  have hpad := padCount_le (codeBits P.table S).length
  set pad := (codewordOf P.table eos).take (padCount (codeBits P.table S).length)
  have hlength : pad.length ≤ 7 := (List.length_take_le ..).trans hpad
  have hpre : pad <+: codewordOf P.table eos := List.take_prefix ..
  have hneed : matchBits P.table pad = .need :=
    hT.matchBits_of_strict_prefix (tableRead_some he).2 (codewordOf_eq he ▸ hpre) (by omega)
  have hmax : 7 ≤ P.maxPadBits := by
    obtain ⟨-, -, hmax, -⟩ := rangesOk_iff.mp (rangesOk_of_paramsWf hwf)
    exact hmax
  have htrailing : trailingOk P.table P.maxPadBits pad = true := by
    rw [trailingOk, Bool.and_eq_true, decide_eq_true_eq, List.isPrefixOf_iff_prefix]
    exact ⟨hlength.trans hmax, hpre⟩
  rw [hT.decodeRef_of_need _ (hT.streamBits_encodeRef S) hlimit hneed, if_pos (.inr htrailing)]

/-- Settles O58: the round trip with no limit and with a limit of at least the length; HUFFCORE's EOS has 30 bits. -/
theorem decodeOfEncodeIsTheInput : Obligations.DecodeOfEncodeIsTheInput := by
  have hround (P : Params) (S : List Byte) (hwf : paramsWf P = true) (heos : 8 ≤ lengthOf P.table eos) :
      decodeRef P.table P.maxPadBits (encodeRef P.table S) none = .ok S ∧
        ∀ M, S.length ≤ M → decodeRef P.table P.maxPadBits (encodeRef P.table S) (some M) = .ok S :=
    ⟨decodeRef_encodeRef hwf heos S nofun,
      fun M hM => decodeRef_encodeRef hwf heos S fun m hm => Option.mem_some_iff.mp hm ▸ hM⟩
  have heos : lengthOf huffcoreTable eos = 30 := lengthOf_eq tableRead_huffcoreTable_eos
  exact ⟨fun S => hround huffcoreParams S paramsWf_huffcoreParams (heos ▸ by decide), hround⟩

end Sys2Proof.Machine
end

section
/-! PROOFS. A decoding session whose bytes are all popped computes `Decode` (42_decoder.md R153, R159). -/

namespace Sys2Proof.Machine

/-! ### What one scan reads (R157, R162) -/

/-- The first codeword that a DEC.BYTE completes is longer than the pending bits, and the next ones take at least 5
bits each, so there are at most two (00_scope.md R6, DEC_EMIT_MAX). -/
theorem TableFacts.length_le_decEmitMax {T : Table} (hT : TableFacts T) {pend r : BitString} {b : Byte}
    {S : List Byte} (hneed : matchBits T pend = .need) (hbits : pend ++ byteBits b = codeBits T S ++ r) :
    S.length ≤ decEmitMax := by
  cases S with
  | nil => exact Nat.zero_le _
  | cons x S =>
    obtain ⟨e, he⟩ := hT.read (id := x.toNat) x.isLt.le
    rw [codeBits_cons, codewordOf_eq he, List.append_assoc] at hbits
    have hlonger : pend.length < e.codeword.length := by
      by_contra hle
      have hpre : e.codeword <+: pend ++ byteBits b := hbits ▸ List.prefix_append ..
      have hnone := (matchBits_need.mp hneed).1 e (tableRead_mem he)
      exact hnone (List.prefix_of_prefix_length_le hpre (List.prefix_append ..) (by omega))
    have hrest := (hT.length_le_totalLength S).1
    have hlength := congrArg List.length hbits
    simp only [List.length_append, byteBits_length, codeBits_length] at hlength
    rw [List.length_cons, decEmitMax]
    omega

/-- Bytes that nothing stops stay within the output counter. -/
theorem noStop.length_le_maxCount {d : Decoder} {n : Nat} {S : List Byte} (h : noStop d n S) (hn : n ≤ maxCount) :
    n + S.length ≤ maxCount := by
  induction S generalizing n with
  | nil => exact hn
  | cons b S ih =>
    obtain ⟨-, hcount, hrest⟩ := h
    have := ih hrest (by omega)
    rw [List.length_cons]
    omega

/-- Bytes that nothing stops stay within the session's limit `M`. -/
theorem noStop.length_le_limit {d : Decoder} {M : Option Nat}
    (hd : ∀ n, limitReached d n = true ↔ ∃ m ∈ M, m ≤ n) {n : Nat} {S : List Byte} (h : noStop d n S)
    (hn : ∀ m ∈ M, n ≤ m) : ∀ m ∈ M, n + S.length ≤ m := by
  induction S generalizing n with
  | nil => exact hn
  | cons b S ih =>
    obtain ⟨hlimit, -, hrest⟩ := h
    have hlt : ∀ m ∈ M, n + 1 ≤ m := fun m hm => by
      by_contra hle
      exact absurd ((hd n).mpr ⟨m, hm, by omega⟩) (by simp [hlimit])
    intro m hm
    have := ih hrest hlt m hm
    rw [List.length_cons]
    omega

/-! ### The session's invariant -/

/-- In a session whose queue is empty, the decoder has taken the bytes `C`: their bits are the codewords of the bytes
`out` and the pending bits, which contain no codeword. `M` is the session's limit. -/
structure Decoding (P : Params) (M : Option Nat) (C out : List Byte) (s : State) : Prop where
  cfg : s.cfg = P
  scanning : s.dec.state = .scanning
  drained : s.dec.outq = []
  need : matchBits P.table s.dec.pend = .need
  bits : streamBits C = codeBits P.table out ++ s.dec.pend
  inCount : s.dec.inCount.toNat = C.length
  outCount : s.dec.outCount.toNat = out.length
  limit : ∀ n, limitReached s.dec n = true ↔ ∃ m ∈ M, m ≤ n
  within : ∀ m ∈ M, out.length ≤ m

/-- The decoder has failed as `Decode` fails on `C`: with the same error kind, at the same position, which is the bit
after the codewords of `out`. -/
structure Rejects (P : Params) (M : Option Nat) (C out : List Byte) (d : Decoder) : Prop where
  failed : d.state = .failed
  decode : decodeRef P.table P.maxPadBits C M = .error d.err (totalLength P.table out)
  position : 8 * d.errByte.toNat + d.errBit.toNat = totalLength P.table out
  bits : codeBits P.table out <+: streamBits C

/-- In a session whose queue is empty, the decoder has failed within the bytes `C`: a counter overflowed, or `Decode`
fails alike on `C` and on every input that begins with it. -/
structure Failed (P : Params) (M : Option Nat) (C out : List Byte) (s : State) : Prop where
  failed : s.dec.state = .failed
  drained : s.dec.outq = []
  reason : s.dec.err = .countOverflow ∨ ∀ C', Rejects P M (C ++ C') out s.dec

/-- The session's invariant: it goes on, or it has failed. -/
def Session (P : Params) (M : Option Nat) (C out : List Byte) (s : State) : Prop :=
  Decoding P M C out s ∨ Failed P M C out s

/-- The decoder has ended with what `Decode` answers on `C`, unless a counter overflowed. -/
def Answers (P : Params) (M : Option Nat) (C out : List Byte) (d : Decoder) : Prop :=
  d.err = .countOverflow ∨ d.state = .done ∧ decodeRef P.table P.maxPadBits C M = .ok out ∨ Rejects P M C out d

/-! ### Commands in the session -/

theorem runDraining_singleton_of_drained {p : Port} {i : Instr} {s t : State} (hheld : isHeld i s = false)
    (hexec : exec i s = .next t) (hdrained : t.outq p = []) : runDraining p [i] s = some ([], t) := by
  have hself := t.setOutq_self p
  rw [hdrained] at hself
  rw [runDraining_singleton p hheld hexec, hdrained, hself]

/-! ### START begins the session (R156) -/

theorem decStartOf_begins (M : Option (BitVec 24)) (s : State) : isHeld (decStartOf M) s = false ∧
    exec (decStartOf M) s = .next (s.decBegin M.isSome (M.getD 0)) := by
  cases M <;> exact ⟨rfl, rfl⟩

theorem limitReached_iff {d : Decoder} {n : Nat} :
    limitReached d n = true ↔ d.limitEn = true ∧ d.maxlen.toNat ≤ n := by
  rw [limitReached, Bool.and_eq_true, decide_eq_true_eq]

theorem limitReached_decBegin (M : Option (BitVec 24)) (s : State) (n : Nat) :
    limitReached (s.decBegin M.isSome (M.getD 0)).dec n = true ↔ ∃ m ∈ M.map BitVec.toNat, m ≤ n := by
  rw [limitReached_iff]
  cases M <;> simp [State.decBegin]

theorem exists_decoding_of_decStartOf (M : Option (BitVec 24)) {s : State} (hwf : paramsWf s.cfg = true)
    (hdrained : s.dec.outq = []) :
    ∃ t, runDraining .dec [decStartOf M] s = some ([], t) ∧ Decoding s.cfg (M.map BitVec.toNat) [] [] t := by
  obtain ⟨hheld, hexec⟩ := decStartOf_begins M s
  exact ⟨_, runDraining_singleton_of_drained hheld hexec hdrained, rfl, rfl, hdrained,
    (paramsWf_table hwf).matchBits_nil, rfl, rfl, rfl, limitReached_decBegin M s, fun _ _ => Nat.zero_le _⟩

/-! ### A failed session discards its commands (60_exceptions.md R195) -/

theorem decByteEffect_of_failed (b : Byte) {s : State} (h : s.dec.state = .failed) :
    decByteEffect b s = .commit [] s := by
  simp only [decByteEffect, h]

theorem exec_decByte (b : Byte) (s : State) : exec (.decByte b) s = settle .dec (decByteEffect b s) s := rfl

theorem isHeld_decByte (b : Byte) (s : State) : isHeld (.decByte b) s = (decByteEffect b s).held .dec s := rfl

theorem runDraining_decByte {b : Byte} {s u : State} {bs : List Byte} (heffect : decByteEffect b s = .commit bs u)
    (hroom : bs.length ≤ s.free .dec) (hdrained : u.dec.outq = []) :
    runDraining .dec [.decByte b] s = some (bs, u.setOutq .dec []) := by
  have hheld : isHeld (.decByte b) s = false := by rw [isHeld_decByte, heffect, held_commit_eq_false hroom]
  have hexec : exec (.decByte b) s = .next (u.emit .dec bs) := by rw [exec_decByte, heffect, settle_of_room hroom]
  rw [runDraining_singleton .dec hheld hexec, State.emit_outq, State.outq_dec, hdrained, List.nil_append]
  rfl

section
variable {P : Params} {M : Option Nat} {C out : List Byte} {s : State}

theorem Failed.append (h : Failed P M C out s) (C' : List Byte) : Failed P M (C ++ C') out s :=
  ⟨h.failed, h.drained, h.reason.imp_right fun hrejects C'' => List.append_assoc C C' C'' ▸ hrejects (C' ++ C'')⟩

theorem Failed.decByte (h : Failed P M C out s) (b : Byte) : runDraining .dec [.decByte b] s = some ([], s) := by
  have heffect := decByteEffect_of_failed b h.failed
  refine runDraining_singleton_of_drained ?_ ?_ h.drained
  · rw [isHeld_decByte, heffect, held_commit_eq_false (Nat.zero_le _)]
  · rw [exec_decByte, heffect, settle_nothing]

theorem Failed.decFinish (h : Failed P M C out s) : runDraining .dec [.decFinish] s = some ([], s) :=
  runDraining_singleton_of_drained rfl (exec_decFinish_of_failed h.failed) h.drained

end

/-! ### BYTE takes one more byte (R157) -/

/-- A string that begins no codeword begins none however it goes on: NOMATCH is detected early (R157). -/
theorem matchBits_append_of_noMatch {T : Table} {s : BitString} (h : matchBits T s = .noMatch) (s' : BitString) :
    matchBits T (s ++ s') = .noMatch := by
  obtain ⟨hno, hnone⟩ := matchBits_noMatch.mp h
  refine matchBits_noMatch.mpr ⟨fun e he hpre => ?_, fun ⟨e, he, hpre, hlt⟩ => hnone ⟨e, he, ?_, ?_⟩⟩
  · obtain hle | hle := List.prefix_or_prefix_of_prefix hpre (List.prefix_append s s')
    · exact hno e he hle
    · refine hnone ⟨e, he, hle, ?_⟩
      by_contra hge
      rw [← e.codeword_length] at hge
      exact hno e he (hle.eq_of_length_le (by omega) ▸ List.prefix_refl _)
  · exact (List.prefix_append s s').trans hpre
  · rw [List.length_append] at hlt
    omega

theorem scanCommit_none (S : List Byte) (r : BitString) (s : State) : scanCommit ⟨S, none, r⟩ s =
    { s.decCount S.length with dec := { (s.decCount S.length).dec with pend := r } } := rfl

theorem scanCommit_some (S : List Byte) (r : BitString) (s : State) (code : ErrorCode) (pos : Option (BitVec 35)) :
    scanCommit ⟨S, some (code, pos), r⟩ s = (s.decCount S.length).raiseDec code pos := rfl

section
variable {P : Params} {M : Option Nat} {C out : List Byte} {s : State} (h : Decoding P M C out s)
include h

theorem Decoding.ne_failed : s.dec.state ≠ .failed := by
  rw [h.scanning]
  nofun

theorem Decoding.two_le_free (hwf : paramsWf P = true) : 2 ≤ s.free .dec := by
  obtain ⟨hdepth, -⟩ := rangesOk_iff.mp (rangesOk_of_paramsWf hwf)
  rw [State.free, State.outq_dec, h.drained, h.cfg, List.length_nil]
  omega

theorem Decoding.position : s.dec.position.toNat = totalLength P.table out := by
  have hlength := congrArg List.length h.bits
  rw [streamBits_length, List.length_append, codeBits_length, ← h.inCount] at hlength
  rw [position_toNat (by omega)]
  omega

variable {b : Byte} {S : List Byte} {r : BitString} (hroom : C.length < maxCount)
  (hbits : streamBits (C ++ [b]) = codeBits P.table (out ++ S) ++ r)
include hroom hbits

/-- The position of what follows the codewords of a scan: it fits in 35 bits. -/
theorem Decoding.position_add :
    (s.dec.position + BitVec.ofNat 35 (totalLength P.table S)).toNat = totalLength P.table (out ++ S) := by
  have hlength := congrArg List.length hbits
  simp only [streamBits_length, List.length_append, codeBits_length, totalLength_append, List.length_singleton]
    at hlength
  simp only [maxCount] at hroom
  rw [BitVec.toNat_add, h.position, BitVec.toNat_ofNat, totalLength_append]
  omega

theorem Decoding.scanCommit_need (hcount : (out ++ S).length ≤ maxCount)
    (hlimit : ∀ m ∈ M, (out ++ S).length ≤ m) (hneed : matchBits P.table r = .need) :
    Decoding P M (C ++ [b]) (out ++ S) ((scanCommit ⟨S, none, r⟩ s).setOutq .dec []) := by
  rw [scanCommit_none]
  refine ⟨h.cfg, h.scanning, rfl, hneed, hbits, ?_, ?_, h.limit, hlimit⟩
  · show (BitVec.ofNat 32 (s.dec.inCount.toNat + 1)).toNat = _
    rw [h.inCount, BitVec.toNat_ofNat, List.length_append, List.length_singleton]
    exact Nat.mod_eq_of_lt ((Nat.succ_le_of_lt hroom).trans_lt (by decide))
  · show (BitVec.ofNat 32 (s.dec.outCount.toNat + S.length)).toNat = _
    rw [h.outCount, ← List.length_append, BitVec.toNat_ofNat]
    exact Nat.mod_eq_of_lt (hcount.trans_lt (by decide))

/-- An error that `Decode` answers whatever follows the bits `r` ends the session as it ends `Decode`. -/
theorem Decoding.scanCommit_error {code : ErrorCode}
    (hdecode : ∀ C' r', streamBits C' = codeBits P.table (out ++ S) ++ (r ++ r') →
      decodeRef P.table P.maxPadBits C' M = .error code (totalLength P.table (out ++ S))) :
    Failed P M (C ++ [b]) (out ++ S) ((scanCommit ⟨S, some (code,
      some (s.dec.position + BitVec.ofNat 35 (totalLength P.table S))), r⟩ s).setOutq .dec []) := by
  rw [scanCommit_some, State.raiseDec_some_of_ne_failed (s := s.decCount S.length) _ _ h.ne_failed]
  refine ⟨rfl, rfl, .inr fun C' => ?_⟩
  have hmore : streamBits (C ++ [b] ++ C') = codeBits P.table (out ++ S) ++ (r ++ streamBits C') := by
    rw [streamBits_append, hbits, List.append_assoc]
  exact ⟨rfl, hdecode _ _ hmore, (position_split _).trans (h.position_add hroom hbits),
    hmore ▸ List.prefix_append ..⟩

theorem Decoding.scanCommit_invalidCode (hT : TableFacts P.table) (hlimit : ∀ m ∈ M, (out ++ S).length ≤ m)
    (hinvalid : codewordOf P.table eos <+: r ∨ matchBits P.table r = .noMatch) :
    Failed P M (C ++ [b]) (out ++ S) ((scanCommit ⟨S, some (.invalidCode,
      some (s.dec.position + BitVec.ofNat 35 (totalLength P.table S))), r⟩ s).setOutq .dec []) := by
  refine h.scanCommit_error hroom hbits fun C' r' hmore => ?_
  obtain heos | hnone := hinvalid
  · exact hT.decodeRef_of_eos _ hmore hlimit (heos.trans (List.prefix_append ..))
  · exact hT.decodeRef_of_noMatch _ hmore hlimit (matchBits_append_of_noMatch hnone r')

theorem Decoding.scanCommit_outputTooLarge (hT : TableFacts P.table) (hlimit : ∀ m ∈ M, (out ++ S).length ≤ m)
    {x : Byte} (hx : codewordOf P.table x.toNat <+: r) (hreached : limitReached s.dec (out ++ S).length = true) :
    Failed P M (C ++ [b]) (out ++ S) ((scanCommit ⟨S, some (.outputTooLarge,
      some (s.dec.position + BitVec.ofNat 35 (totalLength P.table S))), r⟩ s).setOutq .dec []) := by
  obtain ⟨m, hm, hle⟩ := (h.limit _).mp hreached
  have hfull : M = some (out ++ S).length := hm.trans (congrArg some (Nat.le_antisymm hle (hlimit m hm)))
  exact h.scanCommit_error hroom hbits fun C' r' hmore =>
    hT.decodeRef_of_limit _ hmore hlimit (hx.trans (List.prefix_append ..)) hfull

end

theorem Failed.of_overflow {P : Params} {M : Option Nat} {s : State} (C out : List Byte)
    (h : s.dec.state ≠ .failed) :
    Failed P M C out ((s.raiseDec .countOverflow none).setOutq .dec []) :=
  ⟨State.raiseDec_dec_state .., rfl, .inl (State.raiseDec_dec_err _ _ _ h)⟩

theorem Decoding.decByte_of_full {P : Params} {M : Option Nat} {C out : List Byte} {s : State}
    (h : Decoding P M C out s) (hfull : s.dec.inCount.toNat = maxCount) (b : Byte) :
    ∃ t, runDraining .dec [.decByte b] s = some ([], t) ∧ Failed P M (C ++ [b]) out t := by
  have heffect : decByteEffect b s = .commit [] (s.raiseDec .countOverflow none) := by
    simp only [decByteEffect, h.scanning, if_pos hfull]
  exact ⟨_, runDraining_decByte heffect (Nat.zero_le _) (by rw [State.raiseDec_dec_outq, h.drained]),
    Failed.of_overflow _ _ h.ne_failed⟩

theorem Decoding.decByte {P : Params} {M : Option Nat} {C out : List Byte} {s : State} (h : Decoding P M C out s)
    (hwf : paramsWf P = true) (b : Byte) :
    ∃ new t, runDraining .dec [.decByte b] s = some (new, t) ∧ Session P M (C ++ [b]) (out ++ new) t := by
  have hT := paramsWf_table hwf
  by_cases hfull : s.dec.inCount.toNat = maxCount
  · obtain ⟨t, hrun, hfailed⟩ := h.decByte_of_full hfull b
    exact ⟨[], t, hrun, .inr ((List.append_nil out).symm ▸ hfailed)⟩
  · have hin : s.dec.inCount.toNat < maxCount := Nat.lt_of_le_of_ne (Nat.le_pred_of_lt s.dec.inCount.isLt) hfull
    have hroom : C.length < maxCount := h.inCount ▸ hin
    obtain ⟨S, r, err, hscan, hparse, hgo, hend⟩ := hT.scanLoop_cases s.dec (s.dec.pend.length + 9)
      (s.dec.pend ++ byteBits b) s.dec.position [] (by simp)
    simp only [List.length_nil, Nat.add_zero, h.outCount, ← List.length_append] at hgo hend
    have heffect : decByteEffect b s = .commit S (scanCommit ⟨S, err, r⟩ s) := by
      rw [decByteEffect_scanning h.scanning hin, scanByte, imm8Bits, h.cfg, hscan, List.nil_append]
    have hbits : streamBits (C ++ [b]) = codeBits P.table (out ++ S) ++ r := by
      rw [streamBits_append, h.bits, streamBits_cons, streamBits_nil, List.append_nil, List.append_assoc, hparse,
        codeBits_append, List.append_assoc]
    have hcount : (out ++ S).length ≤ maxCount :=
      List.length_append ▸ hgo.length_le_maxCount (h.outCount ▸ Nat.le_pred_of_lt s.dec.outCount.isLt)
    have hlimit : ∀ m ∈ M, (out ++ S).length ≤ m := List.length_append ▸ hgo.length_le_limit h.limit h.within
    have hfree : S.length ≤ s.free .dec := (hT.length_le_decEmitMax h.need hparse).trans (h.two_le_free hwf)
    refine ⟨S, _, runDraining_decByte heffect hfree (by rw [scanCommit_dec_outq, h.drained]), ?_⟩
    obtain ⟨rfl, hneed⟩ | ⟨rfl, hinvalid⟩ | ⟨x, hx, ⟨rfl, hreached⟩ | ⟨rfl, -⟩⟩ := hend
    · exact .inl (h.scanCommit_need hroom hbits hcount hlimit hneed)
    · exact .inr (h.scanCommit_invalidCode hroom hbits hT hlimit hinvalid)
    · exact .inr (h.scanCommit_outputTooLarge hroom hbits hT hlimit hx hreached)
    · exact .inr (Failed.of_overflow _ _ h.ne_failed)

/-! ### FINISH checks the padding (R158) -/

theorem paddingOk_eq_trailingOk {T : Table} {e : SymbolEntry} (he : tableRead T eos = some e) (maxPad : Nat)
    (pend : BitString) : paddingOk maxPad pend e = trailingOk T maxPad pend := by
  rw [Bool.eq_iff_iff, paddingOk_iff, trailingOk, Bool.and_eq_true, decide_eq_true_eq, List.isPrefixOf_iff_prefix,
    codewordOf_eq he]
  refine and_congr_right' ⟨fun ⟨_, htake⟩ => List.prefix_iff_eq_take.mpr htake, fun hpre => ?_⟩
  exact ⟨e.codeword_length ▸ hpre.length_le, List.prefix_iff_eq_take.mp hpre⟩

/-- FINISH in a session accepts the pending bits exactly where `Decode` accepts them as its trailing bits (R153). -/
theorem exec_decFinish_of_scanning {s : State} (hscanning : s.dec.state = .scanning)
    (hT : TableFacts s.cfg.table) : exec .decFinish s =
      .next (if s.dec.pend = [] ∨ trailingOk s.cfg.table s.cfg.maxPadBits s.dec.pend = true then s.decDone
        else s.raiseDec .invalidPadding (some s.dec.position)) := by
  by_cases hpend : s.dec.pend = []
  · rw [exec_decFinish_of_pend_eq_nil hscanning hpend, if_pos (.inl hpend)]
  · obtain ⟨e, he⟩ := hT.read le_rfl
    rw [exec_decFinish_of_pend_ne_nil hscanning hpend he, paddingOk_eq_trailingOk he, ← apply_ite]
    simp only [hpend, false_or]

theorem Decoding.decFinish {P : Params} {M : Option Nat} {C out : List Byte} {s : State} (h : Decoding P M C out s)
    (hT : TableFacts P.table) :
    ∃ t, runDraining .dec [.decFinish] s = some ([], t) ∧ Answers P M C out t.dec := by
  have hexec := exec_decFinish_of_scanning h.scanning (h.cfg ▸ hT)
  have hdecode := hT.decodeRef_of_need P.maxPadBits h.bits h.within h.need
  rw [h.cfg] at hexec
  by_cases haccepted : s.dec.pend = [] ∨ trailingOk P.table P.maxPadBits s.dec.pend = true
  · rw [if_pos haccepted] at hexec hdecode
    exact ⟨_, runDraining_singleton_of_drained rfl hexec h.drained, .inr (.inl ⟨rfl, hdecode⟩)⟩
  · rw [if_neg haccepted, State.raiseDec_some_of_ne_failed _ _ h.ne_failed] at hexec
    rw [if_neg haccepted] at hdecode
    exact ⟨_, runDraining_singleton_of_drained rfl hexec h.drained,
      .inr (.inr ⟨rfl, hdecode, (position_split _).trans h.position, h.bits ▸ List.prefix_append ..⟩)⟩

/-! ### The session -/

theorem Session.decByte {P : Params} {M : Option Nat} {C out : List Byte} {s : State} (h : Session P M C out s)
    (hwf : paramsWf P = true) (b : Byte) :
    ∃ new t, runDraining .dec [.decByte b] s = some (new, t) ∧ Session P M (C ++ [b]) (out ++ new) t := by
  obtain hdecoding | hfailed := h
  · exact hdecoding.decByte hwf b
  · exact ⟨[], s, hfailed.decByte b, .inr ((List.append_nil out).symm ▸ hfailed.append [b])⟩

/-- The bytes of a session, one BYTE after the other. -/
theorem Session.decBytes {P : Params} {M : Option Nat} {C out : List Byte} {s : State} (h : Session P M C out s)
    (hwf : paramsWf P = true) (C' : List Byte) :
    ∃ new t, runDraining .dec (C'.map Instr.decByte) s = some (new, t) ∧ Session P M (C ++ C') (out ++ new) t := by
  induction C' generalizing C out s with
  | nil => exact ⟨[], s, rfl, by simpa using h⟩
  | cons b C' ih =>
    obtain ⟨new, t, hrun, ht⟩ := h.decByte hwf b
    obtain ⟨new', u, hrun', hu⟩ := ih ht
    rw [List.append_cons]
    exact ⟨new ++ new', u, runDraining_append hrun hrun', List.append_assoc out .. ▸ hu⟩

theorem Session.decFinish {P : Params} {M : Option Nat} {C out : List Byte} {s : State} (h : Session P M C out s)
    (hT : TableFacts P.table) :
    ∃ t, runDraining .dec [.decFinish] s = some ([], t) ∧ Answers P M C out t.dec := by
  obtain hdecoding | hfailed := h
  · exact hdecoding.decFinish hT
  · exact ⟨s, hfailed.decFinish, hfailed.reason.imp_right fun hrejects => .inr (List.append_nil C ▸ hrejects [])⟩

theorem runDraining_decSession (M : Option (BitVec 24)) {s : State} (C : List Byte) (hwf : paramsWf s.cfg = true)
    (hdrained : s.dec.outq = []) :
    ∃ bs t, runDraining .dec (decSession M C) s = some (bs, t) ∧
      Answers s.cfg (M.map BitVec.toNat) C bs t.dec := by
  obtain ⟨t, hstart, ht⟩ := exists_decoding_of_decStartOf M hwf hdrained
  obtain ⟨bs, u, hbytes, hu⟩ := Session.decBytes (.inl ht) hwf C
  obtain ⟨v, hfinish, hv⟩ := hu.decFinish (paramsWf_table hwf)
  have hrun := runDraining_append hstart (runDraining_append hbytes hfinish)
  rw [List.append_nil] at hrun
  exact ⟨bs, v, hrun, hv⟩

/-- Settles O57: the session's invariant holds from START through every BYTE, and where it ends, at FINISH or at an
error, `Decode` ends too. -/
theorem decoderSessionComputesDecode : Obligations.DecoderSessionComputesDecode := by
  intro s C M hwf hdrained
  obtain ⟨bs, t, hrun, hend⟩ := runDraining_decSession M C hwf hdrained
  refine ⟨bs, t, hrun, fun hcount => ?_⟩
  obtain ⟨hdone, hdecode⟩ | hrejects := hend.resolve_left hcount
  · rw [hdecode]
    exact ⟨hdone, rfl⟩
  · obtain ⟨r, hr⟩ := hrejects.bits
    rw [hrejects.decode]
    exact ⟨hrejects.failed, rfl, hrejects.position, r, hr.symm, rfl⟩

end Sys2Proof.Machine
end

section
/-! PROOFS. The error states (60_exceptions.md): entering one (R192, R193), ILLEGAL_COMMAND (R194), BAD_SEQUENCE
(R195), and the two ways out of one, START and reset (R202). -/

namespace Sys2Proof.Machine

/-! ### Entering the error state (R192, R193) -/

theorem State.raiseEnc_eq_ite (s : State) (c : ErrorCode) :
    s.raiseEnc c = if s.enc.state = .fault then s
      else { s with enc := { s.enc with state := .fault, err := c } } := by
  split
  · exact State.raiseEnc_of_fault s c ‹_›
  · exact State.raiseEnc_of_ne_fault c ‹_›

theorem State.raiseDec_none_eq_ite (s : State) (c : ErrorCode) :
    s.raiseDec c none = if s.dec.state = .failed then s
      else { s with dec := { s.dec with state := .failed, err := c } } := by
  split
  · exact State.raiseDec_of_failed s c none ‹_›
  · exact State.raiseDec_none_of_ne_failed c ‹_›

/-- ERR_BYTE of a recorded offset (10_state.md R38). -/
theorem extractLsb'_byte_of_offset (q : BitVec 35) : q.extractLsb' 3 32 = BitVec.ofNat 32 (q.toNat / 8) :=
  congrArg (BitVec.ofNat 32) (Nat.shiftRight_eq_div_pow q.toNat 3)

/-- ERR_BIT of a recorded offset (R38). -/
theorem extractLsb'_bit_of_offset (q : BitVec 35) : q.extractLsb' 0 3 = BitVec.ofNat 3 (q.toNat % 8) :=
  BitVec.eq_of_toNat_eq (by simp)

/-! ### Illegal words (R194) -/

theorem runWord_illegal {p : Port} {w : Word} {why : Illegal} (h : decode p w = .illegal why) (s : State) :
    runWord p w s = .next (s.raiseIllegal p) := by
  simp only [runWord, h]

/-! ### BYTE and FINISH where there is no session (R195) -/

theorem decByteEffect_of_idle_or_done (b : Byte) {s : State} (h : s.dec.state = .idle ∨ s.dec.state = .done) :
    decByteEffect b s = .commit [] (s.raiseDec .badSequence none) := by
  obtain h | h := h <;> simp only [decByteEffect, h]

theorem eq_badSymbolId_of_canRaise {n : BitVec 9} {c : ErrorCode} (h : CanRaise (.encTblrd n) c) :
    c = .badSymbolId := by
  cases c <;> simp [CanRaise] at h ⊢

/-- ENC.TBLRD records BAD_SYMBOL_ID or no error (R197). -/
theorem ExecCase.err_of_encTblrd {n : BitVec 9} {s t : State} (h : ExecCase (.encTblrd n) s t) :
    t.enc.err = s.enc.err ∨ t.enc.err = .badSymbolId := by
  cases h with
  | same => exact .inl rfl
  | encTblrd => exact .inl rfl
  | raiseDec _ _ _ hi => simp at hi
  | raiseEnc _ c _ _ _ hraise =>
    obtain rfl := eq_badSymbolId_of_canRaise hraise
    by_cases hfault : s.enc.state = .fault
    · exact .inl (congrArg (·.enc.err) (s.raiseEnc_of_fault _ hfault))
    · exact .inr (s.raiseEnc_enc_err _ hfault)

/-! ### A command changes only its own engine -/

theorem ExecCase.enc_eq {i : Instr} {s t : State} (h : ExecCase i s t) (hport : i.port = .dec) : t.enc = s.enc := by
  cases h with
  | same => rfl
  | decStart => rfl
  | decStartMax => rfl
  | decFinish => rfl
  | raiseDec => exact State.raiseDec_enc _ _ _
  | decPadding => exact State.raiseDec_enc _ _ _
  | decByte => rw [State.emit_dec_enc, scanCommit_enc]
  | raiseEnc _ _ _ hi => obtain rfl | ⟨b, rfl⟩ | ⟨id, rfl⟩ := hi <;> cases hport
  | _ => cases hport

theorem ExecCase.dec_eq {i : Instr} {s t : State} (h : ExecCase i s t) (hport : i.port = .enc) : t.dec = s.dec := by
  cases h with
  | same => rfl
  | encStart => rfl
  | encTblrd => rfl
  | encByte => rfl
  | encFinish => rfl
  | raiseEnc => exact State.raiseEnc_dec _ _
  | raiseDec _ _ _ hi => obtain rfl | ⟨b, rfl⟩ := hi <;> cases hport
  | _ => cases hport

/-! ### The recorded error of an engine -/

/-- What an engine records of an error (10_state.md R30, R37, R38): that it is in FAULT or FAILED, the error, and,
where the engine has one, its position. -/
structure ErrorRecord where
  raised : Bool
  code : ErrorCode
  byte : BitVec 32
  bit : BitVec 3

/-- No error, and no position. -/
def ErrorRecord.cleared : ErrorRecord := ⟨false, .none, 0, 0⟩

/-- The error that a port's engine has recorded. The encoder has no position. -/
def State.errorRecord (s : State) : Port → ErrorRecord
  | .enc => ⟨decide (s.enc.state = .fault), s.enc.err, 0, 0⟩
  | .dec => ⟨decide (s.dec.state = .failed), s.dec.err, s.dec.errByte, s.dec.errBit⟩

theorem State.errorRecord_enc_raised {s : State} : (s.errorRecord .enc).raised = true ↔ s.enc.state = .fault :=
  decide_eq_true_iff

theorem State.errorRecord_dec_raised {s : State} : (s.errorRecord .dec).raised = true ↔ s.dec.state = .failed :=
  decide_eq_true_iff

theorem State.setWaiting_errorRecord (s : State) (p q : Port) (ws : List PortWrite) :
    (s.setWaiting p ws).errorRecord q = s.errorRecord q := by
  cases p <;> cases q <;> rfl

theorem State.completeWrite_errorRecord (s : State) (p q : Port) (pw : PortWrite) (ws : List PortWrite) :
    (s.completeWrite p pw ws).errorRecord q = s.errorRecord q := by
  cases p <;> cases q <;> rfl

theorem State.hardReset_errorRecord (s : State) (d : Bool) (q : Port) : (s.hardReset d).errorRecord q = .cleared := by
  cases q <;> rfl

theorem State.raiseIllegal_errorRecord {s : State} {q : Port} (hraised : (s.errorRecord q).raised = true) (p : Port) :
    (s.raiseIllegal p).errorRecord q = s.errorRecord q := by
  cases q with
  | enc =>
    cases p with
    | enc => rw [State.raiseIllegal, State.raiseEnc_of_fault _ _ (errorRecord_enc_raised.mp hraised)]
    | dec => simp only [State.errorRecord, State.raiseIllegal, State.raiseDec_enc]
  | dec =>
    cases p with
    | enc => simp only [State.errorRecord, State.raiseIllegal, State.raiseEnc_dec]
    | dec => rw [State.raiseIllegal, State.raiseDec_of_failed _ _ _ (errorRecord_dec_raised.mp hraised)]

/-! ### What a step makes of a recorded error (R202): one lemma per part of `step` -/

/-- The command is a START of the port's engine. -/
def IsStartOf : Port → Instr → Prop
  | .enc, i => ∃ f, i = .encStart f
  | .dec, i => IsDecStart i

/-- A way out of the error state stands ready: a START at the front of the engine's port, or a reset of the host. -/
def ErrorExit (q : Port) (s : State) : Prop :=
  (∃ pw rest i, s.waiting q = pw :: rest ∧ decode q pw.word = .instr i ∧ IsStartOf q i) ∨
    ∃ d rest, s.nextArrival = some (.reset d, rest)

/-- In the error state a command of the engine is its START, which clears the error, or leaves the error alone. -/
theorem ExecCase.errorRecord_own {i : Instr} {s t : State} (h : ExecCase i s t)
    (hraised : (s.errorRecord i.port).raised = true) :
    t.errorRecord i.port = s.errorRecord i.port ∨
      IsStartOf i.port i ∧ t.errorRecord i.port = .cleared := by
  cases h with
  | same => exact .inl rfl
  | encStart f => exact .inr ⟨⟨f, rfl⟩, rfl⟩
  | decStart => exact .inr ⟨.inl rfl, rfl⟩
  | decStartMax n => exact .inr ⟨.inr ⟨n, rfl⟩, rfl⟩
  | encTblrd => exact .inl rfl
  | encByte => exact .inl rfl
  | raiseEnc _ c _ hi =>
    have hport : i.port = .enc := by obtain rfl | ⟨b, rfl⟩ | ⟨id, rfl⟩ := hi <;> rfl
    rw [hport] at hraised
    rw [State.raiseEnc_of_fault s c (State.errorRecord_enc_raised.mp hraised)]
    exact .inl rfl
  | raiseDec _ c _ hi =>
    have hport : i.port = .dec := by obtain rfl | ⟨b, rfl⟩ := hi <;> rfl
    rw [hport] at hraised
    rw [State.raiseDec_of_failed s c none (State.errorRecord_dec_raised.mp hraised)]
    exact .inl rfl
  | encFinish _ _ hactive => cases hactive.symm.trans (State.errorRecord_enc_raised.mp hraised)
  | decByte _ _ hscanning => cases hscanning.symm.trans (State.errorRecord_dec_raised.mp hraised)
  | decFinish _ hscanning => cases hscanning.symm.trans (State.errorRecord_dec_raised.mp hraised)
  | decPadding _ hscanning => cases hscanning.symm.trans (State.errorRecord_dec_raised.mp hraised)

theorem ExecCase.errorRecord_other {i : Instr} {s t : State} {q : Port} (h : ExecCase i s t) (hport : i.port ≠ q) :
    t.errorRecord q = s.errorRecord q := by
  cases q with
  | enc =>
    have hdec : i.port = .dec := by
      cases hp : i.port with
      | enc => exact absurd hp hport
      | dec => rfl
    simp only [State.errorRecord, h.enc_eq hdec]
  | dec =>
    have henc : i.port = .enc := by
      cases hp : i.port with
      | enc => rfl
      | dec => exact absurd hp hport
    simp only [State.errorRecord, h.dec_eq henc]

theorem runWord_errorRecord {p q : Port} {w : Word} {s t : State} (h : runWord p w s = .next t)
    (hraised : (s.errorRecord q).raised = true) :
    t.errorRecord q = s.errorRecord q ∨
      (p = q ∧ ∃ i, decode q w = .instr i ∧ IsStartOf q i) ∧ t.errorRecord q = .cleared := by
  obtain ⟨i, hdecode, hexec⟩ | ⟨-, -, rfl⟩ := runWord_cases h
  · obtain ⟨rfl, -⟩ := decode_port_and_match hdecode
    by_cases hport : i.port = q
    · subst hport
      refine ((exec_cases hexec).errorRecord_own hraised).imp_right fun ⟨hstart, hcleared⟩ => ?_
      exact ⟨⟨rfl, i, hdecode, hstart⟩, hcleared⟩
    · exact .inl ((exec_cases hexec).errorRecord_other hport)
  · exact .inl (State.raiseIllegal_errorRecord hraised p)

theorem engineTurn_errorRecord {p q : Port} {s t : State} (h : engineTurn p s = .next t)
    (hraised : (s.errorRecord q).raised = true) :
    t.errorRecord q = s.errorRecord q ∨ ErrorExit q s ∧ t.errorRecord q = .cleared := by
  obtain rfl | ⟨pw, rest, u, hwaiting, -, hrun, rfl⟩ := engineTurn_cases h
  · exact .inl rfl
  · rw [State.completeWrite_errorRecord]
    refine (runWord_errorRecord hrun hraised).imp_right fun ⟨⟨hport, i, hdecode, hstart⟩, hcleared⟩ => ?_
    exact ⟨.inl ⟨pw, rest, i, hport ▸ hwaiting, hdecode, hstart⟩, hcleared⟩

theorem State.afterRead_errorRecord (s : State) (r : Reg) (q : Port) :
    (s.afterRead r).errorRecord q = s.errorRecord q := by
  cases r <;> cases q <;> rfl

theorem State.serveRead_errorRecord (s : State) (th off width : Nat) (q : Port) :
    (s.serveRead th off width).errorRecord q = s.errorRecord q := by
  have hread : (s.readEffect off width).errorRecord q = s.errorRecord q := by
    unfold State.readEffect
    split
    · exact s.afterRead_errorRecord _ q
    · rfl
  cases q <;> exact hread

theorem State.serveWrite_errorRecord (s : State) (th off width : Nat) (value : Word) (q : Port) :
    (s.serveWrite th off width value).errorRecord q = s.errorRecord q := by
  unfold State.serveWrite
  split
  · exact s.setWaiting_errorRecord _ q _
  · cases q <;> rfl

/-- The host's turn keeps a recorded error, unless it is a reset. -/
theorem hostTurn_errorRecord {s t : State} (h : hostTurn s = .next t) (q : Port) :
    t.errorRecord q = s.errorRecord q ∨ ErrorExit q s ∧ t.errorRecord q = .cleared := by
  obtain rfl | ⟨a, rest, harrival, hserve⟩ := hostTurn_cases h
  · exact .inl rfl
  · have hsame : ({ s with arrivals := rest } : State).errorRecord q = s.errorRecord q := by cases q <;> rfl
    obtain ⟨d, rfl, rfl⟩ | ⟨th, addr, width, off, -, -, rfl⟩ | ⟨th, addr, width, value, off, -, -, rfl⟩ :=
      serve_cases hserve
    · exact .inr ⟨.inr ⟨d, rest, harrival⟩, State.hardReset_errorRecord _ d q⟩
    · exact .inl ((State.serveRead_errorRecord _ th off width q).trans hsame)
    · exact .inl ((State.serveWrite_errorRecord _ th off width value q).trans hsame)

/-- The turn laid down decides nothing about the ways out of the error state. -/
theorem errorExit_turns {s : State} {ts : List Agent} {q : Port} (h : ErrorExit q { s with turns := ts }) :
    ErrorExit q s :=
  h.imp_left fun ⟨pw, rest, i, hwaiting, hstart⟩ => ⟨pw, rest, i, s.waiting_turns ts q ▸ hwaiting, hstart⟩

/-- A step keeps a recorded error, or clears it by a START at the front of the engine's port or by a reset. -/
theorem step_errorRecord {s t : State} {q : Port} (h : step s = .next t)
    (hraised : (s.errorRecord q).raised = true) :
    t.errorRecord q = s.errorRecord q ∨ ErrorExit q s ∧ t.errorRecord q = .cleared := by
  obtain ⟨-, rfl | ⟨a, ts, hturn⟩⟩ := step_cases h
  · exact .inl rfl
  · have hsame : ({ s with turns := ts } : State).errorRecord q = s.errorRecord q := by cases q <;> rfl
    rw [← hsame] at hraised ⊢
    obtain ⟨p, hengine⟩ | hhost := takeTurn_cases hturn
    · exact (engineTurn_errorRecord hengine hraised).imp_right (And.imp_left errorExit_turns)
    · exact (hostTurn_errorRecord hhost q).imp_right (And.imp_left errorExit_turns)

/-! ### The obligations -/

/-- Settles O23: a step keeps the error record of an engine in its error state, or clears it by the engine's START or
by a reset. -/
theorem onlyStartOrResetLeavesTheErrorState : Obligations.OnlyStartOrResetLeavesTheErrorState := by
  refine ⟨fun s t hstep hfault => ?_, fun s t hstep hfailed => ?_, ?_, ?_⟩
  · have hraised := State.errorRecord_enc_raised.mpr hfault
    obtain hsame | ⟨hexit, hcleared⟩ := step_errorRecord hstep hraised
    · have hstays : t.enc.state = .fault := State.errorRecord_enc_raised.mp (hsame ▸ hraised)
      exact ⟨fun _ => congrArg ErrorRecord.code hsame, fun hleaves => absurd hstays hleaves⟩
    · have hleaves : t.enc.state ≠ .fault := of_decide_eq_false (congrArg ErrorRecord.raised hcleared)
      refine ⟨fun hstays => absurd hstays hleaves, fun _ => hexit.imp_left ?_⟩
      rintro ⟨pw, rest, -, hwaiting, hdecode, f, rfl⟩
      exact ⟨pw, rest, f, hwaiting, hdecode⟩
  · have hraised := State.errorRecord_dec_raised.mpr hfailed
    obtain hsame | ⟨hexit, hcleared⟩ := step_errorRecord hstep hraised
    · have hstays : t.dec.state = .failed := State.errorRecord_dec_raised.mp (hsame ▸ hraised)
      exact ⟨fun _ => ⟨congrArg ErrorRecord.code hsame, congrArg ErrorRecord.byte hsame,
        congrArg ErrorRecord.bit hsame⟩, fun hleaves => absurd hstays hleaves⟩
    · have hleaves : t.dec.state ≠ .failed := of_decide_eq_false (congrArg ErrorRecord.raised hcleared)
      exact ⟨fun hstays => absurd hstays hleaves, fun _ => hexit⟩
  · intro s t f hexec
    cases hexec
    rfl
  · rintro s t i (rfl | ⟨n, rfl⟩) hexec <;> cases hexec <;> exact ⟨rfl, rfl, rfl⟩

/-- Settles O22: the position is split by the two fields that are cut out of the offset. -/
theorem raisingKeepsTheFirstError : Obligations.RaisingKeepsTheFirstError := by
  refine ⟨State.raiseEnc_eq_ite, State.raiseDec_none_eq_ite, fun s c q => ?_⟩
  rw [← extractLsb'_byte_of_offset, ← extractLsb'_bit_of_offset]
  split
  · exact State.raiseDec_of_failed s c (some q) ‹_›
  · exact State.raiseDec_some_of_ne_failed c q ‹_›

/-- Settles O21: an illegal word is always ready, and all it does is to raise the error on its port's engine. -/
theorem illegalWordRaisesIllegalCommand : Obligations.IllegalWordRaisesIllegalCommand := by
  refine fun s w why => ⟨fun hdecode => ⟨wordReady_illegal hdecode, ?_⟩, fun hdecode =>
    ⟨wordReady_illegal hdecode, ?_⟩⟩
  · rw [runWord_illegal hdecode, State.raiseIllegal, State.raiseEnc_eq_ite]
  · rw [runWord_illegal hdecode, State.raiseIllegal, State.raiseDec_none_eq_ite]

/-- Settles O20: without a session BYTE and FINISH commit the raised error and no byte; START clears the error, NOP
keeps the state, and ENC.TBLRD raises BAD_SYMBOL_ID only. -/
theorem sequenceErrorsAndDiscards : Obligations.SequenceErrorsAndDiscards := by
  refine ⟨fun s b h => ?_, fun s b h => ?_, fun s b h => ?_, fun s b h => ?_, ?_⟩
  · have hne : s.enc.state ≠ .fault := by obtain h | h := h <;> simp [h]
    rw [exec_encByte, encByteEffect_of_idle_or_done b h, exec_encFinish, encFinishEffect_of_idle_or_done h,
      settle_nothing, State.raiseEnc_of_ne_fault _ hne]
    exact ⟨rfl, rfl⟩
  · have hne : s.dec.state ≠ .failed := by obtain h | h := h <;> simp [h]
    rw [exec_decByte, decByteEffect_of_idle_or_done b h, exec_decFinish_of_idle_or_done h, settle_nothing,
      State.raiseDec_none_of_ne_failed _ hne]
    exact ⟨rfl, rfl⟩
  · rw [exec_encByte, encByteEffect_of_fault b h, exec_encFinish, encFinishEffect_of_fault h, settle_nothing]
    exact ⟨rfl, rfl⟩
  · rw [exec_decByte, decByteEffect_of_failed b h, exec_decFinish_of_failed h, settle_nothing]
    exact ⟨rfl, rfl⟩
  · intro s t f n sym i hi hexec
    simp only [List.mem_cons, List.not_mem_nil, or_false] at hi
    obtain rfl | rfl | rfl | rfl | rfl | rfl := hi
    · cases hexec
      exact ⟨id, id⟩
    · cases hexec
      exact ⟨nofun, id⟩
    · have hcase := exec_cases hexec
      refine ⟨fun hbad => ?_, fun hbad => hcase.dec_eq rfl ▸ hbad⟩
      obtain hkept | hid := hcase.err_of_encTblrd
      · exact hkept ▸ hbad
      · cases hid.symm.trans hbad
    · cases hexec
      exact ⟨id, id⟩
    · cases hexec
      exact ⟨id, nofun⟩
    · cases hexec
      exact ⟨id, nofun⟩

end Sys2Proof.Machine
end

section
/-! PROOFS. Reset (70_reset_and_hazards.md R220): both engines at their values of 10_state.md R50, and the constant
registers (R48) as they were. -/

namespace Sys2Proof.Machine

/-! ### Serving a reset (R220) -/

theorem serve_reset (s : State) (d : Bool) : serve (.reset d) s = .next (s.hardReset d) := rfl

/-! ### The constant registers depend on the configuration alone (R48) -/

theorem State.readWord_coreParams (s : State) : s.readWord 0x78 32 = s.cfg.coreParams :=
  s.readWord_regOffset .coreParams

theorem State.readWord_coreId (s : State) : s.readWord 0x7C 32 = coreId :=
  s.readWord_regOffset .coreId

@[simp] theorem State.hardReset_readWord_coreParams (s : State) (d : Bool) :
    (s.hardReset d).readWord 0x78 32 = s.readWord 0x78 32 := by
  rw [State.readWord_coreParams, State.readWord_coreParams, State.hardReset_cfg]

@[simp] theorem State.hardReset_readWord_coreId (s : State) (d : Bool) :
    (s.hardReset d).readWord 0x7C 32 = s.readWord 0x7C 32 := by
  rw [State.readWord_coreId, State.readWord_coreId]

/-! ### The obligations -/

/-- Settles O46: a reset is served by `hardReset`, whatever it does to waiting writes, and puts both engines at the
values that they hold in the state right after reset. -/
theorem resetSetsEveryEngineRegister : Obligations.ResetSetsEveryEngineRegister :=
  ⟨fun s d => ⟨s.hardReset d, serve_reset s d, s.hardReset_enc d, s.hardReset_dec d, s.hardReset_cfg d,
    s.hardReset_readWord_coreParams d, s.hardReset_readWord_coreId d⟩, rfl, rfl⟩

end Sys2Proof.Machine
end

section
/-! PROOFS. Command words (30_encoding.md): decoding and encoding are inverse (R81, R84, R85), what a port's opcodes
exclude (R83, R87), and the assembler (R89, R90). -/

namespace Sys2Proof

/-! ### Decoding what was encoded (R84, R85) -/

theorem decode_eq_decByte_iff (w : Word) (b : Byte) :
    decode .dec w = .instr (.decByte b) ↔ w &&& 0xFFFFFF00#32 = 0x90000000#32 ∧ b = w.extractLsb' 0 8 :=
  (decode_eq_instr_iff_of_row ⟨8, by decide⟩ rfl w).trans (and_congr_right' (Iff.of_eq (Instr.decByte.injEq ..)))

/-- The operand is read back from the low bits of ARG (R81). -/
theorem extractLsb'_commandWord {k : Nat} (op flg : BitVec 4) (v : BitVec k) (hk : k ≤ 24) :
    (commandWord op flg (v.setWidth 24)).extractLsb' 0 k = v := by
  rw [commandWord, BitVec.extractLsb'_append_eq_of_add_le (by omega), BitVec.extractLsb'_setWidth_of_le (by omega),
    BitVec.extractLsb'_eq_self]

theorem decode_encode (i : Instr) : decode i.port (encode i) = .instr i := by
  cases i with
  | encNop => decide
  | encStart f => cases f <;> decide
  | encByte b =>
    exact (decode_eq_encByte_iff _ b).mpr
      ⟨Laws.MatchesItsRow.encByte b, (extractLsb'_commandWord _ _ b (by decide)).symm⟩
  | encFinish => decide
  | encTblrd id =>
    exact (decode_eq_encTblrd_iff _ id).mpr
      ⟨Laws.MatchesItsRow.encTblrd id, (extractLsb'_commandWord _ _ id (by decide)).symm⟩
  | decNop => decide
  | decStart => decide
  | decStartMax n =>
    have hn : n = (encode (.decStartMax n)).extractLsb' 0 24 := by
      have hback := extractLsb'_commandWord 0x8 1 n le_rfl
      rw [BitVec.setWidth_eq] at hback
      exact hback.symm
    exact (decode_eq_decStartMax_iff _ n).mpr ⟨Laws.MatchesItsRow.decStartMax n, hn⟩
  | decByte b =>
    exact (decode_eq_decByte_iff _ b).mpr
      ⟨Laws.MatchesItsRow.decByte b, (extractLsb'_commandWord _ _ b (by decide)).symm⟩
  | decFinish => decide

/-! ### A legal word is its row's match column and its operand bits (R81, R84) -/

/-- The operand of a command at its place in the word (R81). -/
def operandBits : Instr → Word
  | .encNop => 0
  | .encStart f => if f then BitVec.twoPow 32 24 else 0
  | .encByte b => b.setWidth 32
  | .encFinish => 0
  | .encTblrd id => id.setWidth 32
  | .decNop => 0
  | .decStart => 0
  | .decStartMax n => n.setWidth 32
  | .decByte b => b.setWidth 32
  | .decFinish => 0

theorem commandWord_setWidth {k : Nat} (op flg : BitVec 4) (v : BitVec k) (hk : k ≤ 24) :
    commandWord op flg (v.setWidth 24) = commandWord op flg 0 ||| v.setWidth 32 := by
  have hlow : v.setWidth 32 = 0#8 ++ v.setWidth 24 := BitVec.eq_of_toNat_eq <| by
    rw [Machine.toNat_zero_append, BitVec.toNat_setWidth_of_le (by omega), BitVec.toNat_setWidth_of_le hk]
  rw [hlow, commandWord, commandWord, BitVec.or_append, BitVec.or_zero,
    show (0 : BitVec 24) = 0#24 from rfl, BitVec.zero_or]

theorem encode_eq_or (i : Instr) : encode i = (rowOf i).1 ||| operandBits i := by
  cases i with
  | encStart f => cases f <;> rfl
  | encByte b => exact commandWord_setWidth 0x2 0 b (by decide)
  | encTblrd id => exact commandWord_setWidth 0x4 0 id (by decide)
  | decStartMax n => exact (congrArg _ n.setWidth_eq.symm).trans (commandWord_setWidth 0x8 1 n le_rfl)
  | decByte b => exact commandWord_setWidth 0x9 0 b (by decide)
  | _ => rfl

theorem setWidth_extractLsb'_zero {k : Nat} (w : Word) :
    (w.extractLsb' 0 k).setWidth 32 = w &&& (BitVec.allOnes k).setWidth 32 := by
  refine BitVec.eq_of_getLsbD_eq fun i hi => ?_
  by_cases hik : i < k
  · simp [hi, hik]
  · simp [hik]

/-- A row reads as operand exactly the bits that its mask leaves free. -/
theorem OpRow.operandBits_build {r : OpRow} (hr : r ∈ opRows) (w : Word) :
    operandBits (r.build w) = w &&& ~~~r.mask := by
  have hfixed : 0 = w &&& ~~~0xFFFFFFFF#32 := BitVec.and_zero.symm
  simp only [opRows, List.mem_cons, List.not_mem_nil, or_false] at hr
  obtain rfl | rfl | rfl | rfl | rfl | rfl | rfl | rfl | rfl | rfl := hr
  · exact hfixed
  · exact (BitVec.and_twoPow w 24).symm
  · exact setWidth_extractLsb'_zero w
  · exact hfixed
  · exact setWidth_extractLsb'_zero w
  · exact hfixed
  · exact hfixed
  · exact setWidth_extractLsb'_zero w
  · exact setWidth_extractLsb'_zero w
  · exact hfixed

theorem encode_of_decode {p : Port} {w : Word} {i : Instr} (h : decode p w = .instr i) : encode i = w := by
  obtain ⟨r, hr, -, hmatch, rfl⟩ := exists_opRow_of_decode h
  obtain ⟨-, hrow⟩ := OpRow.build_port_rowOf hr w
  rw [encode_eq_or, hrow, OpRow.operandBits_build hr, ← hmatch, ← BitVec.and_or_distrib_left,
    BitVec.or_not_self, BitVec.and_allOnes]

/-! ### Each port's rows and opcodes (R83, R85, R87) -/

theorem opRows_pairwise_separate (p : Port) (w : Word) :
    opRows.Pairwise fun r q => r.accepts p w = true → q.accepts p w = true → False := by
  rw [List.pairwise_iff_getElem]
  intro j k hj hk hjk hacceptsj hacceptsk
  simp only [OpRow.accepts, Bool.and_eq_true, decide_eq_true_eq] at hacceptsj hacceptsk
  obtain ⟨hportj, hmatchj⟩ := hacceptsj
  obtain ⟨hportk, hmatchk⟩ := hacceptsk
  have hsame : (⟨j, hj⟩ : Fin opRows.length) = ⟨k, hk⟩ :=
    opRows_separate ⟨j, hj⟩ ⟨k, hk⟩ (hportj.trans hportk.symm) <| by
      show opRows[j].pattern &&& opRows[k].mask = opRows[k].pattern &&& opRows[j].mask
      rw [← hmatchj, ← hmatchk, BitVec.and_assoc, BitVec.and_assoc, BitVec.and_comm opRows[j].mask]
  exact hjk.ne (congrArg Fin.val hsame)

/-- Every row fixes the whole opcode, at one of its port's. -/
theorem opRows_fix_opcode : ∀ r ∈ opRows,
    r.mask.extractLsb' 28 4 = BitVec.allOnes 4 ∧ r.pattern.extractLsb' 28 4 ∈ portOpcodes r.port := by
  decide

theorem opcode_mem_of_decode {p : Port} {w : Word} {i : Instr} (h : decode p w = .instr i) :
    w.extractLsb' 28 4 ∈ portOpcodes p := by
  obtain ⟨r, hr, rfl, hmatch, -⟩ := exists_opRow_of_decode h
  obtain ⟨hmask, hopcode⟩ := opRows_fix_opcode r hr
  rwa [← hmatch, BitVec.extractLsb'_and, hmask, BitVec.and_allOnes] at hopcode

theorem exists_illegal_of_opcode {p : Port} {w : Word} (h : w.extractLsb' 28 4 ∉ portOpcodes p) :
    ∃ why, decode p w = .illegal why := by
  cases hdecode : decode p w with
  | instr i => exact absurd (opcode_mem_of_decode hdecode) h
  | illegal why => exact ⟨why, rfl⟩

/-! ### The assembler (R89, R90) -/

theorem assemble_of_wf {l : AsmLine} (h : l.wf = true) : assemble l = some (expandLine l) := if_pos h

theorem assemble_of_wf_eq_false {l : AsmLine} (h : l.wf = false) : assemble l = none := by
  rw [assemble, h, if_neg Bool.false_ne_true]

/-- A line with one immediate is assembled exactly where the immediate fits its field. -/
theorem assemble_eq_ite {l : AsmLine} {v max : Nat} {actions : List HostAction} (hwf : l.wf = decide (v ≤ max))
    (hexpand : v ≤ max → expandLine l = actions) : assemble l = if v ≤ max then some actions else none := by
  split
  · rw [assemble_of_wf (hwf.trans (decide_eq_true ‹_›)), hexpand ‹_›]
  · exact assemble_of_wf_eq_false (hwf.trans (decide_eq_false ‹_›))

/-- An immediate that fits its field is the operand of the command's word. -/
theorem setWidth_ofNat_of_lt {k v : Nat} (hk : k ≤ 32) (hv : v < 2 ^ k) :
    (BitVec.ofNat k v).setWidth 32 = BitVec.ofNat 32 v :=
  BitVec.eq_of_toNat_eq <| by
    have hv32 : v < 2 ^ 32 := hv.trans_le (Nat.pow_le_pow_right two_pos hk)
    rw [BitVec.toNat_setWidth_of_le hk, BitVec.toNat_ofNat, BitVec.toNat_ofNat, Nat.mod_eq_of_lt hv,
      Nat.mod_eq_of_lt hv32]

theorem commandAction_encByte {b : Nat} (hb : b ≤ 255) :
    commandAction (.encByte (BitVec.ofNat 8 b)) = .command .enc (0x20000000#32 ||| BitVec.ofNat 32 b) := by
  rw [commandAction, encode_eq_or, operandBits, setWidth_ofNat_of_lt (by decide) (by omega)]
  rfl

theorem commandAction_encTblrd {id : Nat} (hid : id ≤ 511) :
    commandAction (.encTblrd (BitVec.ofNat 9 id)) = .command .enc (0x40000000#32 ||| BitVec.ofNat 32 id) := by
  rw [commandAction, encode_eq_or, operandBits, setWidth_ofNat_of_lt (by decide) (by omega)]
  rfl

theorem commandAction_decStartMax {n : Nat} (hn : n ≤ 0xFFFFFF) :
    commandAction (.decStartMax (BitVec.ofNat 24 n)) = .command .dec (0x81000000#32 ||| BitVec.ofNat 32 n) := by
  rw [commandAction, encode_eq_or, operandBits, setWidth_ofNat_of_lt (by decide) (by omega)]
  rfl

theorem commandAction_decByte {b : Nat} (hb : b ≤ 255) :
    commandAction (.decByte (BitVec.ofNat 8 b)) = .command .dec (0x90000000#32 ||| BitVec.ofNat 32 b) := by
  rw [commandAction, encode_eq_or, operandBits, setWidth_ofNat_of_lt (by decide) (by omega)]
  rfl

section
variable {cs : List Nat} (h : ∀ c ∈ cs, c ≤ 255)
include h

theorem all_bytes_fit : (cs.all fun b => decide (b ≤ 255)) = true := by
  simpa using h

theorem encBytesActions_eq_map :
    encBytesActions cs = cs.map fun c => .command .enc (0x20000000#32 ||| BitVec.ofNat 32 c) :=
  List.map_congr_left fun c hc => commandAction_encByte (h c hc)

theorem decBytesActions_eq_map :
    decBytesActions cs = cs.map fun c => .command .dec (0x90000000#32 ||| BitVec.ofNat 32 c) :=
  List.map_congr_left fun c hc => commandAction_decByte (h c hc)

end

theorem all_bytes_fit_eq_false {cs : List Nat} (h : ∃ c ∈ cs, 255 < c) :
    (cs.all fun b => decide (b ≤ 255)) = false := by
  simpa using h

end Sys2Proof

namespace Sys2Proof.Machine

/-! ### The obligations -/

/-- Settles O2: the word fits the command's row, and each operand is read back from the field it was put in. -/
theorem decodeOfEncodeIsTheCommand : Obligations.DecodeOfEncodeIsTheCommand := decode_encode

/-- Settles O3: the bits that the row's mask fixes are the match column's, and the others are the operand's. -/
theorem legalWordIsTheEncoding : Obligations.LegalWordIsTheEncoding := fun _ _ _ h =>
  ⟨(decode_port_and_match h).1, encode_of_decode h⟩

/-- Settles O4: two rows of one port differ in a bit that both fix, so the rows that accept a word are at most one. -/
theorem noWordMatchesTwoRows : Obligations.NoWordMatchesTwoRows := by
  intro p w
  have hpair := List.pairwise_filter.mpr (opRows_pairwise_separate p w)
  generalize (opRows.filter fun r => r.accepts p w) = rows at hpair
  match rows, hpair with
  | [], _ => exact Nat.zero_le 1
  | [_], _ => exact le_rfl
  | r :: q :: _, hpair => exact ((List.pairwise_cons.mp hpair).1 q List.mem_cons_self).elim

/-- Settles O5: a legal word has an opcode of its port, and the listed opcodes are none of the port's. -/
theorem foreignOpcodesAreIllegal : Obligations.ForeignOpcodesAreIllegal := by
  have henc : ∀ op ∈ portOpcodes .enc, op.toNat < 5 := by decide
  have hdec : ∀ op ∈ portOpcodes .dec, op.toNat ∉ [1, 2, 3, 4, 5, 6, 7, 11, 12, 13, 14, 15] := by decide
  exact ⟨fun w hop => exists_illegal_of_opcode fun hmem => (henc _ hmem).not_ge hop,
    fun w hop => exists_illegal_of_opcode fun hmem => hdec _ hmem hop, by decide, by decide⟩

/-- Settles O6: a line is its commands' words, each the match column with the immediate, where every immediate fits. -/
theorem assemblerWordsAndRefusals : Obligations.AssemblerWordsAndRefusals := by
  refine ⟨rfl, rfl, rfl,
    fun b => assemble_eq_ite rfl fun hb => congrArg (fun a => [a]) (commandAction_encByte hb), rfl,
    fun id => assemble_eq_ite rfl fun hid => congrArg (fun a => [a]) (commandAction_encTblrd hid), rfl, rfl,
    fun n => assemble_eq_ite rfl fun hn => congrArg (fun a => [a]) (commandAction_decStartMax hn),
    fun b => assemble_eq_ite rfl fun hb => congrArg (fun a => [a]) (commandAction_decByte hb), rfl,
    fun _ => rfl, rfl, rfl, fun cs hfit => ?_, fun cs hbad => ?_, fun n cs hn => ?_⟩
  · have hwf := all_bytes_fit hfit
    have henc := encBytesActions_eq_map hfit
    have hdec := decBytesActions_eq_map hfit
    refine ⟨?_, ?_, ?_, ?_, ?_, ?_, fun n hn => ?_⟩
    · rw [assemble_of_wf (l := .encStr cs) hwf, expandLine, henc]
    · rw [assemble_of_wf (l := .encHex cs) hwf, expandLine, henc]
    · rw [assemble_of_wf (l := .encEncode cs) hwf, expandLine, henc]
      rfl
    · rw [assemble_of_wf (l := .encSizeof cs) hwf, expandLine, henc]
      rfl
    · rw [assemble_of_wf (l := .decHex cs) hwf, expandLine, hdec]
    · rw [assemble_of_wf (l := .decDecode cs) hwf, expandLine, hdec]
      rfl
    · have hline : (AsmLine.decDecodeMax n cs).wf = true := Bool.and_eq_true_iff.mpr ⟨decide_eq_true hn, hwf⟩
      rw [assemble_of_wf hline, expandLine, commandAction_decStartMax hn, hdec]
      rfl
  · have hwf := all_bytes_fit_eq_false hbad
    exact ⟨assemble_of_wf_eq_false hwf, assemble_of_wf_eq_false hwf, assemble_of_wf_eq_false hwf,
      assemble_of_wf_eq_false hwf, assemble_of_wf_eq_false hwf, assemble_of_wf_eq_false hwf,
      fun _ => assemble_of_wf_eq_false (Bool.and_eq_false_iff.mpr (.inr hwf))⟩
  · exact assemble_of_wf_eq_false (Bool.and_eq_false_iff.mpr (.inl (decide_eq_false hn.not_ge)))

/-- Settles O1: each word is the encoding of the command it stands for. -/
theorem wordsDecodeAsTheSpecWritesThem : Obligations.WordsDecodeAsTheSpecWritesThem :=
  ⟨decode_encode .encNop, decode_encode (.encStart false), decode_encode (.encStart true),
    decode_encode (.encByte 0x77), decode_encode .encFinish, decode_encode (.encTblrd 0x101), decode_encode .decNop,
    decode_encode .decStart, decode_encode (.decStartMax 15), decode_encode (.decByte 0xF1), decode_encode .decFinish⟩

end Sys2Proof.Machine
end

section
/-! PROOFS. DEC.BYTE (42_decoder.md R157), by what its bits are after the codewords that they complete. -/

namespace Sys2Proof.Machine

/-! ### How a scan ends, by what follows the bytes it emitted -/

theorem scanLoop_of_need {T : Table} {r : BitString} (h : matchBits T r = .need) (d : Decoder) (fuel : Nat)
    (pos : BitVec 35) (E : List Byte) : scanLoop T d (fuel + 1) r pos E = ⟨E, none, r⟩ := by
  simp only [scanLoop, h]

theorem scanLoop_of_noMatch {T : Table} {r : BitString} (h : matchBits T r = .noMatch) (d : Decoder) (fuel : Nat)
    (pos : BitVec 35) (E : List Byte) :
    scanLoop T d (fuel + 1) r pos E = ⟨E, some (.invalidCode, some pos), r⟩ := by
  simp only [scanLoop, h]

theorem TableFacts.matchBits_of_codewordOf {T : Table} (hT : TableFacts T) {id : Nat} (hid : id ≤ eos)
    {r : BitString} (h : codewordOf T id <+: r) : ∃ e, matchBits T r = .sym id e := by
  obtain ⟨e, he⟩ := hT.read hid
  exact ⟨e, hT.matchBits_of_prefix (tableRead_some he).2 (codewordOf_eq he ▸ h)⟩

section
variable {T : Table} (hT : TableFacts T) {r : BitString} (d : Decoder) (fuel : Nat) (pos : BitVec 35) {E : List Byte}
include hT

theorem TableFacts.scanLoop_of_eos (h : codewordOf T eos <+: r) :
    scanLoop T d (fuel + 1) r pos E = ⟨E, some (.invalidCode, some pos), r⟩ := by
  obtain ⟨e, hmatch⟩ := hT.matchBits_of_codewordOf le_rfl h
  simp only [scanLoop, hmatch, if_pos]

variable {x : Byte} (hx : codewordOf T x.toNat <+: r)
include hx

theorem TableFacts.scanLoop_of_limit (hlimit : limitReached d (d.outCount.toNat + E.length) = true) :
    scanLoop T d (fuel + 1) r pos E = ⟨E, some (.outputTooLarge, some pos), r⟩ := by
  obtain ⟨e, hmatch⟩ := hT.matchBits_of_codewordOf x.isLt.le hx
  simp only [scanLoop, hmatch, if_neg x.isLt.ne, if_pos hlimit]

theorem TableFacts.scanLoop_of_overflow (hlimit : limitReached d (d.outCount.toNat + E.length) = false)
    (hfull : d.outCount.toNat + E.length = maxCount) :
    scanLoop T d (fuel + 1) r pos E = ⟨E, some (.countOverflow, none), r⟩ := by
  obtain ⟨e, hmatch⟩ := hT.matchBits_of_codewordOf x.isLt.le hx
  simp only [scanLoop, hmatch, if_neg x.isLt.ne, hlimit, if_neg Bool.false_ne_true, if_pos hfull]

end

/-! ### What a scan commits and emits, as one new decoder -/

theorem scanCommit_emit_of_none (S : List Byte) (r : BitString) (s : State) :
    (scanCommit ⟨S, none, r⟩ s).emit .dec S = { s with dec := { s.dec.after S with pend := r } } := by
  rw [← decCount_emit_dec]
  rfl

theorem scanCommit_emit_of_error {s : State} (h : s.dec.state ≠ .failed) (S : List Byte) (r : BitString)
    (code : ErrorCode) : (scanCommit ⟨S, some (code, none), r⟩ s).emit .dec S =
      { s with dec := { s.dec.after S with state := .failed, err := code } } := by
  rw [scanCommit_some, State.raiseDec_none_of_ne_failed (s := s.decCount S.length) _ h, ← decCount_emit_dec]
  rfl

theorem scanCommit_emit_of_dataError {s : State} (h : s.dec.state ≠ .failed) (S : List Byte) (r : BitString)
    (code : ErrorCode) (q : BitVec 35) : (scanCommit ⟨S, some (code, some q), r⟩ s).emit .dec S =
      { s with dec := { s.dec.after S with
          state := .failed, err := code, errByte := q.extractLsb' 3 32, errBit := q.extractLsb' 0 3 } } := by
  rw [scanCommit_some, State.raiseDec_some_of_ne_failed (s := s.decCount S.length) _ _ h, ← decCount_emit_dec]
  rfl

/-- The position of the first bit after the scanned codewords does not wrap (R157). -/
theorem position_add_toNat {T : Table} {d : Decoder} {b : Byte} {S : List Byte} {r : BitString}
    (hdelivered : d.pend.length ≤ 8 * d.inCount.toNat) (hroom : d.inCount.toNat < maxCount)
    (hbits : d.pend ++ byteBits b = codeBits T S ++ r) :
    (d.position + BitVec.ofNat 35 (totalLength T S)).toNat + d.pend.length =
      8 * d.inCount.toNat + totalLength T S := by
  have hlength := congrArg List.length hbits
  simp only [List.length_append, byteBits_length, codeBits_length] at hlength
  simp only [maxCount] at hroom
  rw [BitVec.toNat_add, position_toNat hdelivered, BitVec.toNat_ofNat]
  omega

theorem ReadsBytes.ne_failed {s : State} {b : Byte} {S : List Byte} {r : BitString} (h : ReadsBytes s b S r) :
    s.dec.state ≠ .failed := by
  rw [h.scanning]
  nofun

/-- A DEC.BYTE that ends with a data error: what it answers, and the recorded position (10_state.md R38). -/
theorem exec_decByte_of_dataError {s : State} {b : Byte} {S : List Byte} {r : BitString} {code : ErrorCode}
    (hreads : ReadsBytes s b S r) (hdelivered : s.dec.pend.length ≤ 8 * s.dec.inCount.toNat)
    (hscan : scanByte s.cfg.table s.dec b =
      ⟨S, some (code, some (s.dec.position + BitVec.ofNat 35 (totalLength s.cfg.table S))), r⟩) :
    ∃ t, exec (.decByte b) s = .next t ∧ SameOutside s t ∧ t.enc = s.enc ∧
      t.dec = { s.dec.after S with
        state := .failed, err := code, errByte := t.dec.errByte, errBit := t.dec.errBit } ∧
      8 * t.dec.errByte.toNat + t.dec.errBit.toNat + s.dec.pend.length =
        8 * s.dec.inCount.toNat + totalLength s.cfg.table S := by
  rw [exec_decByte_reads hreads hscan, scanCommit_emit_of_dataError hreads.ne_failed]
  refine ⟨_, rfl, ⟨rfl, rfl, rfl, rfl, rfl, rfl⟩, rfl, rfl, ?_⟩
  rw [position_split, position_add_toNat hdelivered hreads.inRoom hreads.bits]

/-! ### The obligations -/

/-- Settles O15: the scan goes over the codewords of `S` and stops at bits that only begin one. -/
theorem decByteEmitsItsSymbols : Obligations.DecByteEmitsItsSymbols := by
  intro s b S r hwf hreads hneed
  obtain ⟨fuel, -, hscan⟩ := scanByte_reads hwf hreads
  rw [scanLoop_of_need hneed] at hscan
  rw [exec_decByte_reads hreads hscan, scanCommit_emit_of_none]

/-- Settles O16: the scan goes over the codewords of `S` and stops at EOS or at bits that begin no codeword. -/
theorem decByteInvalidCode : Obligations.DecByteInvalidCode := by
  intro s b S r hwf hreads hdelivered hinvalid
  obtain ⟨fuel, -, hscan⟩ := scanByte_reads hwf hreads
  refine exec_decByte_of_dataError hreads hdelivered (r := r) (hscan.trans ?_)
  obtain heos | hnone := hinvalid
  · exact (paramsWf_table hwf).scanLoop_of_eos _ _ _ heos
  · exact scanLoop_of_noMatch hnone _ _ _ _

/-- Settles O17: the scan goes over the codewords of `S` and stops at the next symbol, the limit being reached. -/
theorem decByteOutputTooLarge : Obligations.DecByteOutputTooLarge := by
  intro s b x S r hwf hreads hdelivered hx hlimited hmax
  obtain ⟨fuel, -, hscan⟩ := scanByte_reads hwf hreads
  have hreached : limitReached s.dec (s.dec.outCount.toNat + S.length) = true :=
    limitReached_iff.mpr ⟨hlimited, hmax⟩
  exact exec_decByte_of_dataError hreads hdelivered
    (hscan.trans ((paramsWf_table hwf).scanLoop_of_limit _ _ _ hx hreached))

/-- Settles O18: a full input counter stops DEC.BYTE before its scan, a full output counter within it. -/
theorem decByteCountOverflow : Obligations.DecByteCountOverflow := by
  refine ⟨fun s b hscanning hfull => ?_, fun s b x S r hwf hreads hx hlimit hfull => ?_⟩
  · have heffect : decByteEffect b s = .commit [] (s.raiseDec .countOverflow none) := by
      simp only [decByteEffect, hscanning, if_pos hfull]
    rw [exec_decByte, heffect, settle_nothing, State.raiseDec_none_of_ne_failed _ (by simp [hscanning])]
  · obtain ⟨fuel, -, hscan⟩ := scanByte_reads hwf hreads
    have hgo : limitReached s.dec (s.dec.outCount.toNat + S.length) = false := by
      rw [Bool.eq_false_iff, ne_eq, limitReached_iff]
      exact fun ⟨hlimited, hmax⟩ => (hlimit hlimited).not_ge hmax
    rw [(paramsWf_table hwf).scanLoop_of_overflow _ _ _ hx hgo hfull] at hscan
    rw [exec_decByte_reads hreads hscan, scanCommit_emit_of_error hreads.ne_failed]

end Sys2Proof.Machine
end

section
/-! PROOFS. The invariant of both engines (Safety.lean): it holds right after reset, every part of a step keeps it,
and what it says of a decoder's output (42_decoder.md R162). -/

namespace Sys2Proof.Machine

/-! ### The encoder's invariant, one lemma per change of its registers -/

theorem EncInv.reset (P : Params) : EncInv P Encoder.reset where
  nbits_le := Nat.zero_le 7
  nbits_mod := nofun
  pend_idle _ := rfl
  outq_le := Nat.zero_le _
  fault_iff := by simp [Encoder.reset]
  err_kind := by simp [Encoder.reset]
  bits_ge := le_rfl
  bits_le := le_rfl
  tbl_entry := .inl ⟨rfl, rfl⟩

section
variable {P : Params} {e : Encoder} (h : EncInv P e)
include h

theorem EncInv.withOutq {q : List Byte} (hq : q.length ≤ P.outqDepth) : EncInv P { e with outq := q } :=
  { h with outq_le := hq }

/-- Entering FAULT (60_exceptions.md R192). -/
theorem EncInv.raise {c : ErrorCode} (hne : c ≠ .none)
    (hc : c ∈ [ErrorCode.none, .illegalCommand, .badSequence, .badSymbolId, .countOverflow]) :
    EncInv P { e with state := .fault, err := c } :=
  { h with
    nbits_mod := nofun
    pend_idle := by simp
    fault_iff := iff_of_true rfl hne
    err_kind := hc }

/-- ENC.START (41_encoder.md R124). -/
theorem EncInv.start (f : Bool) : EncInv P { e with
    state := .active, sizeOnly := f, pend := [], inCount := 0, totalBits := 0, err := .none } :=
  { h with
    nbits_le := Nat.zero_le 7
    nbits_mod := fun _ => rfl
    pend_idle := fun _ => rfl
    fault_iff := by simp
    err_kind := by simp
    bits_ge := le_rfl
    bits_le := le_rfl }

/-- The counters do not wrap: each byte counts at least 5 bits, so ENC.IN_COUNT is full only after ENC.TOTAL_BITS
(60_exceptions.md R196). -/
theorem EncInv.counts_toNat {n : Nat} (hmin : 5 ≤ n) (hcount : e.totalBits.toNat + n ≤ maxCount) :
    (BitVec.ofNat 32 (e.totalBits.toNat + n)).toNat = e.totalBits.toNat + n ∧
      (BitVec.ofNat 32 (e.inCount.toNat + 1)).toNat = e.inCount.toNat + 1 := by
  have hge := h.bits_ge
  simp only [maxCount] at hcount
  constructor <;> rw [BitVec.toNat_ofNat, Nat.mod_eq_of_lt (by omega)]

/-- ENC.BYTE in a session (R125): the entry's bits are counted, and the bits that fill no byte stay pending. -/
theorem EncInv.pack (hactive : e.state = .active) {x : SymbolEntry} (hx : 5 ≤ x.len.toNat ∧ x.len.toNat ≤ 30)
    (hcount : e.totalBits.toNat + x.len.toNat ≤ maxCount) : EncInv P { e with
      pend := (packEntry e x).2
      totalBits := BitVec.ofNat 32 (e.totalBits.toNat + x.len.toNat)
      inCount := BitVec.ofNat 32 (e.inCount.toNat + 1) } := by
  obtain ⟨hmin, hmax⟩ := hx
  have hge := h.bits_ge
  have hle := h.bits_le
  obtain ⟨htotal, hin⟩ := h.counts_toNat hmin hcount
  obtain ⟨hbits, hrest, hbytes⟩ := packEntry_spec e x
  refine { h with
    nbits_le := Nat.le_of_lt_succ hrest
    nbits_mod := fun _ => ?_
    pend_idle := by simp [hactive]
    bits_ge := ?_
    bits_le := ?_ }
  · have hmod := h.nbits_mod hactive
    have hlength := congrArg List.length hbits
    rw [List.length_append, streamBits_length, List.length_append, x.codeword_length] at hlength
    simp only [Encoder.nbits, htotal] at hmod ⊢
    omega
  · simp only [htotal, hin]
    omega
  · simp only [htotal, hin]
    omega

/-- ENC.FINISH in a session (R126). -/
theorem EncInv.finish (hactive : e.state = .active) : EncInv P { e with pend := [], state := .done } :=
  { h with
    nbits_le := Nat.zero_le 7
    nbits_mod := nofun
    pend_idle := fun _ => rfl
    fault_iff := iff_of_false nofun (mt h.fault_iff.mpr (by simp [hactive])) }

/-- ENC.TBLRD (R128). -/
theorem EncInv.tblrd {id : Nat} {x : SymbolEntry} (hx : tableRead P.table id = some x) :
    EncInv P { e with tblCode := x.code.setWidth 32, tblLen := x.len } :=
  { h with tbl_entry := .inr ⟨id, x, hx, rfl, rfl⟩ }

end

/-! ### The decoder's invariant, one lemma per change of its registers -/

/-- What holds of the decoder's registers whatever its state and its error. -/
structure DecBase (P : Params) (d : Decoder) : Prop where
  pend_need : matchBits P.table d.pend = .need
  outq_le : d.outq.length ≤ P.outqDepth
  maxlen_zero : d.limitEn = false → d.maxlen = 0
  limit_le : d.limitEn = true → d.outCount.toNat ≤ d.maxlen.toNat
  rate : 5 * d.outCount.toNat ≤ 8 * d.inCount.toNat

theorem DecInv.base {P : Params} {d : Decoder} (h : DecInv P d) : DecBase P d := { h with }

/-- Entering FAILED with an error and its position (60_exceptions.md R193, 10_state.md R38). -/
theorem DecBase.fail {P : Params} {d : Decoder} (h : DecBase P d) {c : ErrorCode} {byte : BitVec 32} {bit : BitVec 3}
    (hne : c ≠ .none) (hkind : c ≠ .badSymbolId) (hzero : c.isData = false → byte = 0 ∧ bit = 0)
    (hlt : c.isData = true → 8 * byte.toNat + bit.toNat < 8 * d.inCount.toNat) :
    DecInv P { d with state := .failed, err := c, errByte := byte, errBit := bit } :=
  { h with
    pend_idle := by simp
    failed_iff := iff_of_true rfl hne
    err_kind := hkind
    rate_pend := nofun
    pos_zero := hzero
    pos_lt := hlt }

theorem TableFacts.decInv_reset {P : Params} (hT : TableFacts P.table) : DecInv P Decoder.reset where
  pend_need := hT.matchBits_nil
  pend_idle _ := rfl
  outq_le := Nat.zero_le _
  failed_iff := by simp [Decoder.reset]
  err_kind := nofun
  maxlen_zero _ := rfl
  limit_le := nofun
  rate := le_rfl
  rate_pend := nofun
  pos_zero _ := ⟨rfl, rfl⟩
  pos_lt := nofun

/-- The decoder records the error without a position (R191). -/
def IsPlainDecError (c : ErrorCode) : Prop := c ≠ .none ∧ c ≠ .badSymbolId ∧ c.isData = false

/-- A data error is an error, and one of the decoder (R191). -/
theorem ErrorCode.ne_of_isData {c : ErrorCode} (h : c.isData = true) : c ≠ .none ∧ c ≠ .badSymbolId := by
  constructor <;> rintro rfl <;> cases h

section
variable {P : Params} {d : Decoder} (h : DecInv P d)
include h

theorem DecInv.withOutq {q : List Byte} (hq : q.length ≤ P.outqDepth) : DecInv P { d with outq := q } :=
  { h with outq_le := hq }

/-- Outside FAILED no position is recorded (R38). -/
theorem DecInv.position_eq_zero (hstate : d.state ≠ .failed) : d.errByte = 0 ∧ d.errBit = 0 := by
  have herr : d.err = .none := by simpa using mt h.failed_iff.mpr hstate
  exact h.pos_zero (by rw [herr]; rfl)

theorem DecInv.raise {c : ErrorCode} (hc : IsPlainDecError c) (hstate : d.state ≠ .failed) :
    DecInv P { d with state := .failed, err := c } := by
  obtain ⟨hne, hkind, hplain⟩ := hc
  exact h.base.fail hne hkind (fun _ => h.position_eq_zero hstate) fun hdata => by simp [hplain] at hdata

/-- DEC.START and DEC.START.MAX (42_decoder.md R156). -/
theorem DecInv.start (hT : TableFacts P.table) {l : Bool} {m : BitVec 24} (hm : l = false → m = 0) : DecInv P { d with
    state := .scanning, limitEn := l, maxlen := m, pend := [], inCount := 0, outCount := 0,
    err := .none, errByte := 0, errBit := 0 } :=
  { h with
    pend_need := hT.matchBits_nil
    pend_idle := fun _ => rfl
    failed_iff := by simp
    err_kind := nofun
    maxlen_zero := hm
    limit_le := fun _ => Nat.zero_le _
    rate := le_rfl
    rate_pend := fun _ => le_rfl
    pos_zero := fun _ => ⟨rfl, rfl⟩
    pos_lt := nofun }

/-- DEC.FINISH that accepts the padding (R158). -/
theorem DecInv.finish (hT : TableFacts P.table) (hscanning : d.state = .scanning) :
    DecInv P { d with pend := [], state := .done } :=
  { h with
    pend_need := hT.matchBits_nil
    pend_idle := fun _ => rfl
    failed_iff := iff_of_false nofun (mt h.failed_iff.mpr (by simp [hscanning]))
    rate_pend := nofun }

/-- In a session the pending bits were delivered (20_memory.md R78). -/
theorem DecInv.pend_delivered (hscanning : d.state = .scanning) : d.pend.length ≤ 8 * d.inCount.toNat := by
  have hrate := h.rate_pend hscanning
  rw [Decoder.plen] at hrate
  omega

/-- DEC.FINISH with other pending bits (R158): the first of them is in the delivered input. -/
theorem DecInv.padding (hscanning : d.state = .scanning) (hpend : d.pend ≠ []) : DecInv P { d with
    state := .failed, err := .invalidPadding
    errByte := d.position.extractLsb' 3 32, errBit := d.position.extractLsb' 0 3 } := by
  refine h.base.fail nofun nofun nofun fun _ => ?_
  have hpos := List.length_pos_iff.mpr hpend
  have hdelivered := h.pend_delivered hscanning
  rw [position_split, position_toNat hdelivered]
  omega

end

/-! ### One DEC.BYTE of a session (R157) -/

theorem noStop.length_le_maxlen {d : Decoder} (hlimited : d.limitEn = true) {n : Nat} {S : List Byte}
    (h : noStop d n S) (hn : n ≤ d.maxlen.toNat) : n + S.length ≤ d.maxlen.toNat :=
  h.length_le_limit (M := some d.maxlen.toNat) (by simp [limitReached_iff, hlimited]) (by simpa using hn) _ rfl

section
variable {P : Params} (hT : TableFacts P.table) {d : Decoder} (h : DecInv P d) (hscanning : d.state = .scanning)
  {b : Byte} {S : List Byte} {r : BitString} (hroom : d.inCount.toNat < maxCount)
  (hbits : d.pend ++ byteBits b = codeBits P.table S ++ r) (hgo : noStop d d.outCount.toNat S)
  (hfree : d.outq.length + S.length ≤ P.outqDepth)

include hroom in
theorem Decoder.after_inCount (S : List Byte) : (d.after S).inCount.toNat = d.inCount.toNat + 1 := by
  simp only [maxCount] at hroom
  show (d.inCount + 1#32).toNat = _
  rw [BitVec.toNat_add, BitVec.toNat_ofNat]
  omega

include hgo in
theorem noStop.after_outCount : (d.after S).outCount.toNat = d.outCount.toNat + S.length := by
  have hle := hgo.length_le_maxCount (Nat.le_pred_of_lt d.outCount.isLt)
  simp only [maxCount] at hle
  show (d.outCount + BitVec.ofNat 32 S.length).toNat = _
  rw [BitVec.toNat_add, BitVec.toNat_ofNat]
  omega

include hT hbits in
/-- The emitted bytes took at least 5 bits each (R162). -/
theorem scanned_bits : 5 * S.length ≤ totalLength P.table S ∧
    d.pend.length + 8 = totalLength P.table S + r.length := by
  have hlength := congrArg List.length hbits
  rw [List.length_append, byteBits_length, List.length_append, codeBits_length] at hlength
  exact ⟨(hT.length_le_totalLength S).1, hlength⟩

include hT h hscanning hroom hbits hgo hfree

theorem DecInv.after_base : DecBase P (d.after S) where
  pend_need := h.pend_need
  outq_le := List.length_append.trans_le hfree
  maxlen_zero := h.maxlen_zero
  limit_le hlimited := by
    rw [hgo.after_outCount]
    exact noStop.length_le_maxlen (d := d) hlimited hgo (h.limit_le hlimited)
  rate := by
    obtain ⟨hmin, hlength⟩ := scanned_bits hT hbits
    have hrate := h.rate_pend hscanning
    rw [Decoder.plen] at hrate
    rw [hgo.after_outCount, Decoder.after_inCount hroom]
    omega

theorem DecInv.scanned_need (hneed : matchBits P.table r = .need) : DecInv P { d.after S with pend := r } := by
  have hbase := h.after_base hT hscanning hroom hbits hgo hfree
  refine { hbase, h with
    pend_need := hneed
    pend_idle := by simp [Decoder.after, hscanning]
    rate_pend := fun _ => ?_
    pos_lt := fun hdata => ?_ }
  · obtain ⟨hmin, hlength⟩ := scanned_bits hT hbits
    have hrate := h.rate_pend hscanning
    have hin := d.after_inCount hroom S
    have hout := hgo.after_outCount
    simp only [Decoder.plen] at hrate ⊢
    omega
  · have hlt := h.pos_lt hdata
    have hin := d.after_inCount hroom S
    show 8 * d.errByte.toNat + d.errBit.toNat < 8 * (d.after S).inCount.toNat
    omega

theorem DecInv.scanned_overflow :
    DecInv P { d.after S with state := .failed, err := .countOverflow } :=
  (h.after_base hT hscanning hroom hbits hgo hfree).fail nofun nofun
    (fun _ => h.position_eq_zero (by simp [hscanning])) nofun

/-- A data error: the offending code is not empty, so its first bit is in the delivered input (R38). -/
theorem DecInv.scanned_dataError {c : ErrorCode} (hc : c.isData = true) (hr : r ≠ []) {q : BitVec 35}
    (hq : q = d.position + BitVec.ofNat 35 (totalLength P.table S)) : DecInv P { d.after S with
      state := .failed, err := c, errByte := q.extractLsb' 3 32, errBit := q.extractLsb' 0 3 } := by
  obtain ⟨hne, hkind⟩ := ErrorCode.ne_of_isData hc
  refine (h.after_base hT hscanning hroom hbits hgo hfree).fail hne hkind (fun hplain => by simp [hc] at hplain)
    fun _ => ?_
  obtain ⟨-, hlength⟩ := scanned_bits hT hbits
  have hposition := position_add_toNat (h.pend_delivered hscanning) hroom hbits
  have hrest := List.length_pos_iff.mpr hr
  rw [position_split, hq, Decoder.after_inCount hroom]
  omega

end

/-- No codeword is empty, and the empty string begins one, so a code that stops the scan is not empty. -/
theorem TableFacts.ne_nil_of_codewordOf {T : Table} (hT : TableFacts T) {id : Nat} (hid : id ≤ eos) {r : BitString}
    (h : codewordOf T id <+: r) : r ≠ [] := by
  rintro rfl
  obtain ⟨e, hmatch⟩ := hT.matchBits_of_codewordOf hid h
  cases hT.matchBits_nil.symm.trans hmatch

theorem TableFacts.ne_nil_of_noMatch {T : Table} (hT : TableFacts T) {r : BitString} (h : matchBits T r = .noMatch) :
    r ≠ [] := by
  rintro rfl
  cases hT.matchBits_nil.symm.trans h

/-- Everything the scan of one byte can find (R157). -/
theorem TableFacts.scanByte_cases {T : Table} (hT : TableFacts T) (d : Decoder) (b : Byte) :
    ∃ S r err, scanByte T d b = ⟨S, err, r⟩ ∧ d.pend ++ byteBits b = codeBits T S ++ r ∧
      noStop d d.outCount.toNat S ∧
      ((err = none ∧ matchBits T r = .need) ∨ err = some (.countOverflow, none) ∨
        ∃ c, c.isData = true ∧ err = some (c, some (d.position + BitVec.ofNat 35 (totalLength T S))) ∧ r ≠ []) := by
  obtain ⟨S, r, err, hscan, hparse, hgo, hend⟩ :=
    hT.scanLoop_cases d (d.pend.length + 9) (d.pend ++ byteBits b) d.position [] (by simp)
  refine ⟨S, r, err, hscan, hparse, hgo, ?_⟩
  obtain hneed | ⟨herr, hinvalid⟩ | ⟨x, hx, ⟨herr, -⟩ | ⟨herr, -⟩⟩ := hend
  · exact .inl hneed
  · exact .inr (.inr ⟨_, rfl, herr, hinvalid.elim (hT.ne_nil_of_codewordOf le_rfl) hT.ne_nil_of_noMatch⟩)
  · exact .inr (.inr ⟨_, rfl, herr, hT.ne_nil_of_codewordOf x.isLt.le hx⟩)
  · exact .inr (.inl herr)

/-! ### Every part of a step keeps the invariant -/

section
variable {s : State} (h : Invariant s)
include h

theorem Invariant.tableFacts : TableFacts s.cfg.table := paramsWf_table h.cfg_wf

/-- The invariant speaks of the configuration and the two engines only. -/
theorem Invariant.of_eq {t : State} (hcfg : t.cfg = s.cfg) (henc : t.enc = s.enc) (hdec : t.dec = s.dec) :
    Invariant t :=
  ⟨hcfg ▸ h.cfg_wf, hcfg ▸ henc ▸ h.enc, hcfg ▸ hdec ▸ h.dec⟩

theorem Invariant.withEnc {e : Encoder} (he : EncInv s.cfg e) : Invariant { s with enc := e } := { h with enc := he }

theorem Invariant.withDec {d : Decoder} (hd : DecInv s.cfg d) : Invariant { s with dec := d } := { h with dec := hd }

theorem Invariant.raiseEnc {c : ErrorCode} (hne : c ≠ .none)
    (hc : c ∈ [ErrorCode.none, .illegalCommand, .badSequence, .badSymbolId, .countOverflow]) :
    Invariant (s.raiseEnc c) := by
  rw [State.raiseEnc_eq_ite]
  split
  · exact h
  · exact h.withEnc (h.enc.raise hne hc)

theorem Invariant.raiseDec {c : ErrorCode} (hc : IsPlainDecError c) : Invariant (s.raiseDec c none) := by
  rw [State.raiseDec_none_eq_ite]
  split
  · exact h
  · exact h.withDec (h.dec.raise hc ‹_›)

theorem Invariant.raiseIllegal (p : Port) : Invariant (s.raiseIllegal p) := by
  cases p with
  | enc => exact h.raiseEnc nofun (by simp)
  | dec => exact h.raiseDec ⟨nofun, nofun, rfl⟩

/-- A queue with room for what is appended does not overflow (10_state.md R40). -/
theorem Invariant.emit_room (p : Port) {bs : List Byte} (hroom : bs.length ≤ s.free p) :
    (s.outq p ++ bs).length ≤ s.cfg.outqDepth := by
  have hle : (s.outq p).length ≤ s.cfg.outqDepth := by
    cases p with
    | enc => exact h.enc.outq_le
    | dec => exact h.dec.outq_le
  rw [State.free] at hroom
  rw [List.length_append]
  omega

theorem Invariant.scanCommit_emit (hscanning : s.dec.state = .scanning) (hroom : s.dec.inCount.toNat < maxCount)
    (b : Byte) (hfree : (scanByte s.cfg.table s.dec b).emitted.length ≤ s.free .dec) :
    Invariant ((scanCommit (scanByte s.cfg.table s.dec b) s).emit .dec (scanByte s.cfg.table s.dec b).emitted) := by
  have hT := h.tableFacts
  obtain ⟨S, r, err, hscan, hbits, hgo, hend⟩ := hT.scanByte_cases s.dec b
  rw [hscan] at hfree ⊢
  have hqueue := List.length_append.symm.trans_le (h.emit_room .dec hfree)
  have hne : s.dec.state ≠ .failed := by simp [hscanning]
  obtain ⟨rfl, hneed⟩ | rfl | ⟨c, hc, rfl, hr⟩ := hend
  · rw [scanCommit_emit_of_none]
    exact h.withDec (h.dec.scanned_need hT hscanning hroom hbits hgo hqueue hneed)
  · rw [scanCommit_emit_of_error hne]
    exact h.withDec (h.dec.scanned_overflow hT hscanning hroom hbits hgo hqueue)
  · rw [scanCommit_emit_of_dataError hne]
    exact h.withDec (h.dec.scanned_dataError hT hscanning hroom hbits hgo hqueue hc hr rfl)

end

theorem ExecCase.invariant {i : Instr} {s t : State} (hcase : ExecCase i s t) (h : Invariant s) : Invariant t := by
  have hT := h.tableFacts
  cases hcase with
  | same => exact h
  | encStart f => exact h.withEnc (h.enc.start f)
  | raiseEnc _ c _ _ hc => obtain rfl | rfl | rfl := hc <;> exact h.raiseEnc nofun (by simp)
  | encByte _ _ e hactive he hcount hroom =>
    exact h.withEnc ((h.enc.pack hactive (hT.lengths e (tableRead_mem he)) hcount).withOutq (h.emit_room .enc hroom))
  | encFinish _ bs hactive _ hroom => exact h.withEnc ((h.enc.finish hactive).withOutq (h.emit_room .enc hroom))
  | encTblrd _ _ e he => exact h.withEnc (h.enc.tblrd he)
  | decStart => exact h.withDec (h.dec.start hT fun _ => rfl)
  | decStartMax n => exact h.withDec (h.dec.start hT nofun)
  | raiseDec _ c _ _ hc => obtain rfl | rfl := hc <;> exact h.raiseDec ⟨nofun, nofun, rfl⟩
  | decByte b _ hscanning hroom hfree => exact h.scanCommit_emit hscanning hroom b hfree
  | decFinish _ hscanning => exact h.withDec (h.dec.finish hT hscanning)
  | decPadding _ hscanning hpend =>
    rw [State.raiseDec_some_of_ne_failed _ _ (by simp [hscanning])]
    exact h.withDec (h.dec.padding hscanning hpend)

theorem runWord_invariant {p : Port} {w : Word} {s t : State} (hrun : runWord p w s = .next t) (h : Invariant s) :
    Invariant t := by
  obtain ⟨i, -, hexec⟩ | ⟨-, -, rfl⟩ := runWord_cases hrun
  · exact (exec_cases hexec).invariant h
  · exact h.raiseIllegal p

theorem engineTurn_invariant {p : Port} {s t : State} (hturn : engineTurn p s = .next t) (h : Invariant s) :
    Invariant t := by
  obtain rfl | ⟨pw, rest, u, -, -, hrun, rfl⟩ := engineTurn_cases hturn
  · exact h
  · exact (runWord_invariant hrun h).of_eq (State.completeWrite_cfg ..) (State.completeWrite_enc ..)
      (State.completeWrite_dec ..)

theorem Invariant.afterRead {s : State} (h : Invariant s) (r : Reg) : Invariant (s.afterRead r) := by
  cases r with
  | encOut => exact h.withEnc (h.enc.withOutq ((List.tail_sublist _).length_le.trans h.enc.outq_le))
  | decOut => exact h.withDec (h.dec.withOutq ((List.tail_sublist _).length_le.trans h.dec.outq_le))
  | _ => exact h

theorem Invariant.serveRead {s : State} (h : Invariant s) (th off width : Nat) :
    Invariant (s.serveRead th off width) := by
  have hread : Invariant (s.readEffect off width) := by
    unfold State.readEffect
    split
    · exact h.afterRead _
    · exact h
  exact hread.of_eq rfl rfl rfl

theorem Invariant.serveWrite {s : State} (h : Invariant s) (th off width : Nat) (value : Word) :
    Invariant (s.serveWrite th off width value) := by
  unfold State.serveWrite
  split
  · exact h.of_eq (State.setWaiting_cfg ..) (State.setWaiting_enc ..) (State.setWaiting_dec ..)
  · exact h.of_eq rfl rfl rfl

theorem Invariant.hardReset {s : State} (h : Invariant s) (drop : Bool) : Invariant (s.hardReset drop) :=
  ⟨h.cfg_wf, .reset s.cfg, h.tableFacts.decInv_reset⟩

theorem hostTurn_invariant {s t : State} (hturn : hostTurn s = .next t) (h : Invariant s) : Invariant t := by
  obtain rfl | ⟨a, rest, -, hserve⟩ := hostTurn_cases hturn
  · exact h
  · have harrived : Invariant { s with arrivals := rest } := h.of_eq rfl rfl rfl
    obtain ⟨d, -, rfl⟩ | ⟨th, addr, width, off, -, -, rfl⟩ | ⟨th, addr, width, value, off, -, -, rfl⟩ :=
      serve_cases hserve
    · exact harrived.hardReset d
    · exact harrived.serveRead th off width
    · exact harrived.serveWrite th off width value

theorem step_invariant {s t : State} (hstep : step s = .next t) (h : Invariant s) : Invariant t := by
  obtain ⟨-, rfl | ⟨a, ts, hturn⟩⟩ := step_cases hstep
  · exact h
  · have hturns : Invariant { s with turns := ts } := h.of_eq rfl rfl rfl
    obtain ⟨p, hengine⟩ | hhost := takeTurn_cases hturn
    · exact engineTurn_invariant hengine hturns
    · exact hostTurn_invariant hhost hturns

/-! ### The obligations -/

/-- Settles O53: HUFFCORE's configuration is legal, and both engines are as a reset leaves them. -/
theorem invariantHoldsAtReset : Obligations.InvariantHoldsAtReset :=
  ⟨paramsWf_huffcoreParams, .reset _, huffcoreTable_facts.decInv_reset⟩

/-- Settles O54: the engines' turns and the host's each keep the invariant, a command by the lemma of its case. -/
theorem everyStepKeepsTheInvariant : Obligations.EveryStepKeepsTheInvariant := fun _ _ h hstep =>
  step_invariant hstep h

/-- Settles O59: the bounds are the invariant's, which the step keeps. -/
theorem decoderOutputIsBounded : Obligations.DecoderOutputIsBounded := by
  intro s t h hstep
  have ht := step_invariant hstep h
  refine ⟨ht.tableFacts.need_length ht.dec.pend_need, ?_, ht.dec.limit_le⟩
  rw [Nat.le_div_iff_mul_le (by decide), Nat.mul_comm]
  exact ht.dec.rate

end Sys2Proof.Machine
end

section
/-! PROOFS. What a command changes and what it depends on (10_state.md R50, 41_encoder.md R130, 60_exceptions.md R200):
nothing outside its own engine, and in its engine the registers that the reset table lists for it. -/

namespace Sys2Proof.Machine

/-! ### A command changes nothing outside its own engine -/

theorem ExecCase.sameOutside {i : Instr} {s t : State} (h : ExecCase i s t) : SameOutside s t := by
  cases h <;> simp [SameOutside]

theorem ExecCase.eq_withEnc {i : Instr} {s t : State} (h : ExecCase i s t) (hport : i.port = .enc) :
    t = { s with enc := t.enc } := by
  obtain ⟨hcfg, hencPort, hdecPort, harrivals, hturns, hreply⟩ := h.sameOutside
  rw [← hcfg, ← hencPort, ← hdecPort, ← harrivals, ← hturns, ← hreply, ← h.dec_eq hport]

theorem ExecCase.eq_withDec {i : Instr} {s t : State} (h : ExecCase i s t) (hport : i.port = .dec) :
    t = { s with dec := t.dec } := by
  obtain ⟨hcfg, hencPort, hdecPort, harrivals, hturns, hreply⟩ := h.sameOutside
  rw [← hcfg, ← hencPort, ← hdecPort, ← harrivals, ← hturns, ← hreply, ← h.enc_eq hport]

/-! ### Every command as an effect that is settled -/

/-- What a command amounts to once its checks are made. Only BYTE and ENC.FINISH ever append (70_reset_and_hazards.md
R230). -/
def effectOf (i : Instr) (s : State) : Effect :=
  match i with
  | .encNop => .commit [] s
  | .encStart f => .commit [] { s with enc := { s.enc with
      state := .active, sizeOnly := f, pend := [], inCount := 0, totalBits := 0, err := .none } }
  | .encByte b => encByteEffect b s
  | .encFinish => encFinishEffect s
  | .encTblrd id =>
    if eos < imm9Id id then .commit [] (s.raiseEnc .badSymbolId)
    else
      match tableRead s.cfg.table (imm9Id id) with
      | none => .refuse .malformedTable
      | some e => .commit [] { s with enc := { s.enc with tblCode := e.code.setWidth 32, tblLen := e.len } }
  | .decNop => .commit [] s
  | .decStart => .commit [] (s.decBegin false 0)
  | .decStartMax n => .commit [] (s.decBegin true n)
  | .decByte b => decByteEffect b s
  | .decFinish =>
    match s.dec.state with
    | .failed => .commit [] s
    | .idle => .commit [] (s.raiseDec .badSequence none)
    | .done => .commit [] (s.raiseDec .badSequence none)
    | .scanning =>
      if s.dec.plen = 0 then .commit [] s.decDone
      else
        match tableRead s.cfg.table eos with
        | none => .refuse .malformedTable
        | some e =>
          if paddingOk s.cfg.maxPadBits s.dec.pend e then .commit [] s.decDone
          else .commit [] (s.raiseDec .invalidPadding (some s.dec.position))

theorem exec_eq_settle (i : Instr) (s : State) : exec i s = settle i.port (effectOf i s) s := by
  cases i with
  | encByte b => rfl
  | encFinish => rfl
  | decByte b => rfl
  | encTblrd id =>
    simp only [exec, execEncTblrd, effectOf]
    split
    · rw [settle_nothing]
    · cases tableRead s.cfg.table (imm9Id id) <;> simp only [settle_nothing, settle_refuse]
  | decFinish =>
    simp only [exec, execDecFinish, effectOf]
    cases s.dec.state with
    | scanning =>
      simp only
      split
      · rw [settle_nothing]
      · cases tableRead s.cfg.table eos with
        | none => rfl
        | some e =>
          simp only
          split <;> rw [settle_nothing]
    | _ => simp only [settle_nothing]
  | _ => exact (settle_nothing ..).symm

theorem isHeld_eq_held (i : Instr) (s : State) : isHeld i s = (effectOf i s).held i.port s := by
  cases i with
  | encByte b => rfl
  | encFinish => rfl
  | decByte b => rfl
  | encTblrd id =>
    simp only [isHeld, effectOf]
    split
    · rfl
    · cases tableRead s.cfg.table (imm9Id id) <;> rfl
  | decFinish =>
    simp only [isHeld, effectOf]
    cases s.dec.state with
    | scanning =>
      simp only
      split
      · rfl
      · cases tableRead s.cfg.table eos with
        | none => rfl
        | some e =>
          simp only
          split <;> rfl
    | _ => rfl
  | _ => rfl

/-- The effect with another committed state. -/
def Effect.map (f : State → State) : Effect → Effect
  | .commit bs t => .commit bs (f t)
  | .refuse r => .refuse r

/-! ### What the effect of an encoder command depends on -/

/-- Another content of ENC.OUTQ, and another decoder: what no encoder command reads. -/
def State.mapEnc (g : List Byte → List Byte) (h : Decoder → Decoder) (s : State) : State :=
  { s with enc := { s.enc with outq := g s.enc.outq }, dec := h s.dec }

section
variable (g : List Byte → List Byte) (h : Decoder → Decoder) (s : State)

theorem State.mapEnc_cfg : (s.mapEnc g h).cfg = s.cfg := rfl

theorem State.mapEnc_state : (s.mapEnc g h).enc.state = s.enc.state := rfl

theorem State.mapEnc_totalBits : (s.mapEnc g h).enc.totalBits = s.enc.totalBits := rfl

theorem State.mapEnc_nbits : (s.mapEnc g h).enc.nbits = s.enc.nbits := rfl

theorem State.mapEnc_raiseEnc (c : ErrorCode) : (s.mapEnc g h).raiseEnc c = (s.raiseEnc c).mapEnc g h := by
  rw [State.raiseEnc_eq_ite, State.raiseEnc_eq_ite, State.mapEnc_state]
  split <;> rfl

end

theorem effectOf_mapEnc {i : Instr} (hport : i.port = .enc) (g : List Byte → List Byte) (h : Decoder → Decoder)
    (s : State) : effectOf i (s.mapEnc g h) = (effectOf i s).map (State.mapEnc g h) := by
  cases i with
  | encNop => rfl
  | encStart f => rfl
  | encByte b =>
    simp only [effectOf, encByteEffect, State.mapEnc_raiseEnc, State.mapEnc_cfg, State.mapEnc_state,
      State.mapEnc_totalBits]
    cases s.enc.state with
    | active =>
      simp only
      cases tableRead s.cfg.table (imm8Id b) with
      | none => rfl
      | some e =>
        simp only
        split <;> rfl
    | _ => rfl
  | encFinish =>
    simp only [effectOf, encFinishEffect, State.mapEnc_raiseEnc, State.mapEnc_cfg, State.mapEnc_state,
      State.mapEnc_nbits]
    cases s.enc.state with
    | active =>
      by_cases hnbits : s.enc.nbits = 0
      · simp only [hnbits, if_true]
        rfl
      · simp only [hnbits, if_false]
        cases tableRead s.cfg.table eos <;> rfl
    | _ => rfl
  | encTblrd id =>
    simp only [effectOf, State.mapEnc_raiseEnc, State.mapEnc_cfg]
    split
    · rfl
    · cases tableRead s.cfg.table (imm9Id id) <;> rfl
  | _ => cases hport

/-! ### What the effect of a decoder command depends on -/

/-- Another content of DEC.OUTQ, and another encoder: what no decoder command reads. -/
def State.mapDec (g : List Byte → List Byte) (h : Encoder → Encoder) (s : State) : State :=
  { s with enc := h s.enc, dec := { s.dec with outq := g s.dec.outq } }

section
variable (g : List Byte → List Byte) (h : Encoder → Encoder) (s : State)

theorem State.mapDec_cfg : (s.mapDec g h).cfg = s.cfg := rfl

theorem State.mapDec_state : (s.mapDec g h).dec.state = s.dec.state := rfl

theorem State.mapDec_inCount : (s.mapDec g h).dec.inCount = s.dec.inCount := rfl

theorem State.mapDec_pend : (s.mapDec g h).dec.pend = s.dec.pend := rfl

theorem State.mapDec_plen : (s.mapDec g h).dec.plen = s.dec.plen := rfl

theorem State.mapDec_position : (s.mapDec g h).dec.position = s.dec.position := rfl

theorem State.mapDec_raiseDec (c : ErrorCode) (pos : Option (BitVec 35)) :
    (s.mapDec g h).raiseDec c pos = (s.raiseDec c pos).mapDec g h := by
  by_cases hfailed : s.dec.state = .failed
  · have hfailed' : (s.mapDec g h).dec.state = .failed := hfailed
    rw [State.raiseDec_of_failed _ _ _ hfailed', State.raiseDec_of_failed _ _ _ hfailed]
  · have hne : (s.mapDec g h).dec.state ≠ .failed := hfailed
    cases pos with
    | none =>
      rw [State.raiseDec_none_of_ne_failed _ hne, State.raiseDec_none_of_ne_failed _ hfailed]
      rfl
    | some q =>
      rw [State.raiseDec_some_of_ne_failed _ _ hne, State.raiseDec_some_of_ne_failed _ _ hfailed]
      rfl

end

/-- A scan reads neither the queue nor the counted bytes. -/
theorem scanLoop_outq (T : Table) (d : Decoder) (q : List Byte) (fuel : Nat) (r : BitString) (pos : BitVec 35)
    (E : List Byte) : scanLoop T { d with outq := q } fuel r pos E = scanLoop T d fuel r pos E := by
  induction fuel generalizing r pos E with
  | zero => rfl
  | succ fuel ih =>
    simp only [scanLoop, ih]
    rfl

theorem scanByte_outq (T : Table) (d : Decoder) (q : List Byte) (b : Byte) :
    scanByte T { d with outq := q } b = scanByte T d b :=
  scanLoop_outq T d q _ _ _ _

theorem scanCommit_mapDec (g : List Byte → List Byte) (h : Encoder → Encoder) (r : ScanResult) (s : State) :
    scanCommit r (s.mapDec g h) = (scanCommit r s).mapDec g h := by
  cases r with
  | mk S err rest =>
    match err with
    | none => rfl
    | some (c, pos) => exact State.mapDec_raiseDec g h (s.decCount S.length) c pos

theorem effectOf_mapDec {i : Instr} (hport : i.port = .dec) (g : List Byte → List Byte) (h : Encoder → Encoder)
    (s : State) : effectOf i (s.mapDec g h) = (effectOf i s).map (State.mapDec g h) := by
  cases i with
  | decNop => rfl
  | decStart => rfl
  | decStartMax n => rfl
  | decByte b =>
    have hscan : scanByte s.cfg.table (s.mapDec g h).dec b = scanByte s.cfg.table s.dec b := scanByte_outq ..
    simp only [effectOf, decByteEffect, State.mapDec_raiseDec, State.mapDec_cfg, State.mapDec_state,
      State.mapDec_inCount, hscan, scanCommit_mapDec]
    cases s.dec.state with
    | scanning =>
      simp only
      split <;> rfl
    | _ => rfl
  | decFinish =>
    simp only [effectOf, State.mapDec_raiseDec, State.mapDec_cfg, State.mapDec_state, State.mapDec_pend,
      State.mapDec_plen, State.mapDec_position]
    cases s.dec.state with
    | scanning =>
      simp only
      split
      · rfl
      · cases tableRead s.cfg.table eos with
        | none => rfl
        | some e =>
          simp only
          split <;> rfl
    | _ => rfl
  | _ => cases hport

/-! ### The queue decides only when (R130) -/

theorem effectOf_setOutq (i : Instr) (s : State) (q : List Byte) :
    effectOf i (s.setOutq i.port q) = (effectOf i s).map fun t => t.setOutq i.port q := by
  cases hport : i.port with
  | enc => exact effectOf_mapEnc hport (fun _ => q) id s
  | dec => exact effectOf_mapDec hport (fun _ => q) id s

/-- What a command commits has the queue that it found. -/
theorem outq_of_effectOf {i : Instr} {s u : State} {bs : List Byte} (h : effectOf i s = .commit bs u) :
    u.outq i.port = s.outq i.port := by
  have hself := effectOf_setOutq i s (s.outq i.port)
  rw [State.setOutq_self, h] at hself
  obtain ⟨-, hu⟩ := Effect.commit.inj hself
  rw [hu, State.setOutq_outq]

theorem exec_of_effectOf {i : Instr} {s u : State} {bs : List Byte} (h : effectOf i s = .commit bs u)
    (hheld : isHeld i s = false) : exec i s = .next (u.emit i.port bs) := by
  rw [isHeld_eq_held, h, Bool.eq_false_iff, ne_eq, held_commit, not_lt] at hheld
  rw [exec_eq_settle, h, settle_of_room hheld]

theorem setOutq_emit (u : State) (p : Port) (q bs : List Byte) :
    (u.setOutq p q).emit p bs = (u.emit p bs).setOutq p (q ++ bs) := by
  cases p <;> rfl

/-! ### Commands of the two engines commute (R200) -/

theorem exec_withDec {i : Instr} (hport : i.port = .enc) {s t : State} (h : exec i s = .next t) (d : Decoder) :
    exec i { s with dec := d } = .next { t with dec := d } := by
  have hmap := effectOf_mapEnc hport id (fun _ => d) s
  rw [exec_eq_settle, hport] at h ⊢
  obtain ⟨bs, u, heffect, ⟨hfull, rfl⟩ | ⟨hroom, rfl⟩⟩ := settle_cases h
  · rw [heffect] at hmap
    exact (congrArg (settle .enc · _) hmap).trans (settle_of_full hfull)
  · rw [heffect] at hmap
    exact (congrArg (settle .enc · _) hmap).trans (settle_of_room hroom)

theorem exec_withEnc {i : Instr} (hport : i.port = .dec) {s t : State} (h : exec i s = .next t) (e : Encoder) :
    exec i { s with enc := e } = .next { t with enc := e } := by
  have hmap := effectOf_mapDec hport id (fun _ => e) s
  rw [exec_eq_settle, hport] at h ⊢
  obtain ⟨bs, u, heffect, ⟨hfull, rfl⟩ | ⟨hroom, rfl⟩⟩ := settle_cases h
  · rw [heffect] at hmap
    exact (congrArg (settle .dec · _) hmap).trans (settle_of_full hfull)
  · rw [heffect] at hmap
    exact (congrArg (settle .dec · _) hmap).trans (settle_of_room hroom)

/-! ### Each register changes only as the reset table lists (10_state.md R50) -/

/-- The encoder's lines of R50, for one command. -/
structure EncChanges (i : Instr) (s t : State) : Prop where
  sizeOnly : t.enc.sizeOnly ≠ s.enc.sizeOnly → ∃ f, i = .encStart f
  pend : t.enc.pend ≠ s.enc.pend → (∃ f, i = .encStart f) ∨ (∃ b, i = .encByte b) ∨ i = .encFinish
  counts : t.enc.inCount ≠ s.enc.inCount ∨ t.enc.totalBits ≠ s.enc.totalBits →
    (∃ f, i = .encStart f) ∨ ∃ b, i = .encByte b
  tbl : t.enc.tblCode ≠ s.enc.tblCode ∨ t.enc.tblLen ≠ s.enc.tblLen → ∃ id, i = .encTblrd id
  err : t.enc.err ≠ s.enc.err → (∃ f, i = .encStart f) ∨ EncFaults i s t
  state : t.enc.state ≠ s.enc.state → (∃ f, i = .encStart f) ∨
    (i = .encFinish ∧ s.enc.state = .active ∧ t.enc.state = .done) ∨ EncFaults i s t
  outq : ∃ bs, t.enc.outq = s.enc.outq ++ bs ∧ (bs ≠ [] → (∃ b, i = .encByte b) ∨ i = .encFinish)

theorem EncChanges.of_eq {i : Instr} {s t : State} (h : t.enc = s.enc) : EncChanges i s t := by
  constructor <;> simp [h]

theorem ExecCase.encChanges {i : Instr} {s t : State} (h : ExecCase i s t) : EncChanges i s t := by
  cases hport : i.port with
  | dec => exact .of_eq (h.enc_eq hport)
  | enc =>
    cases h with
    | same => exact .of_eq rfl
    | encStart f => constructor <;> simp
    | raiseEnc _ c _ _ _ hraise =>
      by_cases hfault : s.enc.state = .fault
      · exact .of_eq (congrArg State.enc (s.raiseEnc_of_fault c hfault))
      · have hfaults : EncFaults i s (s.raiseEnc c) :=
          ⟨hport, hfault, s.raiseEnc_enc_state c, (s.raiseEnc_enc_err c hfault).symm ▸ hraise⟩
        constructor <;> simp [hfaults]
    | encByte b => constructor <;> simp
    | encFinish _ _ hactive => constructor <;> simp [State.encDone, hactive]
    | encTblrd id => constructor <;> simp
    | raiseDec _ _ _ hi => obtain rfl | ⟨b, rfl⟩ := hi <;> cases hport
    | _ => cases hport

/-- The decoder's lines of R50, for one command. -/
structure DecChanges (i : Instr) (s t : State) : Prop where
  limit : t.dec.limitEn ≠ s.dec.limitEn ∨ t.dec.maxlen ≠ s.dec.maxlen → IsDecStart i
  pend : t.dec.pend ≠ s.dec.pend → IsDecStart i ∨ (∃ b, i = .decByte b) ∨ i = .decFinish
  counts : t.dec.inCount ≠ s.dec.inCount ∨ t.dec.outCount ≠ s.dec.outCount → IsDecStart i ∨ ∃ b, i = .decByte b
  err : t.dec.err ≠ s.dec.err → IsDecStart i ∨ DecFaults i s t
  position : t.dec.errByte ≠ s.dec.errByte ∨ t.dec.errBit ≠ s.dec.errBit →
    IsDecStart i ∨ (DecFaults i s t ∧ t.dec.err.isData = true)
  state : t.dec.state ≠ s.dec.state → IsDecStart i ∨
    (i = .decFinish ∧ s.dec.state = .scanning ∧ t.dec.state = .done) ∨ DecFaults i s t
  outq : ∃ bs, t.dec.outq = s.dec.outq ++ bs ∧ (bs ≠ [] → ∃ b, i = .decByte b)

theorem DecChanges.of_eq {i : Instr} {s t : State} (h : t.dec = s.dec) : DecChanges i s t := by
  constructor <;> simp [h]

theorem DecChanges.of_start {i : Instr} {s t : State} (h : IsDecStart i) (hqueue : t.dec.outq = s.dec.outq) :
    DecChanges i s t := by
  constructor <;> simp [h, hqueue]

theorem DecChanges.of_scan {s : State} (hscanning : s.dec.state = .scanning) (b : Byte) :
    DecChanges (.decByte b) s ((scanCommit (scanByte s.cfg.table s.dec b) s).emit .dec
      (scanByte s.cfg.table s.dec b).emitted) := by
  have hne : s.dec.state ≠ .failed := by simp [hscanning]
  generalize hscan : scanByte s.cfg.table s.dec b = result
  obtain ⟨S, err, r⟩ := result
  match err with
  | none =>
    rw [scanCommit_emit_of_none]
    constructor <;> simp [Decoder.after]
  | some (c, q) =>
    obtain ⟨hc, p, rfl⟩ | ⟨rfl, rfl⟩ := scanLoop_error (congrArg ScanResult.error hscan)
    · rw [scanCommit_emit_of_dataError hne]
      have hdata : c.isData = true := by obtain rfl | rfl := hc <;> rfl
      have hraise : CanRaise (.decByte b) c := by obtain rfl | rfl := hc <;> exact ⟨b, rfl⟩
      constructor <;> simp [Decoder.after, DecFaults, Instr.port, hne, hdata, hraise]
    · rw [scanCommit_emit_of_error hne]
      constructor <;> simp [Decoder.after, DecFaults, Instr.port, hne, CanRaise]

theorem ExecCase.decChanges {i : Instr} {s t : State} (h : ExecCase i s t) : DecChanges i s t := by
  cases hport : i.port with
  | enc => exact .of_eq (h.dec_eq hport)
  | dec =>
    cases h with
    | same => exact .of_eq rfl
    | decStart => exact .of_start (.inl rfl) rfl
    | decStartMax n => exact .of_start (.inr ⟨n, rfl⟩) rfl
    | raiseDec _ c _ _ _ hraise =>
      by_cases hfailed : s.dec.state = .failed
      · exact .of_eq (congrArg State.dec (s.raiseDec_of_failed c none hfailed))
      · rw [State.raiseDec_none_of_ne_failed c hfailed]
        constructor <;> simp [DecFaults, hport, hfailed, hraise]
    | decByte b _ hscanning => exact .of_scan hscanning b
    | decFinish _ hscanning => constructor <;> simp [State.decDone, hscanning]
    | decPadding _ hscanning =>
      rw [State.raiseDec_some_of_ne_failed _ _ (by simp [hscanning])]
      constructor <;> simp [DecFaults, Instr.port, hscanning, CanRaise, ErrorCode.isData]
    | raiseEnc _ _ _ hi => obtain rfl | ⟨b, rfl⟩ | ⟨id, rfl⟩ := hi <;> cases hport
    | _ => cases hport

/-! ### No counter wraps (60_exceptions.md R196) -/

theorem ExecCase.encCounts_le {i : Instr} {s t : State} (h : ExecCase i s t) (hs : Invariant s)
    (hstart : ∀ f, i ≠ .encStart f) :
    s.enc.inCount.toNat ≤ t.enc.inCount.toNat ∧ s.enc.totalBits.toNat ≤ t.enc.totalBits.toNat := by
  by_cases hbyte : ∃ b, i = .encByte b
  · obtain ⟨b, rfl⟩ := hbyte
    cases h with
    | encByte _ _ e _ he hcount =>
      obtain ⟨hmin, -⟩ := hs.tableFacts.lengths e (tableRead_mem he)
      obtain ⟨htotal, hin⟩ := hs.enc.counts_toNat hmin hcount
      simp only [State.emit_enc_inCount, State.emit_enc_totalBits, htotal, hin]
      omega
    | same => exact ⟨le_rfl, le_rfl⟩
    | raiseEnc => simp
    | raiseDec => simp
  · have hcounts := h.encChanges.counts.mt (not_or.mpr ⟨fun ⟨f, hf⟩ => hstart f hf, hbyte⟩)
    rw [not_or, not_not, not_not] at hcounts
    obtain ⟨hin, htotal⟩ := hcounts
    rw [hin, htotal]
    exact ⟨le_rfl, le_rfl⟩

theorem scanCommit_emit_counts (s : State) (S : List Byte) (err : Option (ErrorCode × Option (BitVec 35)))
    (r : BitString) : ((scanCommit ⟨S, err, r⟩ s).emit .dec S).dec.inCount = (s.dec.after S).inCount ∧
      ((scanCommit ⟨S, err, r⟩ s).emit .dec S).dec.outCount = (s.dec.after S).outCount := by
  rw [← decCount_emit_dec]
  cases err with
  | none => exact ⟨rfl, rfl⟩
  | some error => exact ⟨State.raiseDec_dec_inCount .., State.raiseDec_dec_outCount ..⟩

theorem ExecCase.decCounts_le {i : Instr} {s t : State} (h : ExecCase i s t) (hs : Invariant s)
    (hstart : ¬ IsDecStart i) :
    s.dec.inCount.toNat ≤ t.dec.inCount.toNat ∧ s.dec.outCount.toNat ≤ t.dec.outCount.toNat := by
  by_cases hbyte : ∃ b, i = .decByte b
  · obtain ⟨b, rfl⟩ := hbyte
    cases h with
    | decByte _ _ _ hroom =>
      obtain ⟨S, r, err, hscan, -, hgo, -⟩ := hs.tableFacts.scanByte_cases s.dec b
      rw [hscan]
      obtain ⟨hin, hout⟩ := scanCommit_emit_counts s S err r
      rw [hin, hout, Decoder.after_inCount hroom, hgo.after_outCount]
      omega
    | same => exact ⟨le_rfl, le_rfl⟩
    | raiseEnc => simp
    | raiseDec => simp
  · have hcounts := h.decChanges.counts.mt (not_or.mpr ⟨hstart, hbyte⟩)
    rw [not_or, not_not, not_not] at hcounts
    obtain ⟨hin, hout⟩ := hcounts
    rw [hin, hout]
    exact ⟨le_rfl, le_rfl⟩

/-! ### The obligations -/

/-- Settles O24: what each case of a command leaves alone. -/
theorem commandTouchesOnlyItsEngine : Obligations.CommandTouchesOnlyItsEngine := fun _ _ _ hexec =>
  ⟨(exec_cases hexec).sameOutside, (exec_cases hexec).dec_eq, (exec_cases hexec).enc_eq⟩

/-- Settles O26: a command depends on its own engine and the configuration only, and changes its own engine only. -/
theorem commandsOfTheTwoEnginesCommute : Obligations.CommandsOfTheTwoEnginesCommute := by
  intro i j s t u hi hj hexec hexec'
  have ht := (exec_cases hexec).eq_withEnc hi
  have hu := (exec_cases hexec').eq_withDec hj
  refine ⟨{ s with dec := u.dec }, ?_, ?_⟩
  · have hfirst := exec_withEnc hj hexec' s.enc
    rw [hu, ht] at hfirst
    exact hfirst
  · rw [exec_withDec hi hexec, ← hu]

/-- Settles O27: with another queue a command commits the same, and where it is not held it appends the same. -/
theorem queueDecidesOnlyWhen : Obligations.QueueDecidesOnlyWhen := by
  intro i s t q hheld hheld' hexec
  obtain ⟨bs, u, heffect, -⟩ := settle_cases ((exec_eq_settle i s).symm.trans hexec)
  rw [exec_of_effectOf heffect hheld] at hexec
  cases hexec
  refine ⟨bs, by rw [State.emit_outq, outq_of_effectOf heffect], ?_⟩
  have hother := effectOf_setOutq i s q
  rw [heffect] at hother
  rw [exec_of_effectOf hother hheld', setOutq_emit]

/-- Settles O25: for each case of a command, what it makes of the registers of its engine. -/
theorem registersChangeOnlyAsListed : Obligations.RegistersChangeOnlyAsListed := by
  intro i s t hexec
  have henc := (exec_cases hexec).encChanges
  have hdec := (exec_cases hexec).decChanges
  exact ⟨henc.sizeOnly, henc.pend, henc.counts, henc.tbl, henc.err, henc.state, henc.outq,
    hdec.limit, hdec.pend, hdec.counts, hdec.err, hdec.position, hdec.state, hdec.outq⟩

/-- Settles O28: only BYTE advances a counter, and it stops where one would wrap. -/
theorem countersNeverWrap : Obligations.CountersNeverWrap := by
  intro i s t h hexec
  refine ⟨(exec_cases hexec).encCounts_le h, fun hstart hstartMax => (exec_cases hexec).decCounts_le h ?_⟩
  rintro (rfl | ⟨n, rfl⟩)
  · exact hstart rfl
  · exact hstartMax n rfl

end Sys2Proof.Machine
end

section
/-! PROOFS. The output-queue hold (70_reset_and_hazards.md R230, R231): when a command is held, how much free space
keeps it from being held, and the stuck states. -/

namespace Sys2Proof.Machine

/-! ### When exactly a command is held (R230) -/

theorem held_iff {p : Port} {e : Effect} {s : State} :
    e.held p s = true ↔ ∃ bs u, e = .commit bs u ∧ s.free p < bs.length := by
  cases e with
  | commit bs u => simp [Effect.held]
  | refuse r => simp [Effect.held]

/-- In SIZE_ONLY mode nothing is emitted, so nothing is held. -/
theorem lt_emitted_length_iff {sizeOnly : Bool} {bs : List Byte} {n : Nat} :
    n < (if sizeOnly then [] else bs).length ↔ sizeOnly = false ∧ n < bs.length := by
  cases sizeOnly <;> simp

theorem isHeld_encByte_iff (b : Byte) (s : State) : isHeld (.encByte b) s = true ↔
    s.enc.state = .active ∧ s.enc.sizeOnly = false ∧
      ∃ e, tableRead s.cfg.table b.toNat = some e ∧ s.enc.totalBits.toNat + e.len.toNat ≤ maxCount ∧
        s.free .enc < (s.enc.pend.length + e.len.toNat) / 8 := by
  rw [isHeld_encByte, held_iff]
  constructor
  · rintro ⟨bs, u, heffect, hfull⟩
    obtain ⟨rfl, -⟩ | ⟨rfl, -⟩ | ⟨hactive, e, he, hcount, rfl, -⟩ := encByteEffect_cases heffect
    · exact absurd hfull (Nat.not_lt_zero _)
    · exact absurd hfull (Nat.not_lt_zero _)
    · obtain ⟨hqueues, hfull⟩ := lt_emitted_length_iff.mp hfull
      obtain ⟨-, -, hlength⟩ := packEntry_spec s.enc e
      exact ⟨hactive, hqueues, e, he, hcount, hlength ▸ hfull⟩
  · rintro ⟨hactive, hqueues, e, he, hcount, hfull⟩
    obtain ⟨-, -, hlength⟩ := packEntry_spec s.enc e
    exact ⟨_, _, encByteEffect_active hactive he hcount, lt_emitted_length_iff.mpr ⟨hqueues, hlength.symm ▸ hfull⟩⟩

theorem isHeld_encFinish_iff (s : State) : isHeld .encFinish s = true ↔
    s.enc.state = .active ∧ s.enc.sizeOnly = false ∧ s.enc.pend ≠ [] ∧
      (∃ e, tableRead s.cfg.table eos = some e) ∧ s.free .enc < 1 := by
  rw [isHeld_encFinish, held_iff]
  constructor
  · rintro ⟨bs, u, heffect, hfull⟩
    obtain ⟨rfl, -⟩ | ⟨rfl, -⟩ | ⟨hactive, -, ⟨rfl, -⟩ | ⟨hpend, e, he, rfl⟩⟩ := encFinishEffect_cases heffect
    · exact absurd hfull (Nat.not_lt_zero _)
    · exact absurd hfull (Nat.not_lt_zero _)
    · exact absurd hfull (Nat.not_lt_zero _)
    · obtain ⟨hqueues, hfull⟩ := lt_emitted_length_iff.mp hfull
      exact ⟨hactive, hqueues, hpend, ⟨e, he⟩, hfull⟩
  · rintro ⟨hactive, hqueues, hpend, ⟨e, he⟩, hfull⟩
    exact ⟨_, _, encFinishEffect_of_pend_ne_nil hactive hpend he, lt_emitted_length_iff.mpr ⟨hqueues, hfull⟩⟩

theorem isHeld_decByte_iff (b : Byte) (s : State) : isHeld (.decByte b) s = true ↔
    s.dec.state = .scanning ∧ s.dec.inCount.toNat < maxCount ∧
      s.free .dec < (scanByte s.cfg.table s.dec b).emitted.length := by
  rw [isHeld_decByte, held_iff]
  constructor
  · rintro ⟨bs, u, heffect, hfull⟩
    obtain ⟨rfl, -⟩ | ⟨rfl, -⟩ | ⟨hscanning, hroom, rfl, -⟩ := decByteEffect_cases heffect
    · exact absurd hfull (Nat.not_lt_zero _)
    · exact absurd hfull (Nat.not_lt_zero _)
    · exact ⟨hscanning, hroom, hfull⟩
  · rintro ⟨hscanning, hroom, hfull⟩
    exact ⟨_, _, decByteEffect_scanning hscanning hroom, hfull⟩

/-- Only these three append (R230). -/
theorem eq_of_isHeld {i : Instr} {s : State} (h : isHeld i s = true) :
    i = .encFinish ∨ (∃ b, i = .encByte b) ∨ ∃ b, i = .decByte b := by
  cases i with
  | encByte b => exact .inr (.inl ⟨b, rfl⟩)
  | encFinish => exact .inl rfl
  | decByte b => exact .inr (.inr ⟨b, rfl⟩)
  | _ => cases h

theorem exec_of_isHeld {i : Instr} {s : State} (h : isHeld i s = true) : exec i s = .next s := by
  rw [isHeld_eq_held, held_iff] at h
  obtain ⟨bs, u, heffect, hfull⟩ := h
  rw [exec_eq_settle, heffect, settle_of_full hfull]

/-! ### A held word stays at its port (20_memory.md R72) -/

theorem wordReady_of_isHeld {p : Port} {w : Word} {s : State} {i : Instr} (hdecode : decode p w = .instr i)
    (hheld : isHeld i s = true) : wordReady p w s = false := by
  rw [wordReady_instr hdecode, hheld, Bool.not_true]

theorem engineTurn_of_nil {p : Port} {s : State} (h : s.waiting p = []) : engineTurn p s = .next s := by
  rw [engineTurn, h]

theorem engineTurn_of_isHeld {p : Port} {s : State} {pw : PortWrite} {rest : List PortWrite} {i : Instr}
    (hwaiting : s.waiting p = pw :: rest) (hdecode : decode p pw.word = .instr i) (hheld : isHeld i s = true) :
    engineTurn p s = .next s := by
  rw [engineTurn, hwaiting]
  simp only [wordReady_of_isHeld hdecode hheld, if_neg Bool.false_ne_true]

/-! ### With enough free space nothing is held (R231), and how much is appended (00_scope.md R6) -/

theorem Invariant.packed_le {s : State} (h : Invariant s) {id : Nat} {e : SymbolEntry}
    (he : tableRead s.cfg.table id = some e) : (s.enc.pend.length + e.len.toNat) / 8 ≤ encEmitMax := by
  have hpend := h.enc.nbits_le
  obtain ⟨-, hlen⟩ := h.tableFacts.lengths e (tableRead_mem he)
  rw [Encoder.nbits] at hpend
  simp only [encEmitMax]
  omega

theorem Invariant.emitted_le {s : State} (h : Invariant s) (b : Byte) :
    (scanByte s.cfg.table s.dec b).emitted.length ≤ decEmitMax := by
  obtain ⟨S, r, err, hscan, hbits, -⟩ := h.tableFacts.scanByte_cases s.dec b
  rw [hscan]
  exact h.tableFacts.length_le_decEmitMax h.dec.pend_need hbits

theorem Invariant.encByte_outq_le {s t : State} (h : Invariant s) {b : Byte} (hexec : exec (.encByte b) s = .next t) :
    t.enc.outq.length ≤ s.enc.outq.length + encEmitMax := by
  cases exec_cases hexec with
  | same => exact Nat.le_add_right _ _
  | raiseEnc => rw [State.raiseEnc_enc_outq]; exact Nat.le_add_right _ _
  | raiseDec => rw [State.raiseDec_enc]; exact Nat.le_add_right _ _
  | encByte _ _ e _ he =>
    obtain ⟨-, -, hlength⟩ := packEntry_spec s.enc e
    rw [State.emit_enc_outq, List.length_append]
    exact Nat.add_le_add_left (emitted_length_le (.inr (hlength ▸ h.packed_le he))) _

theorem encFinish_outq_le {s t : State} (hexec : exec .encFinish s = .next t) :
    t.enc.outq.length ≤ s.enc.outq.length + 1 := by
  cases exec_cases hexec with
  | same => exact Nat.le_add_right _ _
  | raiseEnc => rw [State.raiseEnc_enc_outq]; exact Nat.le_add_right _ _
  | raiseDec => rw [State.raiseDec_enc]; exact Nat.le_add_right _ _
  | encFinish _ bs _ hone =>
    rw [State.emit_enc_outq, List.length_append]
    exact Nat.add_le_add_left hone _

theorem Invariant.decByte_outq_le {s t : State} (h : Invariant s) {b : Byte} (hexec : exec (.decByte b) s = .next t) :
    t.dec.outq.length ≤ s.dec.outq.length + decEmitMax := by
  cases exec_cases hexec with
  | same => exact Nat.le_add_right _ _
  | raiseEnc => rw [State.raiseEnc_dec]; exact Nat.le_add_right _ _
  | raiseDec => rw [State.raiseDec_dec_outq]; exact Nat.le_add_right _ _
  | decByte =>
    rw [State.emit_dec_outq, scanCommit_dec_outq, List.length_append]
    exact Nat.add_le_add_left (h.emitted_le b) _

/-! ### Where a step's fault comes from -/

theorem settle_ne_fault (p : Port) (e : Effect) (s : State) (f : Fault) : settle p e s ≠ .fault f := by
  cases e with
  | refuse r => nofun
  | commit bs u =>
    simp only [settle]
    split <;> nofun

theorem runWord_ne_fault (p : Port) (w : Word) (s : State) (f : Fault) : runWord p w s ≠ .fault f := by
  unfold runWord
  split
  · rw [exec_eq_settle]
    exact settle_ne_fault _ _ _ f
  · nofun

theorem completing_ne_fault {p : Port} {pw : PortWrite} {rest : List PortWrite}
    {o : Host.Outcome State Fault Refusal} {f : Fault} (h : o ≠ .fault f) : completing p pw rest o ≠ .fault f := by
  cases o with
  | fault g => exact h
  | next t => nofun
  | refused r => nofun

theorem engineTurn_ne_fault (p : Port) (s : State) (f : Fault) : engineTurn p s ≠ .fault f := by
  unfold engineTurn
  split
  · nofun
  · split
    · exact completing_ne_fault (runWord_ne_fault _ _ _ f)
    · nofun

theorem serve_ne_fault (a : Arrival) (s : State) (f : Fault) : serve a s ≠ .fault f := by
  unfold serve
  split
  · nofun
  all_goals split <;> nofun

theorem hostTurn_ne_fault (s : State) (f : Fault) : hostTurn s ≠ .fault f := by
  unfold hostTurn
  split
  · nofun
  · exact serve_ne_fault _ _ f

theorem takeTurn_ne_fault (a : Agent) (s : State) (f : Fault) : takeTurn a s ≠ .fault f := by
  cases a with
  | enc => exact engineTurn_ne_fault .enc s f
  | dec => exact engineTurn_ne_fault .dec s f
  | host => exact hostTurn_ne_fault s f

theorem runAgents_of_stuck {s : State} (h : Stuck s) : runAgents s = .fault .outputQueueDeadlock := by
  obtain ⟨hwaiting, hnone⟩ := h
  simp only [runAgents, hnone, if_pos hwaiting]

theorem runAgents_fault_iff (s : State) (f : Fault) : runAgents s = .fault f ↔ Stuck s := by
  refine ⟨fun h => ?_, fun h => by cases f; exact runAgents_of_stuck h⟩
  unfold runAgents at h
  split at h
  next hnone =>
    split at h
    · exact ⟨‹_›, hnone⟩
    · cases h
  next =>
    split at h
    · exact absurd h (takeTurn_ne_fault _ _ f)
    · exact absurd h (takeTurn_ne_fault _ _ f)

theorem step_fault_iff (s : State) (f : Fault) : step s = .fault f ↔ paramsWf s.cfg = true ∧ Stuck s := by
  by_cases hwf : paramsWf s.cfg = true
  · rw [step_eq_runAgents hwf, runAgents_fault_iff]
    exact (and_iff_right hwf).symm
  · refine iff_of_false (fun h => ?_) fun ⟨h, _⟩ => hwf h
    unfold step at h
    split at h
    · cases h
    · exact hwf (configurationRefusal_none.mp ‹_›)

/-! ### When no agent can move -/

theorem promptAgent_eq_none_iff {s : State} :
    promptAgent s = none ↔ (∀ p, portReady p s = false) ∧ s.nextArrival = none := by
  unfold promptAgent
  constructor
  · intro h
    split at h
    · cases h
    · split at h
      · cases h
      · split at h
        · cases h
        · refine ⟨fun p => ?_, by simpa using ‹¬s.nextArrival.isSome = true›⟩
          cases p <;> exact Bool.eq_false_iff.mpr ‹_›
  · rintro ⟨hready, hnone⟩
    rw [hready .enc, hready .dec, hnone]
    rfl

theorem portReady_of_nil {p : Port} {s : State} (h : s.waiting p = []) : portReady p s = false := by
  rw [portReady, h]

theorem portReady_of_isHeld {p : Port} {s : State} {pw : PortWrite} {rest : List PortWrite} {i : Instr}
    (hwaiting : s.waiting p = pw :: rest) (hdecode : decode p pw.word = .instr i) (hheld : isHeld i s = true) :
    portReady p s = false := by
  rw [portReady, hwaiting]
  exact wordReady_of_isHeld hdecode hheld

theorem threadBlocked_iff {s : State} {th : Nat} :
    s.threadBlocked th = true ↔ ∃ p, ∃ pw ∈ s.waiting p, pw.thread = th := by
  simp only [State.threadBlocked, Bool.or_eq_true, List.any_eq_true, beq_iff_eq]
  constructor
  · rintro (h | h)
    · exact ⟨.enc, h⟩
    · exact ⟨.dec, h⟩
  · rintro ⟨p, h⟩
    cases p with
    | enc => exact .inl h
    | dec => exact .inr h

theorem someWaiting_of_ne_nil {s : State} {p : Port} (h : s.waiting p ≠ []) : s.someWaiting = true := by
  cases p with
  | enc => simp [State.someWaiting, show s.encPort ≠ [] from h]
  | dec => simp [State.someWaiting, show s.decPort ≠ [] from h]

theorem forall_port_iff {P : Port → Prop} (p : Port) : (∀ q, P q) ↔ P p ∧ P p.other := by
  cases p
  · exact ⟨fun h => ⟨h _, h _⟩, fun ⟨henc, hdec⟩ q => by cases q <;> assumption⟩
  · exact ⟨fun h => ⟨h _, h _⟩, fun ⟨hdec, henc⟩ q => by cases q <;> assumption⟩

/-! ### The obligations -/

/-- Settles O29: a command is held where its effect has more bytes than the queue has room for, and is then not run. -/
theorem heldCommandDoesNothing : Obligations.HeldCommandDoesNothing :=
  ⟨isHeld_encByte_iff, isHeld_encFinish_iff, isHeld_decByte_iff,
    fun _ _ hheld => ⟨eq_of_isHeld hheld, exec_of_isHeld hheld⟩, fun _ _ _ _ _ => engineTurn_of_isHeld⟩

/-- Settles O30: under the invariant no command appends more than its maximum of 00_scope.md R6. -/
theorem enoughFreeSpaceNeverHolds : Obligations.EnoughFreeSpaceNeverHolds := by
  intro s b h
  refine ⟨fun hfree => ?_, fun hfree => ?_, fun hfree => ?_, fun t => h.encByte_outq_le, fun t => encFinish_outq_le,
    fun t => h.decByte_outq_le⟩
  · rw [Bool.eq_false_iff, ne_eq, isHeld_encByte_iff]
    rintro ⟨-, -, e, he, -, hfull⟩
    exact hfull.not_ge ((h.packed_le he).trans hfree)
  · rw [Bool.eq_false_iff, ne_eq, isHeld_encFinish_iff]
    rintro ⟨-, -, -, -, hfull⟩
    exact hfull.not_ge hfree
  · rw [Bool.eq_false_iff, ne_eq, isHeld_decByte_iff]
    rintro ⟨-, -, hfull⟩
    exact hfull.not_ge ((h.emitted_le b).trans hfree)

/-- Settles O31: the held write keeps its engine from moving, and its thread the host; no part of a step faults. -/
theorem blockedSingleThreadIsStuck : Obligations.BlockedSingleThreadIsStuck := by
  refine ⟨fun s p pw i hwf hwaiting hother hdecode hheld harrivals => ?_, step_fault_iff⟩
  have hblocked : s.threadBlocked pw.thread = true := threadBlocked_iff.mpr ⟨p, pw, by simp [hwaiting], rfl⟩
  have hnone : s.nextArrival = none := firstArrival_none.mpr fun a ha => by
    obtain ⟨x, rfl⟩ := harrivals a ha
    rw [State.canArrive, hblocked, Bool.not_true]
  have hready : ∀ q, portReady q s = false :=
    (forall_port_iff p).mpr ⟨portReady_of_isHeld hwaiting hdecode hheld, portReady_of_nil hother⟩
  have hsome : s.someWaiting = true := someWaiting_of_ne_nil (p := p) (by simp [hwaiting])
  exact (step_fault_iff s _).mpr ⟨hwf, hsome, promptAgent_eq_none_iff.mpr ⟨hready, hnone⟩⟩

end Sys2Proof.Machine
end

section
/-! PROOFS. The command ports and the turns (20_memory.md R72, R73; 60_exceptions.md R210): what a step does by whose
turn it is, and how a port's waiting writes change. -/

namespace Sys2Proof.Machine

/-! ### An engine's turn, by the word that waits at its port -/

section
variable {p : Port} {s : State} {pw : PortWrite} {rest : List PortWrite} (hwaiting : s.waiting p = pw :: rest)
include hwaiting

theorem engineTurn_of_wordReady (hready : wordReady p pw.word s = true) :
    engineTurn p s = completing p pw rest (runWord p pw.word s) := by
  rw [engineTurn, hwaiting]
  simp only [hready, if_pos]

theorem portReady_of_wordReady (hready : wordReady p pw.word s = true) : portReady p s = true := by
  rw [portReady, hwaiting]
  exact hready

theorem engineTurn_of_instr {i : Instr} (hdecode : decode p pw.word = .instr i) (hheld : isHeld i s = false) :
    engineTurn p s = completing p pw rest (exec i s) := by
  have hready : wordReady p pw.word s = true := by rw [wordReady_instr hdecode, hheld, Bool.not_false]
  rw [engineTurn_of_wordReady hwaiting hready, runWord, hdecode]

theorem engineTurn_of_illegal {why : Illegal} (hdecode : decode p pw.word = .illegal why) :
    engineTurn p s = .next ((s.raiseIllegal p).completeWrite p pw rest) := by
  rw [engineTurn_of_wordReady hwaiting (wordReady_illegal hdecode), runWord_illegal hdecode, completing]

end

theorem hostTurn_of_nextArrival {s : State} {a : Arrival} {rest : List Arrival}
    (h : s.nextArrival = some (a, rest)) : hostTurn s = serve a { s with arrivals := rest } := by
  rw [hostTurn, h]

theorem hostTurn_of_none {s : State} (h : s.nextArrival = none) : hostTurn s = .next s := by
  rw [hostTurn, h]

/-! ### The turn that is laid down decides nothing else -/

theorem isHeld_turns (i : Instr) (s : State) (ts : List Agent) : isHeld i { s with turns := ts } = isHeld i s :=
  isHeld_host i s s.encPort s.decPort s.arrivals ts s.lastReply

theorem isHeld_setWaiting (i : Instr) (s : State) (p : Port) (ws : List PortWrite) :
    isHeld i (s.setWaiting p ws) = isHeld i s := by
  cases p with
  | enc => exact isHeld_host i s ws s.decPort s.arrivals s.turns s.lastReply
  | dec => exact isHeld_host i s s.encPort ws s.arrivals s.turns s.lastReply

theorem nextArrival_turns (s : State) (ts : List Agent) :
    ({ s with turns := ts } : State).nextArrival = s.nextArrival := rfl

/-- An engine's turn, laid down while it has a word that is ready. -/
theorem step_of_engine_turn {s : State} {p : Port} {ts : List Agent} (hwf : paramsWf s.cfg = true)
    (hturns : s.turns = portAgent p :: ts) (hready : portReady p s = true) :
    step s = engineTurn p { s with turns := ts } := by
  rw [step_of_turns hwf hturns (promptAgent_of_portReady hready), takeTurn_portAgent]

/-- With no turn laid down, the engine that the prompt order chooses. -/
theorem step_of_engine_prompt {s : State} {p : Port} (hwf : paramsWf s.cfg = true) (hturns : s.turns = [])
    (hprompt : promptAgent s = some (portAgent p)) : step s = engineTurn p s := by
  rw [step_of_promptAgent hwf hturns hprompt, takeTurn_portAgent]

/-- An engine's turn, laid down while its oldest waiting word is a command that is not held. -/
theorem step_of_turns_of_instr {s : State} {p : Port} {pw : PortWrite} {rest : List PortWrite} {i : Instr}
    {ts : List Agent} (hwf : paramsWf s.cfg = true) (hwaiting : s.waiting p = pw :: rest)
    (hdecode : decode p pw.word = .instr i) (hheld : isHeld i s = false) (hturns : s.turns = portAgent p :: ts) :
    step s = completing p pw rest (exec i { s with turns := ts }) := by
  have hready : wordReady p pw.word s = true := by rw [wordReady_instr hdecode, hheld, Bool.not_false]
  rw [step_of_engine_turn hwf hturns (portReady_of_wordReady hwaiting hready)]
  exact engineTurn_of_instr ((s.waiting_turns ts p).trans hwaiting) hdecode ((isHeld_turns i s ts).trans hheld)

/-! ### How a port's waiting writes change (R73) -/

theorem waiting_of_sameOutside {s t : State} (h : SameOutside s t) (p : Port) : t.waiting p = s.waiting p := by
  obtain ⟨-, henc, hdec, -⟩ := h
  cases p with
  | enc => exact henc
  | dec => exact hdec

theorem State.raiseIllegal_waiting (s : State) (p q : Port) : (s.raiseIllegal p).waiting q = s.waiting q := by
  cases p <;> cases q <;> simp [State.raiseIllegal, State.waiting]

theorem runWord_waiting {p : Port} {w : Word} {s t : State} (h : runWord p w s = .next t) (q : Port) :
    t.waiting q = s.waiting q := by
  obtain ⟨i, -, hexec⟩ | ⟨-, -, rfl⟩ := runWord_cases h
  · exact waiting_of_sameOutside (exec_cases hexec).sameOutside q
  · exact s.raiseIllegal_waiting p q

theorem Port.eq_or_eq_other (p q : Port) : q = p ∨ q = p.other := by
  cases p <;> cases q <;> simp [Port.other]

theorem Port.other_other (p : Port) : p.other.other = p := by
  cases p <;> rfl

/-- What a step may make of the waiting writes of the port `p` (R73), with the model's reply and the choice that a
reset carries (log entries 4 and 5). -/
def PortStep (p : Port) (s t : State) : Prop :=
  t.waiting p = s.waiting p ∨
  (∃ pw, s.waiting p = pw :: t.waiting p ∧ t.waiting p.other = s.waiting p.other ∧
    t.lastReply = some (.writeDone pw.thread)) ∨
  (∃ th w rest, s.nextArrival =
      some (.access th (.write (s.cfg.huffBase + if p = .enc then 0x00 else 0x40) 32 w), rest) ∧
    t.waiting p = s.waiting p ++ [⟨th, w⟩] ∧ t.waiting p.other = s.waiting p.other) ∨
  (∃ rest, s.nextArrival = some (.reset true, rest) ∧ t.waiting p = [])

theorem engineTurn_portStep {p q : Port} {s t : State} (h : engineTurn q s = .next t) : PortStep p s t := by
  obtain rfl | ⟨pw, rest, u, hwaiting, -, hrun, rfl⟩ := engineTurn_cases h
  · exact .inl rfl
  · obtain rfl | rfl := Port.eq_or_eq_other p q
    · refine .inr (.inl ⟨pw, ?_, ?_, State.completeWrite_lastReply ..⟩)
      · rw [State.completeWrite_waiting, hwaiting]
      · rw [State.completeWrite_other, runWord_waiting hrun]
    · have hother := State.completeWrite_other u p.other pw rest
      rw [Port.other_other, runWord_waiting hrun] at hother
      exact .inl hother

theorem serveWrite_portStep {p : Port} {s : State} {th addr off width : Nat} {value : Word} {rest : List Arrival}
    (harrival : s.nextArrival = some (.access th (.write addr width value), rest))
    (hoff : s.cfg.spaceOffset addr = some off) :
    PortStep p s (({ s with arrivals := rest } : State).serveWrite th off width value) := by
  have hsame (q : Port) : ({ s with arrivals := rest } : State).waiting q = s.waiting q := by cases q <;> rfl
  unfold State.serveWrite
  split
  next q htarget =>
    rw [hsame q]
    obtain rfl | rfl := Port.eq_or_eq_other p q
    · obtain ⟨rfl, rfl⟩ := writeTarget_some htarget
      obtain ⟨rfl, -⟩ := spaceOffset_some hoff
      refine .inr (.inr (.inl ⟨th, value, rest, harrival, ?_, ?_⟩))
      · rw [State.setWaiting_waiting]
      · rw [State.setWaiting_other, hsame]
    · have hother := State.setWaiting_other { s with arrivals := rest } p.other (s.waiting p.other ++ [⟨th, value⟩])
      rw [Port.other_other, hsame] at hother
      exact .inl hother
  next => exact .inl (hsame p)

theorem hardReset_portStep {p : Port} {s : State} {d : Bool} {rest : List Arrival}
    (harrival : s.nextArrival = some (.reset d, rest)) :
    PortStep p s (({ s with arrivals := rest } : State).hardReset d) := by
  cases d with
  | true => exact .inr (.inr (.inr ⟨rest, harrival, by cases p <;> rfl⟩))
  | false => exact .inl (by cases p <;> rfl)

theorem hostTurn_portStep {p : Port} {s t : State} (h : hostTurn s = .next t) : PortStep p s t := by
  obtain rfl | ⟨a, rest, harrival, hserve⟩ := hostTurn_cases h
  · exact .inl rfl
  · obtain ⟨d, rfl, rfl⟩ | ⟨th, addr, width, off, -, -, rfl⟩ | ⟨th, addr, width, value, off, rfl, hoff, rfl⟩ :=
      serve_cases hserve
    · exact hardReset_portStep harrival
    · refine .inl ?_
      rw [State.serveRead_waiting]
      cases p <;> rfl
    · exact serveWrite_portStep harrival hoff

theorem portStep_turns {p : Port} {s t : State} {ts : List Agent} (h : PortStep p { s with turns := ts } t) :
    PortStep p s t := by
  unfold PortStep at h ⊢
  rwa [State.waiting_turns, State.waiting_turns, nextArrival_turns] at h

theorem step_portStep {p : Port} {s t : State} (h : step s = .next t) : PortStep p s t := by
  obtain ⟨-, rfl | ⟨a, ts, hturn⟩⟩ := step_cases h
  · exact .inl rfl
  · obtain ⟨q, hengine⟩ | hhost := takeTurn_cases hturn
    · exact portStep_turns (engineTurn_portStep hengine)
    · exact portStep_turns (hostTurn_portStep hhost)

/-! ### Blocked threads (R72) -/

theorem mem_ports_iff {s : State} {pw : PortWrite} :
    (pw ∈ s.encPort ∨ pw ∈ s.decPort) ↔ ∃ p, pw ∈ s.waiting p := by
  constructor
  · rintro (h | h)
    · exact ⟨.enc, h⟩
    · exact ⟨.dec, h⟩
  · rintro ⟨p, h⟩
    cases p with
    | enc => exact .inl h
    | dec => exact .inr h

/-- Only an access of a blocked thread cannot arrive; a reset always can. -/
theorem canArrive_eq_false_iff {s : State} {a : Arrival} :
    s.canArrive a = false ↔ ∃ th x pw, a = .access th x ∧ (pw ∈ s.encPort ∨ pw ∈ s.decPort) ∧ pw.thread = th := by
  cases a with
  | reset d => simp [State.canArrive]
  | access th x =>
    rw [State.canArrive, Bool.not_eq_false', threadBlocked_iff]
    constructor
    · rintro ⟨p, pw, hpw, rfl⟩
      exact ⟨_, x, pw, rfl, mem_ports_iff.mpr ⟨p, hpw⟩, rfl⟩
    · rintro ⟨_, _, pw, heq, hpw, rfl⟩
      cases heq
      obtain ⟨p, hp⟩ := mem_ports_iff.mp hpw
      exact ⟨p, pw, hp, rfl⟩

/-! ### The word placed by `withFetchWord` (log entries 2 and 8) -/

theorem decode_of_decodeTableWord {nbits w : Nat} {i : Instr} (h : decodeTableWord nbits w = some i) :
    decode (wordPort (BitVec.ofNat 32 w)) (BitVec.ofNat 32 w) = .instr i := by
  unfold decodeTableWord at h
  split at h
  · split at h
    · cases h
      assumption
    · cases h
  · cases h

theorem presentWord_turns (s : State) (p : Port) (w : Word) :
    ({ s.presentWord p w with turns := s.turns } : State) = s.setWaiting p (⟨0, w⟩ :: s.waiting p) := by
  cases p <;> rfl

theorem presentWord_waiting (s : State) (p : Port) (w : Word) :
    (s.presentWord p w).waiting p = ⟨0, w⟩ :: s.waiting p := by
  cases p <;> rfl

theorem presentWord_cfg (s : State) (p : Port) (w : Word) : (s.presentWord p w).cfg = s.cfg := by
  cases p <;> rfl

theorem isHeld_presentWord (i : Instr) (s : State) (p : Port) (w : Word) :
    isHeld i (s.presentWord p w) = isHeld i s := by
  rw [State.presentWord, isHeld_turns, isHeld_setWaiting]

/-! ### The obligations -/

/-- Settles O44: the next arrival is the first of the list that can happen, and only accesses of blocked threads
cannot. -/
theorem blockedThreadsMakeNoAccess : Obligations.BlockedThreadsMakeNoAccess := by
  intro s a rest h
  obtain ⟨hcan, before, hblocked, after, harrivals, hrest⟩ := firstArrival_some h
  refine ⟨fun th x ha pw hpw hthread => ?_, before, after, harrivals, hrest, fun y hy => ?_⟩
  · have hcannot := canArrive_eq_false_iff.mpr ⟨th, x, pw, ha, hpw, hthread⟩
    exact absurd hcan (by simp [hcannot])
  · exact canArrive_eq_false_iff.mp (hblocked y hy)

/-- Settles O45: an engine's turn takes the write at the head of its port, the host's adds one at a tail or resets. -/
theorem portsServeInArrivalOrder : Obligations.PortsServeInArrivalOrder := fun _ _ _ => step_portStep

/-- Settles O7: the turn, laid down or the prompt order's, is the agent's own turn. -/
theorem stepRunsTheWaitingCommand : Obligations.StepRunsTheWaitingCommand := by
  refine ⟨fun s p pw rest i hwf hwaiting hdecode hheld =>
      ⟨fun ts => step_of_turns_of_instr hwf hwaiting hdecode hheld, fun hturns hprompt => ?_⟩,
    fun s p pw rest why hwf hwaiting hdecode => ⟨fun ts hturns => ?_, fun hturns hprompt => ?_⟩,
    fun s p ts hwf hturns hpasses hmoves => ?_,
    fun s a rest hwf harrival => ⟨fun ts hturns => ?_, fun hturns hprompt => ?_⟩,
    fun s ts hwf hturns hnone hmoves => ?_⟩
  · rw [step_of_engine_prompt hwf hturns hprompt, engineTurn_of_instr hwaiting hdecode hheld]
  · rw [step_of_engine_turn hwf hturns (portReady_of_wordReady hwaiting (wordReady_illegal hdecode))]
    exact engineTurn_of_illegal ((s.waiting_turns ts p).trans hwaiting) hdecode
  · rw [step_of_engine_prompt hwf hturns hprompt, engineTurn_of_illegal hwaiting hdecode]
  · rw [step_of_turns hwf hturns hmoves, takeTurn_portAgent]
    obtain hnil | ⟨pw, rest, i, hwaiting, hdecode, hheld⟩ := hpasses
    · exact engineTurn_of_nil ((s.waiting_turns ts p).trans hnil)
    · exact engineTurn_of_isHeld ((s.waiting_turns ts p).trans hwaiting) hdecode ((isHeld_turns i s ts).trans hheld)
  · rw [step_of_turns hwf hturns (promptAgent_of_nextArrival harrival)]
    exact hostTurn_of_nextArrival ((nextArrival_turns s ts).trans harrival)
  · rw [step_of_promptAgent hwf hturns hprompt]
    exact hostTurn_of_nextArrival harrival
  · rw [step_of_turns hwf hturns hmoves]
    exact hostTurn_of_none ((nextArrival_turns s ts).trans hnone)

/-- Settles O8: the placed word is the oldest at its port and its engine has the next turn. -/
theorem fetchedWordRunsNext : Obligations.FetchedWordRunsNext := by
  intro s nbits w i hwf htable hheld
  have hdecode := decode_of_decodeTableWord htable
  obtain ⟨hport, -⟩ := decode_port_and_match hdecode
  rw [← hport] at hdecode
  have hwf' := (presentWord_cfg s i.port (BitVec.ofNat 32 w)).symm ▸ hwf
  have hheld' := (isHeld_presentWord i s i.port (BitVec.ofNat 32 w)).trans hheld
  have hstep := step_of_turns_of_instr (ts := s.turns) hwf' (presentWord_waiting ..) hdecode hheld' rfl
  rw [presentWord_turns] at hstep
  rwa [State.withFetchWord, ← hport]

/-- Settles O32: no engine's word is ready and the host has no arrival, so no agent can move and nothing waits. -/
theorem idleMachineHoldsItsState : Obligations.IdleMachineHoldsItsState := by
  intro s hwf henc hdec harrivals
  have hready : ∀ p, portReady p s = false :=
    (forall_port_iff .enc).mpr ⟨portReady_of_nil henc, portReady_of_nil (p := .dec) hdec⟩
  have hnone : s.nextArrival = none := by rw [State.nextArrival, harrivals, firstArrival]
  have hidle : s.someWaiting = false := by rw [State.someWaiting, henc, hdec]; rfl
  rw [step_eq_runAgents hwf, runAgents, promptAgent_eq_none_iff.mpr ⟨hready, hnone⟩]
  simp only [hidle, if_neg Bool.false_ne_true]

end Sys2Proof.Machine
end

section
/-! PROOFS. The host interface: the register map and the accesses that it serves (10_state.md R42; 20_memory.md R66,
R68, R69, R72). -/

namespace Sys2Proof.Machine

/-! ### The port that a write reaches (R42) -/

theorem writeTarget_encCmd : writeTarget 0x00 32 = some .enc := by decide

theorem writeTarget_decCmd : writeTarget 0x40 32 = some .dec := by decide

theorem writeTarget_eq_ite (off : Nat) :
    writeTarget off 32 = if off = 0x00 then some .enc else if off = 0x40 then some .dec else none := by
  split
  next h => rw [h, writeTarget_encCmd]
  next henc =>
    split
    next h => rw [h, writeTarget_decCmd]
    next hdec =>
      cases htarget : writeTarget off 32 with
      | none => rfl
      | some p =>
        obtain ⟨-, hoff⟩ := writeTarget_some htarget
        cases p with
        | enc => exact absurd hoff henc
        | dec => exact absurd hoff hdec

theorem writeTarget_regOffset {r : Reg} (henc : r ≠ .encCmd) (hdec : r ≠ .decCmd) :
    writeTarget (regOffset r) 32 = none := by
  rw [writeTarget, readTarget_regOffset]
  split
  next h => exact absurd (Option.some.inj h) henc
  next h => exact absurd (Option.some.inj h) hdec
  next => rfl

theorem afterRead_of_ne {r : Reg} (henc : r ≠ .encOut) (hdec : r ≠ .decOut) (s : State) : s.afterRead r = s := by
  cases r with
  | encOut => exact absurd rfl henc
  | decOut => exact absurd rfl hdec
  | _ => rfl

theorem serveWrite_of_writeTarget {off width : Nat} {p : Port} (h : writeTarget off width = some p) (s : State)
    (th : Nat) (w : Word) : s.serveWrite th off width w = s.setWaiting p (s.waiting p ++ [⟨th, w⟩]) := by
  rw [State.serveWrite, h]

/-- A register is at a multiple of 4, so its four bytes are in its own word. -/
theorem regOffset_mod (r : Reg) : regOffset r % 4 = 0 := by
  cases r <;> rfl

theorem regOffset_le (r : Reg) : regOffset r ≤ 124 := by
  cases r <;> decide

/-! ### The obligations -/

/-- Settles O33: the map is read off register by register; a write reaches a port at two offsets only. -/
theorem registerMapIsAsListed : Obligations.RegisterMapIsAsListed :=
  ⟨rfl, regAt_regOffset, writeTarget_eq_ite,
    fun s => ⟨s.readWord_regOffset .encCmd, s.readWord_regOffset .decCmd⟩⟩

/-- Settles O34: a register's offset is in the register space, and its access is served there. -/
theorem registerAccessesAreServed : Obligations.RegisterAccessesAreServed := by
  refine ⟨fun s t r => serve_read s t 32 (regOffset_lt r), fun s t r henc hdec => ?_, fun s t r v henc hdec => ?_⟩
  · rw [serve_read s t 32 (regOffset_lt r), State.serveRead, State.readEffect_regOffset, afterRead_of_ne henc hdec]
  · rw [serve_write s t 32 v (regOffset_lt r), State.serveWrite, writeTarget_regOffset henc hdec]

/-- Settles O42: a byte's address is its register's and its lane. -/
theorem registerBytesAreLittleEndian : Obligations.RegisterBytesAreLittleEndian := by
  intro s r k hk
  have hmod := regOffset_mod r
  have hle := regOffset_le r
  have hword : (regOffset r + k) / 4 * 4 = regOffset r := by omega
  have hlane : (regOffset r + k) % 4 = k := by omega
  rw [State.laneAt, Nat.add_assoc, spaceOffset_add s.cfg (by omega), Option.map_some, hword, hlane, regAt_regOffset]
  rfl

/-- Settles O43: the write reaches its port and joins the writes waiting there. -/
theorem commandWriteWaitsAtItsPort : Obligations.CommandWriteWaitsAtItsPort := by
  intro s t w
  constructor
  · exact (serve_write (off := 0) s t 32 w (by decide)).trans
      (congrArg _ (serveWrite_of_writeTarget writeTarget_encCmd s t w))
  · exact (serve_write s t 32 w (by decide)).trans
      (congrArg _ (serveWrite_of_writeTarget writeTarget_decCmd s t w))

end Sys2Proof.Machine
end

section
/-! PROOFS. The padding of `Encode` (41_encoder.md R121, R122, R131). -/

namespace Sys2Proof.Machine

theorem TableFacts.encodeRef_length {T : Table} (hT : TableFacts T) (S : List Byte) :
    8 * (encodeRef T S).length = totalLength T S + padCount (totalLength T S) := by
  obtain ⟨e, he⟩ := hT.read le_rfl
  have hlong := hT.eosLong e (tableRead_some he).2
  have hpad := padCount_le (totalLength T S)
  rw [← streamBits_length, hT.streamBits_encodeRef, paddedBits, List.length_append, codeBits_length,
    codewordOf_eq he, List.length_take, e.codeword_length, Nat.min_eq_left (hpad.trans hlong)]

/-- Settles O55: `Encode` has the code bits and `padCount` more, which is what is missing of the last byte. -/
theorem encodePadsMinimally : Obligations.EncodePadsMinimally := by
  intro T S hwf
  have hT := tableWf_facts hwf
  have hbits := hT.streamBits_encodeRef S
  have hlength := hT.encodeRef_length S
  rw [paddedBits, codeBits_length] at hbits
  rw [padCount] at hlength
  refine ⟨hbits, ?_, ?_, fun hwhole => ?_⟩
  · rw [encodedSize]
    omega
  · omega
  · omega

end Sys2Proof.Machine
end
